-- ==== Sys2Proof/Word.lean ====
section
/-! DEFINITION. The word types of SIGPCM: bytes of DMA memory and 64-bit registers (10_state.md R24,
20_memory.md R78). -/

namespace Sys2Proof

/-- One byte of DMA memory. -/
abbrev Byte := BitVec 8

/-- One 64-bit control register, or a command word. -/
abbrev Word := BitVec 64

end Sys2Proof
end

