-- ==== Sys2Proof/Config.lean ====
section
/-! DEFINITION. What an implementation fixes (00_scope.md R8), at the spec's values, and the free
values: constants without a body that stand for what the spec leaves open. -/

namespace Sys2Proof

/-- N_CH, the number of channel descriptors (00_scope.md R8, D45). -/
def Config.nCh : Nat := 8

/-- UNIT_TIME, time units in one second (00_scope.md R8, D4). -/
def Config.unitTime : Nat := 1000000000

/-- SINE_LUT_BITS, log2 of the sine table's length (00_scope.md R8, D14). -/
def Config.sineLutBits : Nat := 12

/-- LEVEL_BITS, the width of a level (00_scope.md R8, R9). -/
def Config.levelBits : Nat := 64

/-- TIME_BITS, the width of a time value (00_scope.md R8). -/
def Config.timeBits : Nat := 64

/-- UNIT_LEVEL, full scale (00_scope.md R8, 40_numeric.md R121). -/
def Config.unitLevel : Int := 9223372036854775807

/-- WIDTHS, the supported sample widths in bytes (00_scope.md R8). -/
def Config.widths : List Nat := [1, 2, 3, 4, 6, 8]

/-- The size of the DMA space (20_memory.md R71). -/
def Config.addrSpace : Nat := 2 ^ 64

/-- The byte an address of DMA memory holds before anything wrote it: the platform's, unspecified
(70_reset_and_hazards.md R301, 93_implementation_defined.md U24). DESIGN CHOICE, safe: a free value,
one for each address. Log entry 4. -/
opaque Config.powerOnByte : Nat → Byte

/-- A byte the spec leaves unspecified during a run: the draw's number, then the address
(93_implementation_defined.md U1 to U3). DESIGN CHOICE, safe: a free value. Log entries 5 and 6. -/
opaque Config.freeByte : Nat → Nat → Byte

/-- Which of the two allowed values a result register shows while BUSY (70_reset_and_hazards.md R317,
93_implementation_defined.md U4); the draw's number. DESIGN CHOICE, safe: a free value. Log entry 6. -/
opaque Config.showsFinal : Nat → Bool

/-- IRQ_LINE, the interrupt controller's input the IRQ output drives (D36, D44: OPEN). Nothing in the
block depends on it. -/
opaque Config.irqLine : Nat

end Sys2Proof
end

