-- ==== Sys2Proof/Machine/Numeric.lean ====
section
/-! DEFINITION. The numeric model: integers and words (00_scope.md R10, R11), byte order (R12),
sample period and count, quantiser and dequantiser (40_numeric.md). -/

namespace Sys2Proof.Machine

/-- `u64(v)` as a register's content (00_scope.md R10). -/
def u64 (v : Int) : Word := BitVec.ofInt 64 v

/-- `s64(w)`: the signed value of a register (00_scope.md R10). -/
def s64 (w : Word) : Int := w.toInt

/-- Floor division (00_scope.md R11). -/
def fdiv (a b : Int) : Int := Int.fdiv a b

/-- The remainder of floor division (00_scope.md R11). -/
def emod (a b : Int) : Int := a - b * fdiv a b

/-- `LE_n(v)`: the n bytes of v mod 2^(8n), least significant first (00_scope.md R12). -/
def le : Nat → Int → List Byte
  | 0, _ => []
  | n + 1, v => BitVec.ofInt 8 v :: le n (fdiv v 256)

/-- `uLE(s)`: the unsigned value of bytes, least significant first (00_scope.md R12). -/
def uLE : List Byte → Nat
  | [] => 0
  | b :: bs => b.toNat + 256 * uLE bs

/-- `sext_n(v)` of an n-bit unsigned v (00_scope.md R10). -/
def sext (n v : Nat) : Int := if 2 * v < 2 ^ n then (v : Int) else (v : Int) - 2 ^ n

/-- `k(W)`, the rescaling shift (40_numeric.md R126). -/
def shiftAmount (W : Nat) : Nat := Config.levelBits - 8 * W

/-- Q, level to sample: shift first, then the +128 offset of the 1-byte form (40_numeric.md R127, R128). -/
def quantise (v : Int) (W : Nat) : List Byte :=
  let s := fdiv v (2 ^ shiftAmount W)
  if W = 1 then [BitVec.ofInt 8 (s + 128)] else le W s

/-- Dq, sample to level (40_numeric.md R129). -/
def dequantise (bs : List Byte) (W : Nat) : Int :=
  if W = 1 then (((bs.headD 0).toNat : Int) - 128) * 2 ^ 56
  else sext (8 * W) (uLE bs) * 2 ^ shiftAmount W

/-- The sample period of a rate, `fdiv(UNIT_TIME, rate)` (40_numeric.md R123). -/
def samplePeriod (rate : Nat) : Nat := Config.unitTime / rate

/-- The sample count of a length, `fdiv(length, P) + 1` (40_numeric.md R124). -/
def sampleCount (length P : Nat) : Nat := length / P + 1

/-- A region `[base, base + len)` of DMA addresses, without wrap (20_memory.md R81). -/
structure Region where
  base : Nat
  len : Nat
deriving DecidableEq, Repr

/-- The address a lies in the region. -/
def Region.has (r : Region) (a : Nat) : Bool := decide (r.base ≤ a) && decide (a < r.base + r.len)

/-- Two regions overlap (20_memory.md R81). -/
def Region.overlaps (r q : Region) : Bool :=
  decide (0 < r.len) && decide (0 < q.len) &&
    decide (r.base < q.base + q.len) && decide (q.base < r.base + r.len)

/-- A region is well formed when it does not run past the space (20_memory.md R81). -/
def Region.fits (r : Region) : Bool := decide (r.base + r.len ≤ Config.addrSpace)

end Sys2Proof.Machine
end

