-- ==== Sys2Proof/Syntax.lean ====
section
/-! DEFINITION. The instructions: one constructor for each row of spec/opcode_table.json. -/

namespace Sys2Proof

/-- An instruction of SIGPCM command set, version 1. The three formats of the opcode table are the
three registers a host writes them to: CMDW to CMD (30_encoding.md R97), SRC to CH_SRC(c) (R101) and
CTRL to CTRL (10_state.md R30). -/
inductive Instr where
  /-- NOP (45_control.md R255). -/
  | nop
  /-- ENCODE (43_encode.md R186). -/
  | encode
  /-- DECODE (44_decode.md R215). -/
  | decode
  /-- GEN_EVAL with its fields CH and W (45_control.md R256). Both take every value at decode (R99). -/
  | genEval (ch : BitVec 8) (w : BitVec 4)
  /-- SRC_NONE on channel c (41_generators.md R150). -/
  | srcNone (c : Nat)
  /-- SRC_SINE on channel c (41_generators.md R152). -/
  | srcSine (c : Nat)
  /-- SRC_PULSE on channel c (41_generators.md R155). -/
  | srcPulse (c : Nat)
  /-- SRC_SQUARE on channel c (41_generators.md R158). -/
  | srcSquare (c : Nat)
  /-- SRC_RAMP_UP on channel c (41_generators.md R161). -/
  | srcRampUp (c : Nat)
  /-- SRC_RAMP_DOWN on channel c (41_generators.md R164). -/
  | srcRampDown (c : Nat)
  /-- SRC_BUFFER on channel c (42_pcm_buffer.md R171). -/
  | srcBuffer (c : Nat)
  /-- SRST, the soft reset (45_control.md R262). -/
  | srst
deriving DecidableEq, Repr

end Sys2Proof
end

