-- ==== Sys2Proof/WellFormed.lean ====
section
/-! DEFINITION. Which instructions have an encoding. -/

namespace Sys2Proof

/-- A channel index names a descriptor of the channel file (10_state.md R46). -/
abbrev channelExists (c : Nat) : Prop := c < Config.nCh

/-- An instruction is well formed when its operands have an encoding: a source kind names an existing
channel, since only those have a CH_SRC register (10_state.md R25). GEN_EVAL's fields take every
value (30_encoding.md R99). -/
abbrev Instr.wf (i : Instr) : Bool :=
  match i with
  | .nop => true
  | .encode => true
  | .decode => true
  | .genEval _ _ => true
  | .srcNone c => decide (channelExists c)
  | .srcSine c => decide (channelExists c)
  | .srcPulse c => decide (channelExists c)
  | .srcSquare c => decide (channelExists c)
  | .srcRampUp c => decide (channelExists c)
  | .srcRampDown c => decide (channelExists c)
  | .srcBuffer c => decide (channelExists c)
  | .srst => true

end Sys2Proof
end

