-- ==== Sys2Proof/Decode.lean ====
section
/-! DEFINITION. From the words a host writes to instructions, and back. An instruction is the 64-bit
word of a host write to one of three kinds of register (30_encoding.md R96, R97, R101; 10_state.md
R30): the register gives the format, the word the instruction. -/

namespace Sys2Proof

/-- The register an instruction word is written to, which gives its format in the opcode table. -/
inductive Carrier where
  /-- CMD, format CMDW (30_encoding.md R97). -/
  | cmd
  /-- CH_SRC(c), format SRC (30_encoding.md R101). -/
  | source (c : Nat)
  /-- CTRL, format CTRL (10_state.md R30). -/
  | ctrl
deriving DecidableEq, Repr

/-- Why a word is no instruction. -/
inductive DecodeError where
  /-- The command word is ILLEGAL (30_encoding.md R99, R102 (a)). -/
  | illegalCommand (w : Word)
  /-- The source kind is reserved (30_encoding.md R102 (b)). -/
  | reservedSource (w : Word)
  /-- A CTRL write with bit 0 = 0 has no effect (10_state.md R30). -/
  | noReset (w : Word)
  /-- The offset is not that of an instruction register. -/
  | notAnInstructionRegister (off : BitVec 12)
  /-- Not one 64-bit word (30_encoding.md R103). -/
  | notOneWord (bs : List Byte)
deriving DecidableEq, Repr

/-- The offset of CTRL (10_state.md R25). -/
def ctrlOffset : BitVec 12 := 0x018

/-- The offset of CMD (10_state.md R25). -/
def cmdOffset : BitVec 12 := 0x030

/-- `o(c)`, the offset of channel c's descriptor and of CH_SRC(c) (10_state.md R46, 41_generators.md R148). -/
def channelOffset (c : Nat) : Nat := 0x100 + 0x40 * c

/-- The OP field of a command word (30_encoding.md R97). -/
def cmdOp (w : Word) : BitVec 8 := w.extractLsb' 0 8

/-- The CH field of a command word (30_encoding.md R97). -/
def cmdCh (w : Word) : BitVec 8 := w.extractLsb' 8 8

/-- The W field of a command word (30_encoding.md R97). -/
def cmdW (w : Word) : BitVec 4 := w.extractLsb' 16 4

/-- The RES field of a command word (30_encoding.md R97). -/
def cmdRes (w : Word) : BitVec 44 := w.extractLsb' 20 44

/-- `decode_cmd` (30_encoding.md R99); ILLEGAL is the error. -/
def decodeCmd (w : Word) : Except DecodeError Instr :=
  if cmdRes w ≠ 0 then .error (.illegalCommand w)
  else if cmdOp w = 0 ∧ cmdCh w = 0 ∧ cmdW w = 0 then .ok .nop
  else if cmdOp w = 1 ∧ cmdCh w = 0 ∧ cmdW w = 0 then .ok .encode
  else if cmdOp w = 2 ∧ cmdCh w = 0 ∧ cmdW w = 0 then .ok .decode
  else if cmdOp w = 3 then .ok (.genEval (cmdCh w) (cmdW w))
  else .error (.illegalCommand w)

/-- The source kind a word written to CH_SRC(c) selects: the whole value is the code
(30_encoding.md R101, 10_state.md R47). -/
def decodeSource (c : Nat) (w : Word) : Except DecodeError Instr :=
  if w = 0 then .ok (.srcNone c)
  else if w = 1 then .ok (.srcSine c)
  else if w = 2 then .ok (.srcPulse c)
  else if w = 3 then .ok (.srcSquare c)
  else if w = 4 then .ok (.srcRampUp c)
  else if w = 5 then .ok (.srcRampDown c)
  else if w = 6 then .ok (.srcBuffer c)
  else .error (.reservedSource w)

/-- A word written to CTRL: bit 0 is SRST, bits 63:1 are ignored (10_state.md R30). -/
def decodeCtrl (w : Word) : Except DecodeError Instr :=
  if w.getLsbD 0 then .ok .srst else .error (.noReset w)

/-- The word in the format of its carrier. -/
def decodeIn (r : Carrier) (w : Word) : Except DecodeError Instr :=
  match r with
  | .cmd => decodeCmd w
  | .source c => decodeSource c w
  | .ctrl => decodeCtrl w

/-- The carrier at an offset of the CSR window, if there is one (10_state.md R25, R46). -/
def carrierAt (off : BitVec 12) : Option Carrier :=
  if off = cmdOffset then some .cmd
  else if off = ctrlOffset then some .ctrl
  else
    let k := off.toNat - 0x100
    if 0x100 ≤ off.toNat ∧ k % 0x40 = 0 ∧ k / 0x40 < Config.nCh then some (.source (k / 0x40)) else none

/-- The instruction of the host write `(W, off, w)` (30_encoding.md R96). Total. -/
def decode (off : BitVec 12) (w : Word) : Except DecodeError Instr :=
  match carrierAt off with
  | some r => decodeIn r w
  | none => .error (.notAnInstructionRegister off)

/-- The instruction of a host write of bytes, which the bus carries little-endian (10_state.md R24).
Total on any bytes. -/
def decodeBytes (off : BitVec 12) (bs : List Byte) : Except DecodeError Instr :=
  if bs.length = 8 then decode off (BitVec.ofNat 64 (Machine.uLE bs)) else .error (.notOneWord bs)

/-- The command word of GEN_EVAL, `(W << 16) | (c << 8) | 3` (45_control.md R256). -/
def genEvalWord (ch : BitVec 8) (w : BitVec 4) : Word := (0 : BitVec 44) ++ w ++ ch ++ (3 : BitVec 8)

/-- The offset of CH_SRC(c) (10_state.md R25). -/
def sourceOffset (c : Nat) : BitVec 12 := BitVec.ofNat 12 (channelOffset c)

/-- The host write that carries an instruction: the offset and the word (30_encoding.md R98, R101;
10_state.md R30). -/
def encode (i : Instr) : BitVec 12 × Word :=
  match i with
  | .nop => (cmdOffset, 0)
  | .encode => (cmdOffset, 1)
  | .decode => (cmdOffset, 2)
  | .genEval ch w => (cmdOffset, genEvalWord ch w)
  | .srcNone c => (sourceOffset c, 0)
  | .srcSine c => (sourceOffset c, 1)
  | .srcPulse c => (sourceOffset c, 2)
  | .srcSquare c => (sourceOffset c, 3)
  | .srcRampUp c => (sourceOffset c, 4)
  | .srcRampDown c => (sourceOffset c, 5)
  | .srcBuffer c => (sourceOffset c, 6)
  | .srst => (ctrlOffset, 1)

/-- The bytes of an encoded instruction as the host's bus carries them (10_state.md R24). -/
def encodeBytes (i : Instr) : List Byte := Machine.le 8 (encode i).2.toNat

/-- The offset at which the model places a bare word of the opcode table, which names no register:
the first of the table's formats, in the table's order, that has an instruction for the word: CMD,
then CH_SRC(0), then CTRL. DESIGN CHOICE, log entry 1. -/
def tableOffset (w : Word) : BitVec 12 :=
  if (decodeCmd w).isOk then cmdOffset
  else if (decodeSource 0 w).isOk then sourceOffset 0
  else if (decodeCtrl w).isOk then ctrlOffset
  else cmdOffset

/-- The instruction the decoder reads from a word numbered as spec/opcode_table.json numbers it. -/
def decodeTableWord (nbits w : Nat) : Option Instr :=
  if nbits ≤ 64 ∧ w < 2 ^ 64 then
    (decodeBytes (tableOffset (BitVec.ofNat 64 w)) (Machine.le 8 w)).toOption
  else none

end Sys2Proof
end

