-- ==== Sys2Proof/Machine/State.lean ====
section
/-! DEFINITION. The state of SIGPCM as plain data: every register of 10_state.md R25, the engine's
phase, DMA memory, and the model's own fields. `State.reset` is the hard-reset state of
70_reset_and_hazards.md R301. -/

namespace Sys2Proof.Machine

/-- A channel descriptor: the seven registers of 10_state.md R47 to R52. -/
structure Channel where
  src : Word
  param : Word
  delay : Word
  bufBase : Word
  bufLen : Word
  bufWidth : Word
  bufPeriod : Word
deriving DecidableEq, Repr

/-- A channel at reset: kind NONE, every register 0 (70_reset_and_hazards.md R301). -/
def Channel.reset : Channel := ⟨0, 0, 0, 0, 0, 0, 0⟩

/-- The configuration registers outside the channel file (10_state.md R35 to R44, R53). -/
structure ConfigRegs where
  encChannels : Word
  encWidth : Word
  encRate : Word
  encLength : Word
  outBase : Word
  outLen : Word
  inBase : Word
  inLen : Word
  scrBase : Word
  scrLen : Word
  evalTime : Word
deriving DecidableEq, Repr

/-- Every configuration register 0 (70_reset_and_hazards.md R301). -/
def ConfigRegs.reset : ConfigRegs := ⟨0, 0, 0, 0, 0, 0, 0, 0, 0, 0, 0⟩

/-- The results of ENCODE (10_state.md R40). -/
structure EncResults where
  samples : Word
  bytes : Word
deriving DecidableEq, Repr

/-- The results of ENCODE cleared (45_control.md R251, 70_reset_and_hazards.md R301). -/
def EncResults.cleared : EncResults := ⟨0, 0⟩

/-- The results of DECODE (10_state.md R43). -/
structure DecResults where
  channels : Word
  width : Word
  rate : Word
  period : Word
  frames : Word
  dataOff : Word
  dataLen : Word
deriving DecidableEq, Repr

/-- The results of DECODE cleared (45_control.md R251, 70_reset_and_hazards.md R301). -/
def DecResults.cleared : DecResults := ⟨0, 0, 0, 0, 0, 0, 0⟩

/-- The results of GEN_EVAL (10_state.md R45). -/
structure EvalResults where
  level : Word
  quant : Word
deriving DecidableEq, Repr

/-- The results of GEN_EVAL cleared (45_control.md R251, 70_reset_and_hazards.md R301). -/
def EvalResults.cleared : EvalResults := ⟨0, 0⟩

/-- The W1C bits of STATUS (10_state.md R29). BUSY is the phase (R56). -/
structure StatusBits where
  done : Bool
  err : Bool
  ovr : Bool
deriving DecidableEq, Repr

/-- DONE, ERR and OVR all 0 (70_reset_and_hazards.md R301). -/
def StatusBits.reset : StatusBits := ⟨false, false, false⟩

/-- ERRCODE, ERR_INFO0 and ERR_INFO1 (10_state.md R33, R34). -/
structure ErrorRecord where
  code : Word
  info0 : Word
  info1 : Word
deriving DecidableEq, Repr

/-- No error recorded: all three 0 (45_control.md R251, 70_reset_and_hazards.md R301). -/
def ErrorRecord.none : ErrorRecord := ⟨0, 0, 0⟩

/-- The engine's phase (10_state.md R56). -/
inductive Phase where
  | idle
  | running (cmd : Word)
deriving DecidableEq, Repr

/-- A region of DMA memory whose unlisted bytes are the free bytes of one draw
(45_control.md R263, 44_decode.md R230). The model's own. -/
structure Void where
  region : Region
  draw : Nat
deriving DecidableEq, Repr

/-- What the platform decides (00_scope.md R8, 92_eei_decisions.md D43, D44): the regions with
`not MemOK`, the regions that are devices, and where the CSR window sits in the DMA space, if there.
A finite list of regions is any predicate on the 2^64 addresses. -/
structure Platform where
  noAnswer : List Region
  devices : List Region
  csrBase : Option Word
deriving DecidableEq, Repr

/-- DMA memory: address and byte pairs, addresses strictly rising (`Memory.wf`). An address that is not
listed holds no value of its own (`unlisted`). -/
abbrev Memory := List Host.Cell

/-- The direction of a CSR access (30_encoding.md R96). -/
inductive Dir where
  | read
  | write
deriving DecidableEq, Repr

/-- One action of the world outside the engine. -/
inductive Access where
  /-- A host access to the CSR window: direction, size in bytes, offset, data written (30_encoding.md
  R96; only an aligned 8-byte access is defined, 10_state.md R24). -/
  | csr (dir : Dir) (size : Nat) (off : BitVec 12) (data : Word)
  /-- A host write of bytes to DMA memory (30_encoding.md R109 `memw`). -/
  | memWrite (a : Word) (bs : List Byte)
  /-- A write of bytes to DMA memory by another master (70_reset_and_hazards.md R310, R312, R313). -/
  | masterWrite (a : Word) (bs : List Byte)
  /-- A host read of n bytes of DMA memory (30_encoding.md R109 `memr`). -/
  | memRead (a : Word) (n : Nat)
  /-- The platform's reset input (70_reset_and_hazards.md R301). -/
  | hardReset
  /-- The platform changes what it decides (20_memory.md R73 allows it between commands). -/
  | platformChange (p : Platform)
deriving DecidableEq, Repr

/-- What happens in one step (60_exceptions.md R279): an access, an engine step, or both. -/
inductive Event where
  | host (a : Access)
  | engine
  | both (a : Access)
deriving DecidableEq, Repr

/-- What the last host access returned on the host bus. The model's own. -/
inductive Response where
  | none
  /-- A write was taken by the block or by memory (dropped and ignored writes among them). -/
  | written
  /-- A CSR read returned this value (30_encoding.md R96). -/
  | value (w : Word)
  /-- A memory read returned these bytes. -/
  | bytes (bs : List Byte)
  /-- The error response of 10_state.md R24. -/
  | busError
deriving DecidableEq, Repr

/-- Why the machine stops. Raised by `step` alone. -/
inductive Fault where
  /-- A memory access from outside the engine runs past address 2^64 − 1; no such byte exists (20_memory.md R71).
  Raised by `hostAccess`. Safe: the model stops where a platform would answer somehow. Log entry 11. -/
  | noSuchAddress
deriving DecidableEq, Repr

/-- Why an instruction has no meaning. -/
inductive Refusal where
  /-- The instruction is not modelled yet. No arm of `exec` raises it. Safe. -/
  | notModelled (mnemonic : String)
deriving DecidableEq, Repr

/-- The machine. -/
structure State where
  phase : Phase
  status : StatusBits
  irqEn : BitVec 3
  error : ErrorRecord
  cfg : ConfigRegs
  chan : Vector Channel 8
  enc : EncResults
  dec : DecResults
  eval : EvalResults
  hazard : Bool
  mem : Memory
  voids : List Void
  draws : Nat
  platform : Platform
  inputs : List Event
  resp : Response
deriving DecidableEq, Repr

/-- The state after a hard reset (70_reset_and_hazards.md R301, R303). The platform, the host's
program and the response are outside the block: DESIGN CHOICE, nothing there (log entries 8 and 13);
`draws` 0: DESIGN CHOICE (log entry 7). -/
def State.reset : State where
  phase := .idle
  status := StatusBits.reset
  irqEn := 0
  error := ErrorRecord.none
  cfg := ConfigRegs.reset
  chan := Vector.replicate 8 Channel.reset
  enc := EncResults.cleared
  dec := DecResults.cleared
  eval := EvalResults.cleared
  hazard := false
  mem := []
  voids := []
  draws := 0
  platform := ⟨[], [], none⟩
  inputs := []
  resp := .none

end Sys2Proof.Machine
end

