-- ==== Sys2Proof/Machine/Flags.lean ====
section
/-! DEFINITION. The STATUS bits, their W1C writes, and the IRQ line (10_state.md R29 to R31,
60_exceptions.md R280). The block has no other flags (10_state.md R23). -/

namespace Sys2Proof.Machine

/-- STATUS.BUSY: the phase is RUNNING (10_state.md R56). -/
def State.busy (s : State) : Bool :=
  match s.phase with
  | .idle => false
  | .running _ => true

/-- STATUS as the host reads it; bits 63:4 read 0 (10_state.md R29). -/
def statusWord (s : State) : Word :=
  (0 : BitVec 60) ++ BitVec.ofBool s.status.ovr ++ BitVec.ofBool s.status.err ++
    BitVec.ofBool s.status.done ++ BitVec.ofBool s.busy

/-- A write to STATUS clears every W1C bit whose data bit is 1 and nothing else (10_state.md R29).
It is the only acknowledge (60_exceptions.md R281, R283). -/
def StatusBits.clear (b : StatusBits) (w : Word) : StatusBits :=
  ⟨b.done && !w.getLsbD 1, b.err && !w.getLsbD 2, b.ovr && !w.getLsbD 3⟩

/-- The IRQ output (60_exceptions.md R280). It holds no state (10_state.md R57). -/
def State.irq (s : State) : Bool :=
  (s.status.done && s.irqEn.getLsbD 0) || (s.status.err && s.irqEn.getLsbD 1) ||
    (s.status.ovr && s.irqEn.getLsbD 2)

/-- The interrupt controller's input the block drives and the level it drives (D36). -/
def State.irqOutput (s : State) : Nat × Bool := (Config.irqLine, s.irq)

/-- A write dropped because a command runs sets STATUS.OVR (10_state.md R53, 45_control.md R253). -/
def State.dropWrite (s : State) : State := { s with status := { s.status with ovr := true } }

end Sys2Proof.Machine
end

