-- ==== Sys2Proof/Machine/Operands.lean ====
section
/-! DEFINITION. The register map (10_state.md R25) and the operands of commands, which are registers
(10_state.md R21, 30_encoding.md R100): names, offsets, reading, and writing with the write rules of
R53 and R54. -/

namespace Sys2Proof.Machine

/-- The registers of a channel descriptor, in their order of offsets (10_state.md R25). -/
inductive ChReg where
  | src
  | param
  | delay
  | bufBase
  | bufLen
  | bufWidth
  | bufPeriod
deriving DecidableEq, Repr

/-- The registers of the CSR window (10_state.md R25). -/
inductive Reg where
  | id
  | cap
  | unitt
  | ctrl
  | status
  | irqEn
  | cmd
  | errCode
  | errInfo0
  | errInfo1
  | encChannels
  | encWidth
  | encRate
  | encLength
  | outBase
  | outLen
  | encSamples
  | encBytes
  | inBase
  | inLen
  | scrBase
  | scrLen
  | decChannels
  | decWidth
  | decRate
  | decPeriod
  | decFrames
  | decDataOff
  | decDataLen
  | evalTime
  | evalLevel
  | evalQuant
  | ch (c : Nat) (r : ChReg)
deriving DecidableEq, Repr

/-- The registers at offsets 0x000 to 0x0F8, one every 8 bytes, in order (10_state.md R25). -/
def fixedRegs : List Reg :=
  [.id, .cap, .unitt, .ctrl, .status, .irqEn, .cmd, .errCode,
   .errInfo0, .errInfo1, .encChannels, .encWidth, .encRate, .encLength, .outBase, .outLen,
   .encSamples, .encBytes, .inBase, .inLen, .scrBase, .scrLen, .decChannels, .decWidth,
   .decRate, .decPeriod, .decFrames, .decDataOff, .decDataLen, .evalTime, .evalLevel, .evalQuant]

/-- The registers of a descriptor, one every 8 bytes; offset +0x38 is reserved (10_state.md R25). -/
def channelRegs : List ChReg := [.src, .param, .delay, .bufBase, .bufLen, .bufWidth, .bufPeriod]

/-- The register at an offset that is a multiple of 8; none where the map lists none (10_state.md R25). -/
def regAt (off : BitVec 12) : Option Reg :=
  let n := off.toNat / 8
  if off.toNat % 8 ≠ 0 then none
  else if n < 32 then fixedRegs[n]?
  else if (n - 32) / 8 < Config.nCh then (channelRegs[(n - 32) % 8]?).map (Reg.ch ((n - 32) / 8))
  else none

/-- The slot of a descriptor's register: its offset within the descriptor over 8 (10_state.md R25). -/
def ChReg.slot : ChReg → Nat
  | .src => 0
  | .param => 1
  | .delay => 2
  | .bufBase => 3
  | .bufLen => 4
  | .bufWidth => 5
  | .bufPeriod => 6

/-- The slot of a register outside the channel file: its offset over 8 (10_state.md R25); for a channel
register, that of its place in the window. -/
def Reg.slot : Reg → Nat
  | .id => 0
  | .cap => 1
  | .unitt => 2
  | .ctrl => 3
  | .status => 4
  | .irqEn => 5
  | .cmd => 6
  | .errCode => 7
  | .errInfo0 => 8
  | .errInfo1 => 9
  | .encChannels => 10
  | .encWidth => 11
  | .encRate => 12
  | .encLength => 13
  | .outBase => 14
  | .outLen => 15
  | .encSamples => 16
  | .encBytes => 17
  | .inBase => 18
  | .inLen => 19
  | .scrBase => 20
  | .scrLen => 21
  | .decChannels => 22
  | .decWidth => 23
  | .decRate => 24
  | .decPeriod => 25
  | .decFrames => 26
  | .decDataOff => 27
  | .decDataLen => 28
  | .evalTime => 29
  | .evalLevel => 30
  | .evalQuant => 31
  | .ch c r => 32 + 8 * c + r.slot

/-- `off(NAME)`, a register's CSR offset (43_encode.md R187). -/
def Reg.offset (r : Reg) : Nat := 8 * r.slot

/-- `off(NAME)` as a register value, for ERR_INFO0 (60_exceptions.md R272). -/
def Reg.offWord (r : Reg) : Word := BitVec.ofNat 64 r.offset

/-- A register of a channel descriptor. -/
def Channel.get (d : Channel) : ChReg → Word
  | .src => d.src
  | .param => d.param
  | .delay => d.delay
  | .bufBase => d.bufBase
  | .bufLen => d.bufLen
  | .bufWidth => d.bufWidth
  | .bufPeriod => d.bufPeriod

/-- A descriptor with one register replaced. -/
def Channel.set (d : Channel) (r : ChReg) (w : Word) : Channel :=
  match r with
  | .src => { d with src := w }
  | .param => { d with param := w }
  | .delay => { d with delay := w }
  | .bufBase => { d with bufBase := w }
  | .bufLen => { d with bufLen := w }
  | .bufWidth => { d with bufWidth := w }
  | .bufPeriod => { d with bufPeriod := w }

/-- Channel c's descriptor; an index outside the file reads as a reset descriptor (reserved offsets
read 0, 10_state.md R24). -/
def State.ch (s : State) (c : Nat) : Channel := s.chan[c]?.getD Channel.reset

/-- One register of channel c replaced; an index outside the file changes nothing (10_state.md R54). -/
def State.setCh (s : State) (c : Nat) (r : ChReg) (w : Word) : State :=
  { s with chan := s.chan.setIfInBounds c ((s.ch c).set r w) }

/-- CAP's WIDTH_MAP: bit w is set iff width w is supported (10_state.md R27). -/
def widthMap : Nat := (Config.widths.map (2 ^ ·)).sum

/-- CAP (10_state.md R27). -/
def capWord : Word :=
  BitVec.ofNat 64 (Config.nCh + 2 ^ 8 * Config.sineLutBits + 2 ^ 16 * Config.levelBits +
    2 ^ 24 * Config.timeBits + 2 ^ 32 * widthMap)

/-- ID (10_state.md R26). -/
def idWord : Word := 0x000000074D435053

/-- The content of a register, `csr[NAME]` (00_scope.md R13); the write-only registers read 0
(10_state.md R54). -/
def regRead (s : State) : Reg → Word
  | .id => idWord
  | .cap => capWord
  | .unitt => BitVec.ofNat 64 Config.unitTime
  | .ctrl => 0
  | .status => statusWord s
  | .irqEn => s.irqEn.zeroExtend 64
  | .cmd => 0
  | .errCode => s.error.code
  | .errInfo0 => s.error.info0
  | .errInfo1 => s.error.info1
  | .encChannels => s.cfg.encChannels
  | .encWidth => s.cfg.encWidth
  | .encRate => s.cfg.encRate
  | .encLength => s.cfg.encLength
  | .outBase => s.cfg.outBase
  | .outLen => s.cfg.outLen
  | .encSamples => s.enc.samples
  | .encBytes => s.enc.bytes
  | .inBase => s.cfg.inBase
  | .inLen => s.cfg.inLen
  | .scrBase => s.cfg.scrBase
  | .scrLen => s.cfg.scrLen
  | .decChannels => s.dec.channels
  | .decWidth => s.dec.width
  | .decRate => s.dec.rate
  | .decPeriod => s.dec.period
  | .decFrames => s.dec.frames
  | .decDataOff => s.dec.dataOff
  | .decDataLen => s.dec.dataLen
  | .evalTime => s.cfg.evalTime
  | .evalLevel => s.eval.level
  | .evalQuant => s.eval.quant
  | .ch c r => (s.ch c).get r

/-- The result registers of the commands, whose value is open while BUSY (70_reset_and_hazards.md R317). -/
def Reg.isResult : Reg → Bool
  | .encSamples => true
  | .encBytes => true
  | .decChannels => true
  | .decWidth => true
  | .decRate => true
  | .decPeriod => true
  | .decFrames => true
  | .decDataOff => true
  | .decDataLen => true
  | .evalLevel => true
  | .evalQuant => true
  | _ => false

/-- The configuration registers (10_state.md R53). -/
def Reg.isConfig : Reg → Bool
  | .encChannels => true
  | .encWidth => true
  | .encRate => true
  | .encLength => true
  | .outBase => true
  | .outLen => true
  | .inBase => true
  | .inLen => true
  | .scrBase => true
  | .scrLen => true
  | .evalTime => true
  | .ch _ _ => true
  | _ => false

/-- A configuration register stores all 64 bits written, with no legalisation (10_state.md R53). -/
def storeConfig (s : State) (r : Reg) (w : Word) : State :=
  match r with
  | .encChannels => { s with cfg := { s.cfg with encChannels := w } }
  | .encWidth => { s with cfg := { s.cfg with encWidth := w } }
  | .encRate => { s with cfg := { s.cfg with encRate := w } }
  | .encLength => { s with cfg := { s.cfg with encLength := w } }
  | .outBase => { s with cfg := { s.cfg with outBase := w } }
  | .outLen => { s with cfg := { s.cfg with outLen := w } }
  | .inBase => { s with cfg := { s.cfg with inBase := w } }
  | .inLen => { s with cfg := { s.cfg with inLen := w } }
  | .scrBase => { s with cfg := { s.cfg with scrBase := w } }
  | .scrLen => { s with cfg := { s.cfg with scrLen := w } }
  | .evalTime => { s with cfg := { s.cfg with evalTime := w } }
  | .ch c q => s.setCh c q w
  | _ => s

/-- A host write to a configuration register: dropped with OVR while a command runs, else stored
(10_state.md R53, 70_reset_and_hazards.md R315). -/
def writeConfig (s : State) (r : Reg) (w : Word) : State :=
  if s.busy then s.dropWrite else storeConfig s r w

/-- A host write to a register other than CMD and CTRL: configuration registers by R53, STATUS by
R29, IRQ_EN by R31, and the read-only registers ignore it (10_state.md R54). -/
def writeReg (s : State) (r : Reg) (w : Word) : State :=
  if r.isConfig then writeConfig s r w
  else
    match r with
    | .status => { s with status := s.status.clear w }
    | .irqEn => { s with irqEn := w.truncate 3 }
    | _ => s

end Sys2Proof.Machine
end

