-- ==== Sys2Proof/Machine/Ops.lean ====
section
/-! DEFINITION. The named operations over memory and registers: reading and writing bytes, DMA
transfers (00_scope.md R13), unspecified regions, recording an error and completing a command
(00_scope.md R14, 60_exceptions.md R276), accepting a command (45_control.md R251), the reset of the
block. -/

namespace Sys2Proof.Machine

/-! ### Memory cells -/

/-- The canonical form of memory: addresses strictly rising and inside the space. An unlisted address
holds no value, so no entry equals what an unlisted address holds. -/
def Memory.wf : Memory → Bool
  | [] => true
  | [c] => decide (c.1 < Config.addrSpace)
  | c :: d :: m => decide (c.1 < d.1) && Memory.wf (d :: m)

/-- The value an address holds, if it is listed. -/
def cellRead : Memory → Nat → Option Byte
  | [], _ => none
  | c :: m, a => if c.1 = a then some c.2 else cellRead m a

/-- Memory with one byte written, in canonical form. -/
def cellWrite : Memory → Nat → Byte → Memory
  | [], a, b => [(a, b)]
  | c :: m, a, b =>
    if a < c.1 then (a, b) :: c :: m
    else if a = c.1 then (a, b) :: m
    else c :: cellWrite m a b

/-- What an unlisted address reads as: the free byte of the latest draw over it, or the byte it held
at power-on (93_implementation_defined.md U2, U3, U24). -/
def unlisted (voids : List Void) (a : Nat) : Byte :=
  match voids.find? (fun v => v.region.has a) with
  | some v => Config.freeByte v.draw a
  | none => Config.powerOnByte a

/-- The byte at an address of DMA memory. -/
def State.readByte (s : State) (a : Nat) : Byte :=
  match cellRead s.mem a with
  | some b => b
  | none => unlisted s.voids a

/-- A byte of DMA memory written. -/
def State.writeByte (s : State) (a : Nat) (b : Byte) : State := { s with mem := cellWrite s.mem a b }

/-- A list of bytes written at rising addresses by the host or another master. -/
def State.writeBytes (s : State) : Nat → List Byte → State
  | _, [] => s
  | a, b :: bs => (s.writeByte a b).writeBytes (a + 1) bs

/-- A region's bytes become unspecified: each a new free byte (45_control.md R263, 44_decode.md R230). -/
def State.forget (s : State) (r : Region) : State :=
  { s with
    mem := s.mem.filter (fun c => !r.has c.1)
    voids := ⟨r, s.draws⟩ :: s.voids
    draws := s.draws + 1 }

/-! ### DMA transfers -/

/-- MemOK (20_memory.md R73). -/
def Platform.memOK (p : Platform) (a : Nat) : Bool := !p.noAnswer.any (fun r => r.has a)

/-- The addresses that are no ordinary memory: devices and the block's own CSR window
(70_reset_and_hazards.md R312). -/
def Platform.deviceRegions (p : Platform) : List Region :=
  match p.csrBase with
  | some b => ⟨b.toNat, 4096⟩ :: p.devices
  | none => p.devices

/-- A region covers a device (20_memory.md R79). -/
def Platform.coversDevice (p : Platform) (r : Region) : Bool := p.deviceRegions.any (fun d => d.overlaps r)

/-- `MemRead(a, n)` (00_scope.md R13): the bytes, or the first address that does not answer. -/
def dmaRead (s : State) : Nat → Nat → Except Nat (List Byte)
  | _, 0 => .ok []
  | a, n + 1 =>
    if s.platform.memOK a then
      match dmaRead s (a + 1) n with
      | .ok bs => .ok (s.readByte a :: bs)
      | .error x => .error x
    else .error a

/-- `MemWrite(a, n, s)` (00_scope.md R13): the state after it, and the first address that does not
answer, if any. The bytes before that address stay written. -/
def dmaWrite (s : State) : Nat → List Byte → State × Option Nat
  | _, [] => (s, none)
  | a, b :: bs => if s.platform.memOK a then dmaWrite (s.writeByte a b) (a + 1) bs else (s, some a)

/-- The addresses at which what a platform answers can change. -/
def Platform.breaks (p : Platform) : List Nat := p.noAnswer.flatMap (fun r => [r.base, r.base + r.len])

/-- `MemOK` is the same at every address of a region, and so is whether the region covers a device
(70_reset_and_hazards.md R312). What a platform answers changes only at its breaks, so these and the
region's first address are enough to compare (`Platform.sameOn_iff`). -/
def Platform.sameOn (p q : Platform) (r : Region) : Bool :=
  (r.base :: (p.breaks ++ q.breaks)).all (fun a => !r.has a || p.memOK a == q.memOK a) &&
    p.coversDevice r == q.coversDevice r

/-- The hazard mark is set when a command accesses a region that covers a device (20_memory.md R79,
70_reset_and_hazards.md R312). The regions are those it accessed, each as the host named it. -/
def State.markRegions (s : State) (rs : List Region) : State :=
  { s with hazard := s.hazard || rs.any s.platform.coversDevice }

/-! ### Errors and completion -/

/-- The error names (60_exceptions.md R271). -/
inductive ErrorCode where
  | malformedHeader
  | unsupportedFormat
  | shortRead
  | unsupportedSampleWidth
  | busError
  | illegalCommand
  | badParameter
deriving DecidableEq, Repr

/-- The code ERRCODE holds (60_exceptions.md R271). -/
def ErrorCode.toWord : ErrorCode → Word
  | .malformedHeader => 1
  | .unsupportedFormat => 2
  | .shortRead => 3
  | .unsupportedSampleWidth => 4
  | .busError => 5
  | .illegalCommand => 6
  | .badParameter => 7

/-- A raised error with its two diagnostic values (00_scope.md R14). -/
structure Raise where
  code : ErrorCode
  info0 : Word
  info1 : Word
deriving DecidableEq, Repr

/-- BAD_PARAMETER at a register (60_exceptions.md R272). -/
def badParameter (r : Reg) (v : Word) : Raise := ⟨.badParameter, r.offWord, v⟩

/-- BUS_ERROR at address x, with the offset its command reports (60_exceptions.md R272). -/
def busError (x offset : Nat) : Raise := ⟨.busError, BitVec.ofNat 64 x, BitVec.ofNat 64 offset⟩

/-- What ERRCODE and ERR_INFO hold after a command ended with e, or without error
(60_exceptions.md R276). -/
def ErrorRecord.of (e : Option Raise) : ErrorRecord :=
  match e with
  | Option.none => ErrorRecord.none
  | Option.some r => ⟨r.code.toWord, r.info0, r.info1⟩

/-- Completion (60_exceptions.md R276), which is also how the block takes an error (00_scope.md R14,
60_exceptions.md R275, R282): the record is written, BUSY falls, DONE rises, ERR tells whether there
was an error, OVR stays. Nothing is saved and no mode changes, and there is no return from it but the
host's W1C write, `StatusBits.clear` (60_exceptions.md R283). -/
def complete (e : Option Raise) (s : State) : State :=
  { s with
    phase := .idle
    status := ⟨true, e.isSome, s.status.ovr⟩
    error := ErrorRecord.of e }

/-- ENCODE's results written (43_encode.md R199). -/
def State.setEnc (s : State) (r : EncResults) : State := { s with enc := r }

/-- DECODE's results written (44_decode.md R229). -/
def State.setDec (s : State) (r : DecResults) : State := { s with dec := r }

/-- GEN_EVAL's results written (45_control.md R256). -/
def State.setEval (s : State) (r : EvalResults) : State := { s with eval := r }

/-! ### Acceptance and reset -/

/-- The result registers of a command word cleared (45_control.md R251). -/
def clearResults (w : Word) (s : State) : State :=
  match decodeCmd w with
  | .ok .encode => s.setEnc EncResults.cleared
  | .ok .decode => s.setDec DecResults.cleared
  | .ok (.genEval _ _) => s.setEval EvalResults.cleared
  | _ => s

/-- `accept(w)` (45_control.md R251). -/
def accept (w : Word) (s : State) : State :=
  { clearResults w s with
    error := ErrorRecord.none
    status := ⟨false, false, s.status.ovr⟩
    phase := .running w }

/-- Every CSR and the phase at their reset values (70_reset_and_hazards.md R301, R302). -/
def resetBlock (s : State) : State :=
  { s with
    phase := .idle
    status := StatusBits.reset
    irqEn := 0
    error := ErrorRecord.none
    cfg := ConfigRegs.reset
    chan := Vector.replicate 8 Channel.reset
    enc := EncResults.cleared
    dec := DecResults.cleared
    eval := EvalResults.cleared }

end Sys2Proof.Machine
end

