-- ==== Sys2Proof/Machine/Sine.lean ====
section
/-! DEFINITION. The sine table (10_state.md R55, 41_generators.md R151). Entries 0 to 1024, the first
quarter, are listed; the rest follow by the identities of R151. The listed integers were computed
outside Lean by exact arithmetic from the definition `round(UNIT_LEVEL · sin(2πk/4096))`: DEDUCED,
log entry 15. -/

namespace Sys2Proof.Machine

/-- Entries 0 to 63 of SINE_LUT (R151). -/
def sineBlock0 : List Nat := [
  0, 14148469955268187, 28296906617819881, 42445276695016930, 56593546894377865,
  70741683923656236, 84889654490918959, 99037425304624648, 113184963073701958, 127332234507627921,
  141479206316506280, 155625845211145826, 169772117903138727, 183917991104938864, 198063431529940156,
  212208405892554887, 226352880908292031, 240496823293835575, 254640199767122833, 268782977047422769,
  282925121855414304, 297066600913264627, 311207380944707501, 325347428675121569, 339486710831608646,
  353625194143072016, 367762845340294724, 381899631156017861, 396035518325018842, 410170473584189686,
  424304463672615286, 438437455331651673, 452569415305004282, 466700310338806201, 480830107181696426,
  494958772584898100, 509086273302296756, 523212576090518541, 537337647709008450, 551461454920108535,
  565583964489136123, 579705143184462018, 593824957777588697, 607943375043228503, 622060361759381824,
  636175884707415271, 650289910672139841, 664402406441889078, 678513338808597222, 692622674567877354,
  706730380519099522, 720836423465468874, 734940770214103767, 749043387576113874, 763144242366678286,
  777243301405123589, 791340531515001953, 805435899524169189, 819529372264862813, 833620916573780092,
  847710499292156076, 861798087265841629, 875883647345381443, 889967146386092039]

/-- Entries 64 to 127 of SINE_LUT (R151). -/
def sineBlock1 : List Nat := [
  904048551248139761, 918127828796618759, 932204945901628958, 946279869438354014, 960352566287139261,
  974423003333569644, 988491147468547643, 1002556965588371180, 1016620424594811515, 1030681491395191128,
  1044740132902461593, 1058796316035281432, 1072850007718093961, 1086901174881205117, 1100949784460861275,
  1114995803399327054, 1129039198644963098, 1143079937152303857, 1157117985882135341, 1171153311801572867,
  1185185881884138787, 1199215663109840205, 1213242622465246674, 1227266726943567879, 1241287943544731307,
  1255306239275459902, 1269321581149349693, 1283333936186947424, 1297343271415828151, 1311349553870672832,
  1325352750593345898, 1339352828632972804, 1353349755046017570, 1367343496896360296, 1381334021255374666,
  1395321295202005433, 1409305285822845881, 1423285960212215282, 1437263285472236316, 1451237228712912490,
  1465207757052205531, 1479174837616112755, 1493138437538744429, 1507098523962401105, 1521055064037650937,
  1535008024923406980, 1548957373787004466, 1562903077804278066, 1576845104159639125, 1590783420046152882,
  1604717992665615669, 1618648789228632086, 1632575776954692158, 1646498923072248471, 1660418194818793289,
  1674333559440935644, 1688244984194478407, 1702152436344495345, 1716055883165408140, 1729955291941063404,
  1743850629964809658, 1757741864539574294, 1771628962977940520, 1785511892602224268]

/-- Entries 128 to 191 of SINE_LUT (R151). -/
def sineBlock2 : List Nat := [
  1799390620744551094, 1813265114746933048, 1827135341961345519, 1841001269749804060, 1854862865484441189,
  1868720096547583166, 1882572930331826744, 1896421334240115897, 1910265275685818526, 1924104722092803138,
  1937939640895515498, 1951769999539055266, 1965595765479252591, 1979416906182744701, 1993233389127052451,
  2007045181800656853, 2020852251703075580, 2034654566344939442, 2048452093248068836, 2062244799945550169,
  2076032653981812260, 2089815622912702708, 2103593674305564236, 2117366775739311009, 2131134894804504925,
  2144897999103431876, 2158656056250177983, 2172409033870705804, 2186156899602930513, 2199899621096796051,
  2213637166014351248, 2227369502029825918, 2241096596829706927, 2254818418112814225, 2268534933590376857,
  2282246110986108942, 2295951918036285620, 2309652322489818974, 2323347292108333917, 2337036794666244056,
  2350720797950827518, 2364399269762302753, 2378072177913904298, 2391739490231958524, 2405401174555959335,
  2419057198738643851, 2432707530646068050, 2446352138157682384, 2459990989166407361, 2473624051578709097,
  2487251293314674833, 2500872682308088426, 2514488186506505800, 2528097773871330371, 2541701412377888434,
  2555299070015504524, 2568890714787576739, 2582476314711652029, 2596055837819501454, 2609629252157195413,
  2623196525785178829, 2636757626778346308, 2650312523226117262, 2663861183232511000]

/-- Entries 192 to 255 of SINE_LUT (R151). -/
def sineBlock3 : List Nat := [
  2677403574916221777, 2690939666410693818, 2704469425864196302, 2717992821439898312, 2731509821315943749,
  2745020393685526215, 2758524506756963855, 2772022128753774165, 2785513227914748769, 2798997772494028152,
  2812475730761176364, 2825947071001255682, 2839411761514901241, 2852869770618395627, 2866321066643743424,
  2879765617938745743, 2893203392867074694, 2906634359808347832, 2920058487158202565, 2933475743328370520,
  2946886096746751871, 2960289515857489637, 2973685969121043930, 2987075425014266177, 3000457852030473289,
  3013833218679521806, 3027201493487881993, 3040562644998711903, 3053916641771931394, 3067263452384296114,
  3080603045429471440, 3093935389518106384, 3107260453277907452, 3120578205353712466, 3133888614407564349,
  3147191649118784861, 3160487278184048305, 3173775470317455184, 3187056194250605819, 3200329418732673928,
  3213595112530480162, 3226853244428565599, 3240103783229265199, 3253346697752781211, 3266581956837256547,
  3279809529338848106, 3293029384131800059, 3306241490108517090, 3319445816179637597, 3332642331274106848,
  3345831004339250091, 3359011804340845630, 3372184700263197845, 3385349661109210181, 3398506655900458080,
  3411655653677261885, 3424796623498759683, 3437929534442980117, 3451054355606915146, 3464171056106592763,
  3477279605077149670, 3490379971672903904, 3503472125067427419, 3516556034453618626]

/-- Entries 256 to 319 of SINE_LUT (R151). -/
def sineBlock4 : List Nat := [
  3529631669043774883, 3542698998069664944, 3555757990782601356, 3568808616453512817, 3581850844373016483,
  3594884643851490230, 3607909984219144870, 3620926834826096319, 3633935165042437722, 3646934944258311524,
  3659926141883981501, 3672908727349904741, 3685882670106803573, 3698847939625737457, 3711804505398174820,
  3724752336936064845, 3737691403771909211, 3750621675458833790, 3763543121570660287, 3776455711701977839,
  3789359415468214560, 3802254202505709040, 3815140042471781792, 3828016905044806653, 3840884759924282133,
  3853743576830902715, 3866593325506630105, 3879433975714764432, 3892265497240015400, 3905087859888573382,
  3917901033488180477, 3930704987888201500, 3943499692959694934, 3956285118595483828, 3969061234710226637,
  3981828011240488018, 3994585418144809575, 4007333425403780544, 4020072003020108437, 4032801121018689624,
  4045520749446679871, 4058230858373564818, 4070931417891230414, 4083622398114033287, 4096303769178871072,
  4108975501245252683, 4121637564495368526, 4134289929134160667, 4146932565389392941, 4159565443511721008,
  4172188533774762359, 4184801806475166263, 4197405231932683661, 4209998780490237011, 4222582422513990066,
  4235156128393417613, 4247719868541375146, 4260273613394168488, 4272817333411623356, 4285350999077154873,
  4297874580897837025, 4310388049404472057, 4322891375151659820, 4335384528717867057]

/-- Entries 320 to 383 of SINE_LUT (R151). -/
def sineBlock5 : List Nat := [
  4347867480705496636, 4360340201740956724, 4372802662474729908, 4385254833581442256, 4397696685759932321,
  4410128189733320091, 4422549316249075881, 4434960036079089168, 4447360320019737361, 4459750138891954529,
  4472129463541300057, 4484498264838027249, 4496856513677151875, 4509204180978520656, 4521541237686879696,
  4533867654771942847, 4546183403228460022, 4558488454076285450, 4570782778360445865, 4583066347151208640,
  4595339131544149867, 4607601102660222363, 4619852231645823634, 4632092489672863764, 4644321847938833253,
  4656540277666870792, 4668747750105830978, 4680944236530351966, 4693129708240923065, 4705304136563952270,
  4717467492851833735, 4729619748483015179, 4741760874862065242, 4753890843419740766, 4766009625613054028,
  4778117192925339898, 4790213516866322945, 4802298568972184478, 4814372320805629522, 4826434743955953734,
  4838485810039110258, 4850525490697776513, 4862553757601420922, 4874570582446369576, 4886575936955872836,
  4898569792880171869, 4910552121996565125, 4922522896109474746, 4934482087050512912, 4946429666678548128,
  4958365606879771439, 4970289879567762584, 4982202456683556089, 4994103310195707292, 5005992412100358302,
  5017869734421303894, 5029735249210057345, 5041588928545916191, 5053430744536027937, 5065260669315455684,
  5077078675047243699, 5088884733922482921, 5100678818160376397, 5112460900008304652]

/-- Entries 384 to 447 of SINE_LUT (R151). -/
def sineBlock6 : List Nat := [
  5124230951741890994, 5135988945665066750, 5147734854110136444, 5159468649437842893, 5171190304037432251,
  5182899790326718980, 5194597080752150747, 5206282147788873270, 5217954963940795077, 5229615501740652214,
  5241263733750072874, 5252899632559641964, 5264523170788965602, 5276134321086735545, 5287733056130793550,
  5299319348628195664, 5310893171315276450, 5322454496957713137, 5334003298350589709, 5345539548318460919,
  5357063219715416235, 5368574285425143716, 5380072718360993823, 5391558491466043153, 5403031577713158109,
  5414491950105058494, 5425939581674381041, 5437374445483742872, 5448796514625804878, 5460205762223335040,
  5471602161429271670, 5482985685426786590, 5494356307429348227, 5505714000680784652, 5517058738455346533,
  5528390494057770029, 5539709240823339603, 5551014952117950768, 5562307601338172760, 5573587161911311135,
  5584853607295470304, 5596106910979615981, 5607347046483637572, 5618573987358410481, 5629787707185858351,
  5640988179579015226, 5652175378182087640, 5663349276670516641, 5674509848751039729, 5685657068161752731,
  5696790908672171593, 5707911344083294110, 5719018348227661565, 5730111894969420315, 5741191958204383280,
  5752258511860091378, 5763311529895874870, 5774350986302914638, 5785376855104303387, 5796389110355106771,
  5807387726142424443, 5818372676585451030, 5829343935835537037, 5840301478076249666]

/-- Entries 448 to 511 of SINE_LUT (R151). -/
def sineBlock7 : List Nat := [
  5851245277523433567, 5862175308425271514, 5873091545062344993, 5883993961747694732, 5894882532826881138,
  5905757232678044667, 5916618035711966115, 5927464916372126832, 5938297849134768855, 5949116808508954976,
  5959921769036628717, 5970712705292674237, 5981489591884976164, 5992252403454479339, 6003001114675248494,
  6013735700254527840, 6024456134932800590, 6035162393483848394, 6045854450714810696, 6056532281466244021,
  6067195860612181172, 6077845163060190358, 6088480163751434238, 6099100837660728884, 6109707159796602671,
  6120299105201355083, 6130876648951115441, 6141439766155901552, 6151988431959678277, 6162522621540416017,
  6173042310110149128, 6183547472915034242, 6194038085235408522, 6204514122385847824, 6214975559715224788,
  6225422372606766844, 6235854536478114135, 6246272026781377365, 6256674819003195560, 6267062888664793753,
  6277436211322040582, 6287794762565505811, 6298138518020517768, 6308467453347220699, 6318781544240632047,
  6329080766430699635, 6339365095682358787, 6349634507795589345, 6359888978605472621, 6370128483982248257,
  6380352999831371004, 6390562502093567420, 6400756966744892484, 6410936369796786124, 6421100687296129667,
  6431249895325302204, 6441383970002236867, 6451502887480477029, 6461606623949232413, 6471695155633435128,
  6481768458793795607, 6491826509726858469, 6501869284765058302, 6511896760276775346]

/-- Entries 512 to 575 of SINE_LUT (R151). -/
def sineBlock8 : List Nat := [
  6521908912666391105, 6531905718374343873, 6541887153877184165, 6551853195687630073, 6561803820354622537,
  6571739004463380522, 6581658724635456121, 6591562957528789560, 6601451679837764132, 6611324868293261029,
  6621182499662714104, 6631024550750164536, 6640850998396315410, 6650661819478586219, 6660456990911167267,
  6670236489645073998, 6680000292668201229, 6689748377005377299, 6699480719718418137, 6709197297906181231,
  6718898088704619520, 6728583069286835198, 6738252216863133421, 6747905508681075941, 6757542922025534638,
  6767164434218744975, 6776770022620359361, 6786359664627500423, 6795933337674814196, 6805491019234523220,
  6815032686816479548, 6824558317968217672, 6834067890275007352, 6843561381359906361, 6853038768883813143,
  6862500030545519374, 6871945144081762442, 6881374087267277835, 6890786837914851437, 6900183373875371738,
  6909563673037881955, 6918927713329632056, 6928275472716130704, 6937606929201197106, 6946922060827012769,
  6956220845674173171, 6965503261861739340, 6974769287547289341, 6984018900926969672, 6993252080235546574,
  7002468803746457244, 7011669049771860960, 7020852796662690117, 7030020022808701165, 7039170706638525464,
  7048304826619720040, 7057422361258818258, 7066523289101380391, 7075607588732044113, 7084675238774574883,
  7093726217891916251, 7102760504786240063, 7111778078198996580, 7120778916910964499]

/-- Entries 576 to 639 of SINE_LUT (R151). -/
def sineBlock9 : List Nat := [
  7129762999742300883, 7138730305552591002, 7147680813240898078, 7156614501745812934, 7165531350045503559,
  7174431337157764569, 7183314442140066586, 7192180644089605511, 7201029922143351716, 7209862255478099134,
  7218677623310514259, 7227476004897185050, 7236257379534669744, 7245021726559545572, 7253769025348457381,
  7262499255318166166, 7271212395925597500, 7279908426667889880, 7288587327082442964, 7297249076746965728,
  7305893655279524521, 7314521042338591021, 7323131217623090107, 7331724160872447623, 7340299851866638058,
  7348858270426232124, 7357399396412444240, 7365923209727179920, 7374429690313083067, 7382918818153583168,
  7391390573272942398, 7399844935736302621, 7408281885649732302, 7416701403160273318, 7425103468455987673,
  7433488061766004119, 7441855163360564677, 7450204753551071066, 7458536812690131029, 7466851321171604567,
  7475148259430650072, 7483427607943770369, 7491689347228858654, 7499933457845244335, 7508159920393738782,
  7516368715516680976, 7524559823897983051, 7532733226263175759, 7540888903379453814, 7549026836055721154,
  7557147005142636099, 7565249391532656409, 7573333976160084250, 7581400740001111054, 7589449664073862283,
  7597480729438442100, 7605493917196977931, 7613489208493664936, 7621466584514810382, 7629426026488877904,
  7637367515686531688, 7645291033420680532, 7653196561046521828, 7661084079961585428]

/-- Entries 640 to 703 of SINE_LUT (R151). -/
def sineBlock10 : List Nat := [
  7668953571605777420, 7676805017461423803, 7684638399053314059, 7692453697948744628, 7700250895757562280,
  7708029974132207392, 7715790914767757118, 7723533699401968467, 7731258309815321271, 7738964727831061059,
  7746652935315241829, 7754322914176768721, 7761974646367440581, 7769608113881992437, 7777223298758137864,
  7784820183076611250, 7792398748961209965, 7799958978578836420, 7807500854139540037, 7815024357896559104,
  7822529472146362540, 7830016179228691550, 7837484461526601181, 7844934301466501779, 7852365681518200340,
  7859778584194941758, 7867172992053449978, 7874548887693969036, 7881906253760304007, 7889245072939861844,
  7896565327963692116, 7903867001606527642, 7911150076686825027, 7918414536066805090, 7925660362652493191,
  7932887539393759454, 7940096049284358890, 7947285875361971412, 7954457000708241748, 7961609408448819257,
  7968743081753397630, 7975858003835754494, 7982954157953790916, 7990031527409570795, 7997090095549360155,
  8004129845763666332, 8011150761487277058, 8018152826199299442, 8025136023423198845, 8032100336726837648,
  8039045749722513921, 8045972246066999986, 8052879809461580871, 8059768423652092665, 8066638072428960762,
  8073488739627238009, 8080320409126642741, 8087133064851596712, 8093926690771262925, 8100701270899583353,
  8107456789295316554, 8114193230062075187, 8120910577348363414, 8127608815347614198]

/-- Entries 704 to 767 of SINE_LUT (R151). -/
def sineBlock11 : List Nat := [
  8134287928298226504, 8140947900483602382, 8147588716232183953, 8154210359917490282, 8160812815958154152,
  8167396068817958728, 8173960103005874113, 8180504903076093803, 8187030453628071029, 8193536739306555000,
  8200023744801627032, 8206491454848736575, 8212939854228737132, 8219368927767922071, 8225778660338060330,
  8232169036856432017, 8238540042285863897, 8244891661634764781, 8251223879957160798, 8257536682352730567,
  8263830053966840259, 8270103979990578551, 8276358445660791471, 8282593436260117140, 8288808937117020402,
  8295004933605827346, 8301181411146759724, 8307338355205969259, 8313475751295571842, 8319593584973681626,
  8325691841844445006, 8331770507558074496, 8337829567810882498, 8343869008345314954, 8349888814949984900,
  8355888973459705904, 8361869469755525400, 8367830289764757913, 8373771419461018167, 8379692844864254097,
  8385594552040779741, 8391476527103308032, 8397338756210983470, 8403181225569414697, 8409003921430706951,
  8414806830093494421, 8420589937902972485, 8426353231250929841, 8432096696575780528, 8437820320362595841,
  8443524089143136130, 8449207989495882490, 8454872008046068350, 8460516131465710938, 8466140346473642647,
  8471744639835542285, 8477328998363966219, 8482893408918379403, 8488437858405186303, 8493962333777761702,
  8499466822036481407, 8504951310228752832, 8510415785449045480, 8515860234838921309]

/-- Entries 768 to 831 of SINE_LUT (R151). -/
def sineBlock12 : List Nat := [
  8521284645587064994, 8526689004929314065, 8532073300148688951, 8537437518575422897, 8542781647586991783,
  8548105674608143822, 8553409587110929152, 8558693372614729317, 8563957018686286632, 8569200512939733444,
  8574423843036621272, 8579626996685949845, 8584809961644196021, 8589972725715342598, 8595115276750907015,
  8600237602649969933, 8605339691359203715, 8610421530872900786, 8615483109233001883, 8620524414529124197,
  8625545434898589394, 8630546158526451535, 8635526573645524871, 8640486668536411539, 8645426431527529134,
  8650345850995138175, 8655244915363369459, 8660123613104251296, 8664981932737736638, 8669819862831730093,
  8674637392002114823, 8679434508912779336, 8684211202275644158, 8688967460850688395, 8693703273445976185,
  8698418628917683029, 8703113516170122017, 8707787924155769935, 8712441841875293264, 8717075258377574059,
  8721688162759735720, 8726280544167168645, 8730852391793555778, 8735403694880898031, 8739934442719539600,
  8744444624648193167, 8748934230053964990, 8753403248372379868, 8757851669087406009, 8762279481731479770,
  8766686675885530290, 8771073241179004006, 8775439167289889056, 8779784443944739571, 8784109060918699844,
  8788413008035528394, 8792696275167621911, 8796958852236039084, 8801200729210524325, 8805421896109531362,
  8809622343000246733, 8813802059998613158, 8817961037269352795, 8822099265025990384]

/-- Entries 832 to 895 of SINE_LUT (R151). -/
def sineBlock13 : List Nat := [
  8826216733530876277, 8830313433095209351, 8834389354079059804, 8838444486891391844, 8842478821990086252,
  8846492349881962841, 8850485061122802789, 8854456946317370865, 8858407996119437538, 8862338201231800968,
  8866247552406308882, 8870136040443880339, 8874003656194527372, 8877850390557376523, 8881676234480690257,
  8885481178961888261, 8889265215047568627, 8893028333833528922, 8896770526464787140, 8900491784135602537,
  8904192098089496356, 8907871459619272426, 8911529860067037656, 8915167290824222405, 8918783743331600738,
  8922379209079310571, 8925953679606873691, 8929507146503215667, 8933039601406685639, 8936551036005075999,
  8940041442035641946, 8943510811285120929, 8946959135589751976, 8950386406835294905, 8953792616957049412,
  8957177757939874055, 8960541821818205109, 8963884800676075313, 8967206686647132495, 8970507471914658084,
  8973787148711585502, 8977045709320518442, 8980283146073749026, 8983499451353275850, 8986694617590821908,
  8989868637267852403, 8993021502915592437, 8996153207115044585, 8999263742497006355, 9002353101742087529,
  9005421277580727381, 9008468262793211790, 9011494050209690223, 9014498632710192610, 9017482003224646097,
  9020444154732891680, 9023385080264700728, 9026304772899791382, 9029203225767844841, 9032080432048521527,
  9034936384971477135, 9037771077816378562, 9040584503912919724, 9043376656640837249]

/-- Entries 896 to 959 of SINE_LUT (R151). -/
def sineBlock14 : List Nat := [
  9046147529429926058, 9048897115760054822, 9051625409161181307, 9054332403213367597, 9057018091546795202,
  9059682467841780046, 9062325525828787339, 9064947259288446327, 9067547662051564932, 9070126727999144262,
  9072684451062393014, 9075220825222741755, 9077735844511857082, 9080229503011655665, 9082701794854318176,
  9085152714222303097, 9087582255348360405, 9089990412515545145, 9092377180057230885, 9094742552357123046,
  9097086523849272121, 9099409089018086769, 9101710242398346799, 9103989978575216023, 9106248292184255004,
  9108485177911433675, 9110700630493143845, 9112894644716211586, 9115067215417909496, 9117218337485968854,
  9119348005858591642, 9121456215524462462, 9123542961522760325, 9125608238943170326, 9127652042925895196,
  9129674368661666740, 9131675211391757154, 9133654566407990219, 9135612429052752384, 9137548794719003724,
  9139463658850288781, 9141357016940747285, 9143228864535124759, 9145079197228782998, 9146908010667710441,
  9148715300548532409, 9150501062618521235, 9152265292675606271, 9154007986568383774, 9155729140196126677,
  9157428749508794237, 9159106810507041566, 9160763319242229040, 9162398271816431594, 9164011664382447889,
  9165603493143809372, 9167173754354789200, 9168722444320411064, 9170249559396457878, 9171755095989480353,
  9173239050556805458, 9174701419606544751, 9176142199697602598, 9177561387439684272]

/-- Entries 960 to 1023 of SINE_LUT (R151). -/
def sineBlock15 : List Nat := [
  9178958979493303927, 9180334972569792460, 9181689363431305245, 9183022148890829756, 9184333325812193065,
  9185622891110069222, 9186890841749986514, 9188137174748334605, 9189361887172371560, 9190564976140230741,
  9191746438820927595, 9192906272434366308, 9194044474251346353, 9195161041593568908, 9196255971833643161,
  9197329262395092491, 9198380910752360532, 9199410914430817112, 9200419271006764083, 9201405978107441017,
  9202371033411030796, 9203314434646665068, 9204236179594429597, 9205136266085369485, 9206014692001494273,
  9206871455275782927, 9207706553892188705, 9208519985885643892, 9209311749342064436, 9210081842398354441,
  9210830263242410558, 9211557010113126246, 9212262081300395918, 9212945475145118962, 9213607190039203649,
  9214247224425570914, 9214865576798158021, 9215462245701922106, 9216037229732843604, 9216590527537929548,
  9217122137815216756, 9217632059313774894, 9218120290833709421, 9218586831226164407, 9219031679393325244,
  9219454834288421224, 9219856294915728003, 9220236060330569946, 9220594129639322348, 9220930501999413536,
  9221245176619326857, 9221538152758602531, 9221809429727839405, 9222059006888696563, 9222286883653894840,
  9222493059487218193, 9222677533903514973, 9222840306468699057, 9222981376799750876, 9223100744564718315,
  9223198409482717493, 9223274371323933422, 9223328629909620554, 9223361185112103194]

/-- Entries 1024 to 1024 of SINE_LUT (R151). -/
def sineBlock16 : List Nat := [
  9223372036854775807]


/-- The first quarter in blocks of 64 entries. -/
def sineBlocks : List (List Nat) := [
  sineBlock0,
  sineBlock1,
  sineBlock2,
  sineBlock3,
  sineBlock4,
  sineBlock5,
  sineBlock6,
  sineBlock7,
  sineBlock8,
  sineBlock9,
  sineBlock10,
  sineBlock11,
  sineBlock12,
  sineBlock13,
  sineBlock14,
  sineBlock15,
  sineBlock16]

/-- Entry k of the first quarter, 0 ≤ k ≤ 1024. -/
def sineQuarter (k : Nat) : Nat := (sineBlocks.getD (k / 64) []).getD (k % 64) 0

/-- Entry k of the first half, 0 ≤ k ≤ 2048: `SINE_LUT[2^(L−1) − k] = SINE_LUT[k]` (R151). -/
def sineHalf (k : Nat) : Nat := if k ≤ 1024 then sineQuarter k else sineQuarter (2048 - k)

/-- SINE_LUT[k] for 0 ≤ k < 4096: `SINE_LUT[k + 2^(L−1)] = −SINE_LUT[k]` (R151). -/
def sineLut (k : Nat) : Int := if k < 2048 then (sineHalf k : Int) else -(sineHalf (k - 2048) : Int)

end Sys2Proof.Machine
end

