-- ==== Sys2Proof/Machine/Generators.lean ====
section
/-! DEFINITION. The level functions of the source kinds, the channel delay and the channel check
(41_generators.md, 42_pcm_buffer.md). -/

namespace Sys2Proof.Machine

/-- The source kinds (10_state.md R47). -/
inductive SourceKind where
  | none
  | sine
  | pulse
  | square
  | rampUp
  | rampDown
  | buffer
deriving DecidableEq, Repr

/-- The code of a source kind in CH_SRC (10_state.md R47). -/
def SourceKind.code : SourceKind → Word
  | .none => 0
  | .sine => 1
  | .pulse => 2
  | .square => 3
  | .rampUp => 4
  | .rampDown => 5
  | .buffer => 6

/-- The source kind of a CH_SRC value; all 64 bits are compared and the rest are reserved
(10_state.md R47). -/
def kindOf (w : Word) : Option SourceKind :=
  if w = 0 then some .none
  else if w = 1 then some .sine
  else if w = 2 then some .pulse
  else if w = 3 then some .square
  else if w = 4 then some .rampUp
  else if w = 5 then some .rampDown
  else if w = 6 then some .buffer
  else Option.none

/-- SINE with period P at source time τ (41_generators.md R152). -/
def sineLevel (P τ : Int) : Int :=
  let ph := emod τ P
  let k := fdiv (ph * 2 ^ Config.sineLutBits) P
  sineLut k.toNat

/-- PULSE of width Wd (41_generators.md R155). -/
def pulseLevel (Wd τ : Int) : Int := if 0 ≤ τ ∧ τ < Wd then Config.unitLevel else 0

/-- SQUARE with period P (41_generators.md R158). -/
def squareLevel (P τ : Int) : Int :=
  if 2 * emod τ P < P then Config.unitLevel else -Config.unitLevel

/-- RAMP_UP of duration D (41_generators.md R161). -/
def rampUpLevel (D τ : Int) : Int :=
  if τ ≤ 0 then 0
  else if D ≤ τ then Config.unitLevel
  else fdiv (Config.unitLevel * τ) D

/-- RAMP_DOWN of duration D (41_generators.md R164). -/
def rampDownLevel (D τ : Int) : Int :=
  if τ ≤ 0 then Config.unitLevel
  else if D ≤ τ then 0
  else Config.unitLevel - fdiv (Config.unitLevel * τ) D

/-- The sample of a buffer selected at τ: its address, or none outside the buffer
(42_pcm_buffer.md R172). -/
def bufferSample (d : Channel) (τ : Int) : Option Nat :=
  let n := d.bufLen.toNat / d.bufWidth.toNat
  let idx := fdiv τ (s64 d.bufPeriod)
  if 0 ≤ idx ∧ idx < n then some (d.bufBase.toNat + idx.toNat * d.bufWidth.toNat) else Option.none

/-- BUFFER (42_pcm_buffer.md R172): the dequantised sample, 0 outside the buffer, or the address of the
read that did not answer (R175). -/
def bufferLevel (s : State) (d : Channel) (τ : Int) : Except Nat Int :=
  match bufferSample d τ with
  | some a =>
    match dmaRead s a d.bufWidth.toNat with
    | .ok bs => .ok (dequantise bs d.bufWidth.toNat)
    | .error x => .error x
  | Option.none => .ok 0

/-- `src_level(c, τ)` of a descriptor (41_generators.md R150 to R166, 42_pcm_buffer.md R172). A
reserved kind never gets here (R149); its level is 0. -/
def srcLevel (s : State) (d : Channel) (τ : Int) : Except Nat Int :=
  match kindOf d.src with
  | some .none => .ok 0
  | some .sine => .ok (sineLevel (s64 d.param) τ)
  | some .pulse => .ok (pulseLevel (s64 d.param) τ)
  | some .square => .ok (squareLevel (s64 d.param) τ)
  | some .rampUp => .ok (rampUpLevel (s64 d.param) τ)
  | some .rampDown => .ok (rampDownLevel (s64 d.param) τ)
  | some .buffer => bufferLevel s d τ
  | Option.none => .ok 0

/-- The source time of a channel at time t: the delay subtraction, the block's one wrap
(41_generators.md R147). -/
def sourceTime (d : Channel) (t : Int) : Int := s64 (u64 (t - s64 d.delay))

/-- `chan_level(c, t)` (41_generators.md R147). -/
def chanLevel (s : State) (c : Nat) (t : Int) : Except Nat Int :=
  srcLevel s (s.ch c) (sourceTime (s.ch c) t)

/-- A channel's buffer region (10_state.md R50). -/
def Channel.bufRegion (d : Channel) : Region := ⟨d.bufBase.toNat, d.bufLen.toNat⟩

/-- Evaluating the channel at time t reads its buffer: it is a BUFFER channel and the time falls inside
(42_pcm_buffer.md R174 (e), R175). -/
def Channel.readsAt (d : Channel) (t : Int) : Bool :=
  kindOf d.src == some .buffer && (bufferSample d (sourceTime d t)).isSome

/-- `check_channel(c)` (41_generators.md R148, R149): the first check that fails. -/
def checkChannel (c : Nat) (d : Channel) : Option Raise :=
  match kindOf d.src with
  | Option.none => some (badParameter (.ch c .src) d.src)
  | some .none => Option.none
  | some .sine => if s64 d.param < 1 then some (badParameter (.ch c .param) d.param) else Option.none
  | some .pulse => if s64 d.param < 0 then some (badParameter (.ch c .param) d.param) else Option.none
  | some .square => if s64 d.param < 1 then some (badParameter (.ch c .param) d.param) else Option.none
  | some .rampUp => if s64 d.param < 1 then some (badParameter (.ch c .param) d.param) else Option.none
  | some .rampDown => if s64 d.param < 1 then some (badParameter (.ch c .param) d.param) else Option.none
  | some .buffer =>
    if d.bufWidth.toNat ∉ Config.widths then some (badParameter (.ch c .bufWidth) d.bufWidth)
    else if s64 d.bufPeriod < 1 then some (badParameter (.ch c .bufPeriod) d.bufPeriod)
    else if !d.bufRegion.fits then some (badParameter (.ch c .bufLen) d.bufLen)
    else Option.none

end Sys2Proof.Machine
end

