-- ==== Sys2Proof/Machine/WavEncode.lean ====
section
/-! DEFINITION. ENCODE (43_encode.md): parameters, checks, header, interleaver, and the meaning. -/

namespace Sys2Proof.Machine

/-- ENCODE's operands and the values derived from them (43_encode.md R186, R188). -/
structure EncodeParams where
  width : Nat
  channels : Nat
  rate : Nat
  length : Nat
  outBase : Nat
deriving DecidableEq, Repr

/-- The operands read from the registers. A negative length has no sample count and never passes the
checks; it is read as 0 here. -/
def encodeParams (s : State) : EncodeParams where
  width := s.cfg.encWidth.toNat
  channels := s.cfg.encChannels.toNat
  rate := s.cfg.encRate.toNat
  length := (s64 s.cfg.encLength).toNat
  outBase := s.cfg.outBase.toNat

/-- P, the sample period (43_encode.md R188). -/
def EncodeParams.period (p : EncodeParams) : Nat := samplePeriod p.rate

/-- N, the sample count (43_encode.md R188). -/
def EncodeParams.samples (p : EncodeParams) : Nat := sampleCount p.length p.period

/-- dataLen (43_encode.md R188). -/
def EncodeParams.dataLen (p : EncodeParams) : Nat := p.samples * p.channels * p.width

/-- The stream's length (43_encode.md R188). -/
def EncodeParams.total (p : EncodeParams) : Nat := 44 + p.dataLen

/-- The output bytes of the stream, `[OUT_BASE, OUT_BASE + total)` (43_encode.md R189). -/
def EncodeParams.output (p : EncodeParams) : Region := ⟨p.outBase, p.total⟩

/-- The output region as the host names it (10_state.md R39). -/
def outRegion (s : State) : Region := ⟨s.cfg.outBase.toNat, s.cfg.outLen.toNat⟩

/-- The buffer regions of the BUFFER channels below C (20_memory.md R72). -/
def bufferRegions (s : State) (C : Nat) : List Region :=
  ((List.range (min C Config.nCh)).filter (fun c => kindOf (s.ch c).src == some .buffer)).map
    (fun c => (s.ch c).bufRegion)

/-- The check of channels 0 … C−1 in order (43_encode.md R187, 60_exceptions.md R278). -/
def firstBadChannel (s : State) (C : Nat) : Option Raise :=
  (List.range C).findSome? (fun c => checkChannel c (s.ch c))

/-- The first BUFFER channel below C whose region overlaps the output (43_encode.md R187). -/
def firstOverlap (s : State) (C : Nat) (out : Region) : Option Raise :=
  (List.range C).findSome? (fun c =>
    if kindOf (s.ch c).src = some .buffer ∧ out.overlaps (s.ch c).bufRegion then
      some (badParameter (.ch c .bufBase) (s.ch c).bufBase)
    else none)

/-- `check_encode()` (43_encode.md R187): the first check that fails. -/
def checkEncode (s : State) : Option Raise :=
  let p := encodeParams s
  if p.width ∉ Config.widths then some ⟨.unsupportedSampleWidth, Reg.encWidth.offWord, s.cfg.encWidth⟩
  else if p.channels = 0 ∨ Config.nCh < p.channels then
    some ⟨.unsupportedFormat, Reg.encChannels.offWord, s.cfg.encChannels⟩
  else if p.rate = 0 ∨ min Config.unitTime (2 ^ 32 - 1) < p.rate then
    some (badParameter .encRate s.cfg.encRate)
  else if s64 s.cfg.encLength < 0 then some (badParameter .encLength s.cfg.encLength)
  else if 2 ^ 32 - 1 < p.rate * p.channels * p.width then some (badParameter .encRate s.cfg.encRate)
  else if 2 ^ 32 - 1 < 36 + p.dataLen then some (badParameter .encLength s.cfg.encLength)
  else
    match firstBadChannel s p.channels with
    | some e => some e
    | none =>
      if s.cfg.outLen.toNat < p.total then some (badParameter .outLen s.cfg.outLen)
      else if !p.output.fits then some (badParameter .outBase s.cfg.outBase)
      else firstOverlap s p.channels p.output

/-- The bytes of "RIFF" (00_scope.md R12). -/
def asciiRIFF : List Byte := [0x52, 0x49, 0x46, 0x46]

/-- The bytes of "WAVE" (00_scope.md R12). -/
def asciiWAVE : List Byte := [0x57, 0x41, 0x56, 0x45]

/-- The chunk id "fmt " (20_memory.md R76). -/
def asciiFmt : List Byte := [0x66, 0x6D, 0x74, 0x20]

/-- The chunk id "data" (20_memory.md R76). -/
def asciiData : List Byte := [0x64, 0x61, 0x74, 0x61]

/-- The 44-byte header (43_encode.md R190 to R193, 30_encoding.md R104). -/
def wavHeader (p : EncodeParams) : List Byte :=
  asciiRIFF ++ le 4 (36 + p.dataLen : Nat) ++ asciiWAVE ++
  asciiFmt ++ le 4 16 ++ le 2 1 ++ le 2 p.channels ++ le 4 p.rate ++
  le 4 (p.rate * p.channels * p.width : Nat) ++ le 2 (p.channels * p.width : Nat) ++
  le 2 (8 * p.width : Nat) ++ asciiData ++ le 4 p.dataLen

/-- The interleaver (43_encode.md R196): n samples of the stream from number j on, in stream order.
Sample number j is sample i = j / C of channel c = j mod C, at stream offset 44 + (i·C + c)·W =
44 + j·W. The result: the state, the number of stream bytes written, and the error if one was met
(R200). -/
def encodeLoop (p : EncodeParams) : Nat → Nat → State → State × Nat × Option Raise
  | 0, j, s => (s, 44 + j * p.width, none)
  | n + 1, j, s =>
    let off := 44 + j * p.width
    match chanLevel s (j % p.channels) ((j / p.channels * p.period : Nat) : Int) with
    | .error x => (s, off, some (busError x off))
    | .ok v =>
      match dmaWrite s (p.outBase + off) (quantise v p.width) with
      | (s', some x) => (s', x - p.outBase, some (busError x (x - p.outBase)))
      | (s', none) => encodeLoop p n (j + 1) s'

/-- The header, then the samples (43_encode.md R192, R196, R197). -/
def encodeStream (p : EncodeParams) (s : State) : State × Nat × Option Raise :=
  match dmaWrite s p.outBase (wavHeader p) with
  | (s', some x) => (s', x - p.outBase, some (busError x (x - p.outBase)))
  | (s', none) => encodeLoop p (p.samples * p.channels) 0 s'

/-- ENC_SAMPLES and ENC_BYTES (43_encode.md R199). -/
def EncodeParams.results (p : EncodeParams) (bytes : Nat) : EncResults :=
  ⟨BitVec.ofNat 64 p.samples, BitVec.ofNat 64 bytes⟩

/-- ENCODE, ended after this many stream bytes, read channel c's buffer: it evaluated a sample (i, c)
whose time falls inside the buffer. A sample is evaluated once the stream reaches it, before any of its
bytes is written (43_encode.md R196, R200). -/
def EncodeParams.readBuffer (p : EncodeParams) (s : State) (bytes c : Nat) : Bool :=
  (List.range p.samples).any (fun i =>
    decide (44 + (i * p.channels + c) * p.width ≤ bytes) &&
      (s.ch c).readsAt ((i * p.period : Nat) : Int))

/-- The regions an ENCODE that ended after this many stream bytes accessed, each as the host named it:
the output, which the header's first byte goes to, and the buffers it read
(70_reset_and_hazards.md R312). -/
def encodeTouched (s : State) (bytes : Nat) : List Region :=
  let p := encodeParams s
  outRegion s ::
    ((List.range p.channels).filter (p.readBuffer s bytes)).map (fun c => (s.ch c).bufRegion)

/-- ENCODE from its checks to its completion (43_encode.md R186, R199, R200). -/
def encodeRun (s : State) : State :=
  match checkEncode s with
  | some e => complete (some e) s
  | none =>
    let p := encodeParams s
    match encodeStream p s with
    | (s', bytes, e) => complete e ((s'.setEnc (p.results bytes)).markRegions (encodeTouched s bytes))

/-- ENCODE (43_encode.md R186): what the engine does when it runs the accepted command, in one step
(00_scope.md R19, 70_reset_and_hazards.md R322). -/
def execEncode (s : State) : Host.Outcome State Fault Refusal := .next (encodeRun s)

end Sys2Proof.Machine
end

