-- ==== Sys2Proof/Machine/WavDecode.lean ====
section
/-! DEFINITION. DECODE (44_decode.md): the region checks, the parser, the de-interleaver, and the
meaning. -/

namespace Sys2Proof.Machine

/-- n, the length of the input stream (44_decode.md R217). -/
def inLen (s : State) : Nat := s.cfg.inLen.toNat

/-- The input region (10_state.md R41). -/
def inRegion (s : State) : Region := ⟨s.cfg.inBase.toNat, s.cfg.inLen.toNat⟩

/-- The scratch region (10_state.md R42). -/
def scrRegion (s : State) : Region := ⟨s.cfg.scrBase.toNat, s.cfg.scrLen.toNat⟩

/-- The region checks (44_decode.md R216): the first that fails. -/
def checkDecode (s : State) : Option Raise :=
  if !(inRegion s).fits then some (badParameter .inLen s.cfg.inLen)
  else if !(scrRegion s).fits then some (badParameter .scrLen s.cfg.scrLen)
  else if (inRegion s).overlaps (scrRegion s) then some (badParameter .scrBase s.cfg.scrBase)
  else none

/-- An error of the parser: its kind, the stream offset and the value (60_exceptions.md R272). -/
def streamError (e : ErrorCode) (offset value : Nat) : Raise :=
  ⟨e, BitVec.ofNat 64 offset, BitVec.ofNat 64 value⟩

/-- `In(p, k)` (44_decode.md R217). -/
def inRead (s : State) (p k : Nat) : Except Raise (List Byte) :=
  match dmaRead s (s.cfg.inBase.toNat + p) k with
  | .ok bs => .ok bs
  | .error x => .error (busError x (x - s.cfg.inBase.toNat))

/-- The n-byte field at offset i of a byte sequence, as `uLE` (00_scope.md R12). -/
def field (bs : List Byte) (i n : Nat) : Nat := uLE ((bs.drop i).take n)

/-- Step 1, the RIFF header (44_decode.md R218). -/
def readRiff (s : State) : Except Raise Unit :=
  if inLen s < 12 then .error (streamError .malformedHeader 0 (inLen s))
  else
    match inRead s 0 12 with
    | .error e => .error e
    | .ok h =>
      if h.take 4 ≠ asciiRIFF then .error (streamError .malformedHeader 0 (field h 0 4))
      else if (h.drop 8).take 4 ≠ asciiWAVE then .error (streamError .malformedHeader 8 (field h 8 4))
      else .ok ()

/-- `find_chunk(T)` from pos (44_decode.md R219): the body offset and the length. Each round moves pos
on by at least 8 bytes, so fuel `n / 8 + 1` never runs out before the stream does; the answer at fuel
0 is that of a stream with fewer than 8 bytes left. -/
def findChunk (s : State) (id : List Byte) : Nat → Nat → Except Raise (Nat × Nat)
  | 0, pos => .error (streamError .malformedHeader pos (inLen s - pos))
  | fuel + 1, pos =>
    if inLen s - pos < 8 then .error (streamError .malformedHeader pos (inLen s - pos))
    else
      match inRead s pos 8 with
      | .error e => .error e
      | .ok h =>
        let len := field h 4 4
        if h.take 4 = id then .ok (pos + 8, len)
        else if inLen s - (pos + 8) < len then .error (streamError .shortRead (pos + 8) len)
        else findChunk s id fuel (pos + 8 + len)

/-- The fuel of a chunk search. -/
def chunkFuel (s : State) : Nat := inLen s / 8 + 1

/-- The fmt chunk: body offset and length, and the fields DECODE uses (30_encoding.md R106,
44_decode.md R220, R231). -/
structure Fmt where
  body : Nat
  len : Nat
  code : Nat
  channels : Nat
  rate : Nat
  bits : Nat
deriving DecidableEq, Repr

/-- Step 2 (44_decode.md R220). -/
def readFmt (s : State) : Except Raise Fmt :=
  match findChunk s asciiFmt (chunkFuel s) 12 with
  | .error e => .error e
  | .ok (p, flen) =>
    if flen < 16 then .error (streamError .malformedHeader (p - 8) flen)
    else if inLen s - p < 16 then .error (streamError .shortRead p 16)
    else
      match inRead s p 16 with
      | .error e => .error e
      | .ok f => .ok ⟨p, flen, field f 0 2, field f 2 2, field f 4 4, field f 14 2⟩

/-- Step 3, validation (44_decode.md R221), and the skip of the rest of the body (R222). -/
def checkFmt (s : State) (f : Fmt) : Option Raise :=
  if f.code ≠ 1 then some (streamError .unsupportedFormat f.body f.code)
  else if f.channels = 0 then some (streamError .unsupportedFormat (f.body + 2) f.channels)
  else if Config.nCh < f.channels then some (streamError .unsupportedFormat (f.body + 2) f.channels)
  else if f.bits % 8 ≠ 0 then some (streamError .unsupportedFormat (f.body + 14) f.bits)
  else if f.bits / 8 ∉ Config.widths then some (streamError .unsupportedFormat (f.body + 14) f.bits)
  else if f.rate = 0 ∨ Config.unitTime < f.rate then
    some (streamError .unsupportedFormat (f.body + 4) f.rate)
  else if inLen s - (f.body + 16) < f.len - 16 then
    some (streamError .shortRead (f.body + 16) (f.len - 16))
  else none

/-- What a stream that parses holds (44_decode.md R229). -/
structure DecodePlan where
  channels : Nat
  width : Nat
  rate : Nat
  dataOff : Nat
  dataLen : Nat
deriving DecidableEq, Repr

/-- frames (44_decode.md R225). -/
def DecodePlan.frames (p : DecodePlan) : Nat := p.dataLen / (p.channels * p.width)

/-- need (44_decode.md R225). -/
def DecodePlan.need (p : DecodePlan) : Nat := p.frames * p.channels * p.width

/-- Steps 4 and 5 and the capacity and length checks (44_decode.md R223 to R227). -/
def readData (s : State) (f : Fmt) : Except Raise DecodePlan :=
  match findChunk s asciiData (chunkFuel s) (f.body + f.len) with
  | .error e => .error e
  | .ok (d, dlen) =>
    let p : DecodePlan := ⟨f.channels, f.bits / 8, f.rate, d, dlen⟩
    if dlen % f.channels ≠ 0 then .error (streamError .unsupportedFormat (d - 4) dlen)
    else if s.cfg.scrLen.toNat < p.need then
      .error ⟨.badParameter, Reg.scrLen.offWord, BitVec.ofNat 64 p.need⟩
    else if inLen s - d < p.need then
      .error (streamError .shortRead (d + (inLen s - d) / p.width * p.width) p.need)
    else .ok p

/-- The parser: steps 1 to 5 in order (44_decode.md R218 to R227, 60_exceptions.md R278). -/
def parseStream (s : State) : Except Raise DecodePlan :=
  match readRiff s with
  | .error e => .error e
  | .ok () =>
    match readFmt s with
    | .error e => .error e
    | .ok f =>
      match checkFmt s f with
      | some e => .error e
      | none => readData s f

/-- The address of sample f of channel c in scratch (44_decode.md R228). -/
def DecodePlan.scratchAddr (p : DecodePlan) (scrBase f c : Nat) : Nat :=
  scrBase + c * p.frames * p.width + f * p.width

/-- Step 6, the de-interleaver (44_decode.md R228): n samples of the stream from number j on, in loop
order. Sample number j is sample f = j / ch of channel c = j mod ch, at data offset (f·ch + c)·W =
j·W. -/
def deinterleave (p : DecodePlan) : Nat → Nat → State → State × Option Raise
  | 0, _, s => (s, none)
  | n + 1, j, s =>
    match inRead s (p.dataOff + j * p.width) p.width with
    | .error e => (s, some e)
    | .ok bs =>
      let a := p.scratchAddr s.cfg.scrBase.toNat (j / p.channels) (j % p.channels)
      match dmaWrite s a bs with
      | (s', some x) => (s', some (busError x (p.dataOff + j * p.width + (x - a))))
      | (s', none) => deinterleave p n (j + 1) s'

/-- Step 7, the results (44_decode.md R229). -/
def DecodePlan.results (p : DecodePlan) : DecResults :=
  ⟨BitVec.ofNat 64 p.channels, BitVec.ofNat 64 p.width, BitVec.ofNat 64 p.rate,
   BitVec.ofNat 64 (samplePeriod p.rate), BitVec.ofNat 64 p.frames, BitVec.ofNat 64 p.dataOff,
   BitVec.ofNat 64 p.dataLen⟩

/-- The scratch bytes a decode writes, `[SCR_BASE, SCR_BASE + need)` (44_decode.md R228, R230). -/
def DecodePlan.scratch (p : DecodePlan) (s : State) : Region := ⟨s.cfg.scrBase.toNat, p.need⟩

/-- The parser's accesses (70_reset_and_hazards.md R312): the input region, once the stream is long
enough for the header to be read (44_decode.md R218). -/
def inputTouched (s : State) : List Region := if 12 ≤ inLen s then [inRegion s] else []

/-- The de-interleaver's accesses (70_reset_and_hazards.md R312): the scratch region as the host named
it, once a sample was read and is to be written (44_decode.md R228). -/
def scratchTouched (s : State) (p : DecodePlan) : List Region :=
  if 0 < p.need ∧ (inRead s p.dataOff p.width).isOk then [scrRegion s] else []

/-- DECODE from its checks to its completion (44_decode.md R215, R229, R230). -/
def decodeRun (s : State) : State :=
  match checkDecode s with
  | some e => complete (some e) s
  | none =>
    let s0 := s.markRegions (inputTouched s)
    match parseStream s0 with
    | .error e => complete (some e) s0
    | .ok p =>
      match deinterleave p (p.frames * p.channels) 0 (s0.markRegions (scratchTouched s0 p)) with
      | (s', some e) => complete (some e) (s'.forget (p.scratch s))
      | (s', none) => complete none (s'.setDec p.results)

/-- DECODE (44_decode.md R215): what the engine does when it runs the accepted command, in one step
(00_scope.md R19, 70_reset_and_hazards.md R322). -/
def execDecode (s : State) : Host.Outcome State Fault Refusal := .next (decodeRun s)

end Sys2Proof.Machine
end

