-- ==== Sys2Proof/Machine/Control.lean ====
section
/-! DEFINITION. NOP, GEN_EVAL, illegal command words, the regions of a running command, and the resets
(45_control.md, 70_reset_and_hazards.md R301, R302). -/

namespace Sys2Proof.Machine

/-- NOP completes without error (45_control.md R255). -/
def execNop (s : State) : Host.Outcome State Fault Refusal := .next (complete none s)

/-- An illegal command word (45_control.md R259). -/
def illegalRun (w : Word) (s : State) : State :=
  complete (some ⟨.illegalCommand, Reg.cmd.offWord, w⟩) s

/-- The buffer region a GEN_EVAL of channel c uses (20_memory.md R72). -/
def evalRegions (s : State) (c : Nat) : List Region :=
  if kindOf (s.ch c).src = some .buffer then [(s.ch c).bufRegion] else []

/-- The regions a GEN_EVAL of channel c accesses: the channel's buffer, when EVAL_TIME falls inside it
(42_pcm_buffer.md R175, 70_reset_and_hazards.md R312). -/
def evalTouched (s : State) (c : Nat) : List Region :=
  if (s.ch c).readsAt (s64 s.cfg.evalTime) then [(s.ch c).bufRegion] else []

/-- GEN_EVAL from its checks to its completion (45_control.md R256). -/
def genEvalRun (ch : BitVec 8) (w : BitVec 4) (s : State) : State :=
  let c := ch.toNat
  let W := w.toNat
  if Config.nCh ≤ c then illegalRun (genEvalWord ch w) s
  else if W ∉ Config.widths then
    complete (some ⟨.unsupportedSampleWidth, Reg.cmd.offWord, BitVec.ofNat 64 W⟩) s
  else
    match checkChannel c (s.ch c) with
    | some e => complete (some e) s
    | none =>
      let s0 := s.markRegions (evalTouched s c)
      match chanLevel s0 c (s64 s.cfg.evalTime) with
      | .error x => complete (some (busError x (x - (s.ch c).bufBase.toNat))) s0
      | .ok v => complete none (s0.setEval ⟨u64 v, BitVec.ofNat 64 (uLE (quantise v W))⟩)

/-- GEN_EVAL (45_control.md R256): what the engine does when it runs the accepted command. -/
def execGenEval (ch : BitVec 8) (w : BitVec 4) (s : State) : Host.Outcome State Fault Refusal :=
  .next (genEvalRun ch w s)

/-- ENCODE's destination `[OUT_BASE, OUT_BASE + total)`, for which total must be defined: 1 ≤ rate ≤
UNIT_TIME and length ≥ 0 (40_numeric.md R123, R124). DEDUCED, log entry 10. -/
def encodeDest (s : State) : Option Region :=
  let p := encodeParams s
  if 1 ≤ p.rate ∧ p.rate ≤ Config.unitTime ∧ 0 ≤ s64 s.cfg.encLength then some p.output else none

/-- The destination region of a command word (70_reset_and_hazards.md R311, 45_control.md R263). -/
def destOf (s : State) (w : Word) : Option Region :=
  match decodeCmd w with
  | .ok .encode => encodeDest s
  | .ok .decode => some (scrRegion s)
  | _ => none

/-- The destination region of the running command, if there is one. -/
def State.dest (s : State) : Option Region :=
  match s.phase with
  | .idle => none
  | .running w => destOf s w

/-- The regions a command word reads (70_reset_and_hazards.md R310). -/
def sourcesOf (s : State) (w : Word) : List Region :=
  match decodeCmd w with
  | .ok .encode => bufferRegions s (encodeParams s).channels
  | .ok .decode => [inRegion s]
  | .ok (.genEval ch _) => if ch.toNat < Config.nCh then evalRegions s ch.toNat else []
  | _ => []

/-- The regions no agent may write while the command runs (70_reset_and_hazards.md R310, R313). -/
def State.guarded (s : State) : List Region :=
  match s.phase with
  | .idle => []
  | .running w => (destOf s w).toList ++ sourcesOf s w

/-- The regions the host names for a command word (70_reset_and_hazards.md R312; 10_state.md R39, R41,
R42, R50). -/
def namedOf (s : State) (w : Word) : List Region :=
  match decodeCmd w with
  | .ok .encode => outRegion s :: bufferRegions s (encodeParams s).channels
  | .ok .decode => [inRegion s, scrRegion s]
  | .ok (.genEval ch _) => if ch.toNat < Config.nCh then evalRegions s ch.toNat else []
  | _ => []

/-- The regions the host named for the running command. -/
def State.named (s : State) : List Region :=
  match s.phase with
  | .idle => []
  | .running w => namedOf s w

/-- The bytes a reset leaves unspecified when it aborts the running command (45_control.md R263). -/
def State.abandonDest (s : State) : State :=
  match s.dest with
  | some r => s.forget r
  | none => s

/-- SRST, the soft reset (45_control.md R262, R263, 70_reset_and_hazards.md R302). -/
def execSrst (s : State) : Host.Outcome State Fault Refusal := .next (resetBlock s.abandonDest)

/-- The hard reset (70_reset_and_hazards.md R301): the block at reset, HAZARD false, and every byte of
DMA memory unspecified (93_implementation_defined.md U24; log entry 16). -/
def hardReset (s : State) : State :=
  { (resetBlock s).forget ⟨0, Config.addrSpace⟩ with hazard := false }

end Sys2Proof.Machine
end

