-- ==== Sys2Proof/Machine/Sources.lean ====
section
/-! DEFINITION. The source kinds as instructions: the host's write of the kind's code to CH_SRC(c)
makes it channel c's source (30_encoding.md R101, 10_state.md R47). The kind's level function is then
what ENCODE and GEN_EVAL evaluate (`srcLevel`). -/

namespace Sys2Proof.Machine

/-- The write of a code to CH_SRC(c): a configuration write, dropped with OVR while a command runs
(10_state.md R53); beyond the channel file the offset is reserved and the write is ignored (R54). -/
def selectSource (c : Nat) (k : SourceKind) (s : State) : State :=
  if c < Config.nCh then writeConfig s (.ch c .src) k.code else s

/-- SRC_NONE: channel c gives level 0 (41_generators.md R150). -/
def execSrcNone (c : Nat) (s : State) : Host.Outcome State Fault Refusal := .next (selectSource c .none s)

/-- SRC_SINE: channel c gives `sineLevel` of its period (41_generators.md R152). -/
def execSrcSine (c : Nat) (s : State) : Host.Outcome State Fault Refusal := .next (selectSource c .sine s)

/-- SRC_PULSE: channel c gives `pulseLevel` of its width (41_generators.md R155). -/
def execSrcPulse (c : Nat) (s : State) : Host.Outcome State Fault Refusal := .next (selectSource c .pulse s)

/-- SRC_SQUARE: channel c gives `squareLevel` of its period (41_generators.md R158). -/
def execSrcSquare (c : Nat) (s : State) : Host.Outcome State Fault Refusal := .next (selectSource c .square s)

/-- SRC_RAMP_UP: channel c gives `rampUpLevel` of its duration (41_generators.md R161). -/
def execSrcRampUp (c : Nat) (s : State) : Host.Outcome State Fault Refusal := .next (selectSource c .rampUp s)

/-- SRC_RAMP_DOWN: channel c gives `rampDownLevel` of its duration (41_generators.md R164). -/
def execSrcRampDown (c : Nat) (s : State) : Host.Outcome State Fault Refusal :=
  .next (selectSource c .rampDown s)

/-- SRC_BUFFER: channel c gives `bufferLevel` of its buffer (42_pcm_buffer.md R171, R172). -/
def execSrcBuffer (c : Nat) (s : State) : Host.Outcome State Fault Refusal := .next (selectSource c .buffer s)

end Sys2Proof.Machine
end

