-- ==== Sys2Proof/Machine/Dispatch.lean ====
section
/-! DEFINITION. One arm for each instruction. A command's arm is what the engine does when it runs the
accepted command (45_control.md R252); the arm of a source kind or of SRST is the host's write. -/

namespace Sys2Proof.Machine

def exec (i : Instr) (s : State) : Host.Outcome State Fault Refusal :=
  match i with
  | .nop => Sys2Proof.Machine.execNop s
  | .encode => Sys2Proof.Machine.execEncode s
  | .decode => Sys2Proof.Machine.execDecode s
  | .genEval ch w => Sys2Proof.Machine.execGenEval ch w s
  | .srcNone c => Sys2Proof.Machine.execSrcNone c s
  | .srcSine c => Sys2Proof.Machine.execSrcSine c s
  | .srcPulse c => Sys2Proof.Machine.execSrcPulse c s
  | .srcSquare c => Sys2Proof.Machine.execSrcSquare c s
  | .srcRampUp c => Sys2Proof.Machine.execSrcRampUp c s
  | .srcRampDown c => Sys2Proof.Machine.execSrcRampDown c s
  | .srcBuffer c => Sys2Proof.Machine.execSrcBuffer c s
  | .srst => Sys2Proof.Machine.execSrst s

end Sys2Proof.Machine
end

