-- ==== Sys2Proof/Machine/Turns.lean ====
section
/-! DEFINITION. The turns of the machine: the engine's step, the host's accesses (10_state.md R24, R53,
R54; 45_control.md R251 to R253; 20_memory.md R84), and both in one step (60_exceptions.md R279). -/

namespace Sys2Proof.Machine

/-- The engine's step: a RUNNING engine performs its command to completion (45_control.md R252,
00_scope.md R19); an idle one does nothing (45_control.md R254). -/
def engineTurn (s : State) : Host.Outcome State Fault Refusal :=
  match s.phase with
  | .idle => .next s
  | .running w =>
    match decodeCmd w with
    | .ok i => exec i s
    | .error _ => .next (illegalRun w s)

/-- The state the running command would complete in, for the final value of its results
(70_reset_and_hazards.md R317). -/
def finalState (s : State) : State :=
  match engineTurn s with
  | .next t => t
  | .fault _ => s
  | .refused _ => s

/-- An aligned 64-bit read of the CSR window. Reserved offsets read 0 (10_state.md R24); a result
register read while BUSY shows 0 or its final value (70_reset_and_hazards.md R317). -/
def csrRead (off : BitVec 12) (s : State) : State :=
  match regAt off with
  | none => { s with resp := .value 0 }
  | some r =>
    if s.busy && r.isResult then
      { s with
        resp := .value (if Config.showsFinal s.draws then regRead (finalState s) r else 0)
        draws := s.draws + 1 }
    else { s with resp := .value (regRead s r) }

/-- A write to CMD: accepted when idle (45_control.md R251), dropped with OVR while BUSY (R253). -/
def writeCmd (w : Word) (s : State) : State := if s.busy then s.dropWrite else accept w s

/-- An aligned 64-bit write to the CSR window. A CMD write is accepted or dropped; a write that is a
source kind or SRST runs that instruction; the rest go to their registers, reserved offsets ignore
them (10_state.md R24, R54). -/
def csrWrite (off : BitVec 12) (w : Word) (s : State) : Host.Outcome State Fault Refusal :=
  let s0 := { s with resp := .written }
  if off = cmdOffset then .next (writeCmd w s0)
  else
    match decode off w with
    | .ok i => exec i s0
    | .error _ =>
      match regAt off with
      | some r => .next (writeReg s0 r w)
      | none => .next s0

/-- One byte of a host memory read: a byte of the running command's destination is unspecified
(20_memory.md R84, 70_reset_and_hazards.md R311). -/
def hostByte (s : State) (a : Nat) : Byte :=
  if s.dest.any (fun r => r.has a) then Config.freeByte s.draws a else s.readByte a

/-- A host read of n bytes from a (20_memory.md R84). -/
def memRead (a n : Nat) (s : State) : State :=
  { s with resp := .bytes ((List.range n).map (fun k => hostByte s (a + k))), draws := s.draws + 1 }

/-- Bytes written from outside the engine: HAZARD when they touch one of the regions `rs`, which nobody
else may write. -/
def outsideWrite (rs : List Region) (a : Nat) (bs : List Byte) (s : State) : State :=
  { s.writeBytes a bs with hazard := s.hazard || rs.any (fun r => r.overlaps ⟨a, bs.length⟩) }

/-- A host memory write: HAZARD when it touches a byte the running command reads or writes
(70_reset_and_hazards.md R310, R313). R312's "no other master writing it" is read as not speaking of the
host, so a host write to another byte of a named region sets no mark: DESIGN CHOICE, unsafe, log entry 22. -/
def memWrite (a : Nat) (bs : List Byte) (s : State) : State :=
  { outsideWrite s.guarded a bs s with resp := .written }

/-- Another master's memory write, which no region the host named may get either while the command runs
(70_reset_and_hazards.md R312; log entry 9). The host is no such master: DESIGN CHOICE, log entry 22. -/
def masterWrite (a : Nat) (bs : List Byte) (s : State) : State :=
  outsideWrite (s.guarded ++ s.named) a bs s

/-- The platform changes what it decides: allowed between commands; while one runs, HAZARD when the change
reaches a region the host named for it (20_memory.md R73, 70_reset_and_hazards.md R312; log entry 9). -/
def platformChange (p : Platform) (s : State) : State :=
  { s with platform := p, hazard := s.hazard || s.named.any (fun r => !s.platform.sameOn p r) }

/-- One access of the world outside the engine. A CSR access that is not an aligned 64-bit one gets an
error response and changes nothing else (10_state.md R24, 60_exceptions.md R274). -/
def hostAccess (a : Access) (s : State) : Host.Outcome State Fault Refusal :=
  match a with
  | .csr dir size off data =>
    if size ≠ 8 ∨ off.toNat % 8 ≠ 0 then .next { s with resp := .busError }
    else
      match dir with
      | .read => .next (csrRead off s)
      | .write => csrWrite off data s
  | .memWrite a bs =>
    if a.toNat + bs.length ≤ Config.addrSpace then .next (memWrite a.toNat bs s) else .fault .noSuchAddress
  | .masterWrite a bs =>
    if a.toNat + bs.length ≤ Config.addrSpace then .next (masterWrite a.toNat bs s) else .fault .noSuchAddress
  | .memRead a n =>
    if a.toNat + n ≤ Config.addrSpace then .next (memRead a.toNat n s) else .fault .noSuchAddress
  | .hardReset => .next (hardReset s)
  | .platformChange p => .next (platformChange p s)

/-- A host access and the engine's completion in one step: the access first (60_exceptions.md R279).
A command accepted in this very step completes in a later one (00_scope.md R19). -/
def bothTurn (a : Access) (s : State) : Host.Outcome State Fault Refusal :=
  match hostAccess a s with
  | .next t => if s.busy && t.busy then engineTurn t else .next t
  | .fault r => .fault r
  | .refused r => .refused r

/-- What a bare word of the opcode table needs so that the next step runs it: a command word stands
accepted and it is the engine's turn; any other word is the host's next write. Log entry 2. -/
def placeWord (w : Word) (s : State) : State :=
  if tableOffset w = cmdOffset then
    { s with phase := .running w, inputs := .engine :: s.inputs }
  else
    { s with inputs := .host (.csr .write 8 (tableOffset w) w) :: s.inputs }

end Sys2Proof.Machine
end

