-- ==== Sys2Proof/Machine/Step.lean ====
section
/-! DEFINITION. One step of the machine. -/

namespace Sys2Proof.Machine

/-- One step: the next event of `inputs`, or, when there is none, the engine's step: a RUNNING engine
goes on (70_reset_and_hazards.md R321), an idle block waits (00_scope.md R20, 70_reset_and_hazards.md
R303). -/
def step (s : State) : Host.Outcome State Fault Refusal :=
  match s.inputs with
  | [] => engineTurn s
  | .host a :: es => hostAccess a { s with inputs := es }
  | .engine :: es => engineTurn { s with inputs := es }
  | .both a :: es => bothTurn a { s with inputs := es }

/-- s with the instruction of an opcode-table word placed so that the next step runs it. -/
def State.withFetchWord (s : State) (nbits w : Nat) : State :=
  placeWord (BitVec.ofNat 64 (w % 2 ^ nbits)) s

end Sys2Proof.Machine
end

