-- ==== Sys2Proof/Safety.lean ====
section
/-! DEFINITION. What claims about runs are stated in: which bytes answer, runs the spec defines
(HAZARD = 0, 10_state.md R60), the state's invariant, the stream ENCODE has to write, and the shape of
the accesses and commands claims speak of. -/

namespace Sys2Proof.Machine

/-- Every byte of a transfer of n bytes at a answers (20_memory.md R73). -/
def AllAnswer (p : Platform) (a n : Nat) : Prop := ∀ y, a ≤ y → y < a + n → p.memOK y = true

/-- A transfer of n bytes at a meets its first silent address at x (00_scope.md R13). -/
def FirstSilent (p : Platform) (a n x : Nat) : Prop :=
  a ≤ x ∧ x < a + n ∧ p.memOK x = false ∧ ∀ y, a ≤ y → y < x → p.memOK y = true

/-- Every byte of a list of regions answers. -/
def RegionsAnswer (p : Platform) (rs : List Region) : Prop := ∀ r ∈ rs, AllAnswer p r.base r.len

/-- The spec defines the results of a command that accesses these regions: HAZARD is 0 and none covers a
device (10_state.md R60, 70_reset_and_hazards.md R312). -/
def State.defined (s : State) (rs : List Region) : Prop := (s.markRegions rs).hazard = false

/-- The regions inside which ENCODE touches memory (20_memory.md R72). -/
def State.encodeRegions (s : State) : List Region :=
  (encodeParams s).output :: bufferRegions s (encodeParams s).channels

/-- The regions a DECODE accesses whose stream parses as p (70_reset_and_hazards.md R312). -/
def decodeTouched (s : State) (p : DecodePlan) : List Region := inputTouched s ++ scratchTouched s p

/-- The region covers a device of the platform or the CSR window: an address lies in both (20_memory.md
R79, 70_reset_and_hazards.md R312). -/
def Platform.CoversDevice (p : Platform) (r : Region) : Prop :=
  ∃ d ∈ p.deviceRegions, ∃ a, d.has a = true ∧ r.has a = true

/-- Byte k of the stream ENCODE has to write, with the levels the channels have in s (43_encode.md
R192, R196); sample number (k − 44) / W is sample i of channel c with i·C + c that number. -/
def streamByte (s : State) (p : EncodeParams) (k : Nat) : Byte :=
  if k < 44 then (wavHeader p).getD k 0
  else
    let j := (k - 44) / p.width
    match chanLevel s (j % p.channels) ((j / p.channels * p.period : Nat) : Int) with
    | .ok v => (quantise v p.width).getD ((k - 44) % p.width) 0
    | .error _ => 0

/-- The engine's record is well kept: memory is canonical (20_memory.md R71), free draws are fresh,
ERRCODE holds a listed code (60_exceptions.md R271), a record without error is all zero, ERR is only
set with an error code (10_state.md R29), and a running command shows DONE = ERR = 0 and no error
(45_control.md R251). -/
def State.Inv (s : State) : Prop :=
  Memory.wf s.mem = true ∧
  (∀ v ∈ s.voids, v.draw < s.draws) ∧
  s.error.code.toNat ≤ 7 ∧
  (s.error.code = 0 → s.error = ErrorRecord.none) ∧
  (s.status.err = true → s.error.code ≠ 0) ∧
  (s.busy = true → s.status.done = false ∧ s.status.err = false ∧ s.error = ErrorRecord.none)

/-- The aligned 64-bit host write of w at an offset (30_encoding.md R96). -/
def hostWrite (off : BitVec 12) (w : Word) : Access := .csr .write 8 off w

/-- The aligned 64-bit host read at an offset (30_encoding.md R96). -/
def hostRead (off : BitVec 12) : Access := .csr .read 8 off 0

/-- The commands of the opcode table: the words CMD accepts (30_encoding.md R98). -/
def isCommand (i : Instr) : Bool :=
  match i with
  | .nop => true
  | .encode => true
  | .decode => true
  | .genEval _ _ => true
  | .srcNone _ => false
  | .srcSine _ => false
  | .srcPulse _ => false
  | .srcSquare _ => false
  | .srcRampUp _ => false
  | .srcRampDown _ => false
  | .srcBuffer _ => false
  | .srst => false

/-- The source kind an instruction selects, with its channel (30_encoding.md R101). -/
def selectedSource (i : Instr) : Option (Nat × SourceKind) :=
  match i with
  | .nop => none
  | .encode => none
  | .decode => none
  | .genEval _ _ => none
  | .srcNone c => some (c, .none)
  | .srcSine c => some (c, .sine)
  | .srcPulse c => some (c, .pulse)
  | .srcSquare c => some (c, .square)
  | .srcRampUp c => some (c, .rampUp)
  | .srcRampDown c => some (c, .rampDown)
  | .srcBuffer c => some (c, .buffer)
  | .srst => none

/-- The setup a command leaves alone: configuration and channel registers, IRQ_EN (60_exceptions.md R275),
and what stands outside the block. -/
def keepsSetup (s t : State) : Prop :=
  t.cfg = s.cfg ∧ t.chan = s.chan ∧ t.irqEn = s.irqEn ∧ t.platform = s.platform ∧
    t.inputs = s.inputs ∧ t.resp = s.resp

/-- No region of memory became unspecified. -/
def keepsDraws (s t : State) : Prop := t.voids = s.voids ∧ t.draws = s.draws

/-- Every byte of memory outside the n bytes at a reads as before. -/
def keepsBytesOutside (s t : State) (a n : Nat) : Prop :=
  ∀ x, x < a ∨ a + n ≤ x → t.readByte x = s.readByte x

/-- The command completed with this record: BUSY fell, DONE rose, ERR tells whether the code is not 0,
OVR stayed (60_exceptions.md R276). -/
def completesWith (s t : State) (code info0 info1 : Word) : Prop :=
  t.phase = .idle ∧ t.status = ⟨true, decide (code ≠ 0), s.status.ovr⟩ ∧ t.error = ⟨code, info0, info1⟩

/-- The instruction makes k the source of channel c: CH_SRC(c) holds k's code and nothing else changes
(10_state.md R47, R53). -/
def selects (i : Instr) (c : Nat) (k : SourceKind) (s : State) : Prop :=
  ∃ t, exec i s = .next t ∧ (t.ch c).src = k.code ∧
    (∀ r, r ≠ .src → (t.ch c).get r = (s.ch c).get r) ∧ (∀ d, d ≠ c → t.ch d = s.ch d) ∧
    t = { s with chan := t.chan }

/-- A run has ended as 00_scope.md R20 has it end: no access is left and no command runs. -/
def State.ended (s : State) : Prop := s.inputs = [] ∧ s.phase = .idle

end Sys2Proof.Machine
end

