-- ==== Sys2Proof/Certificates/Slice0/Obligations.lean ====
section
/-! DEFINITION. The statements for the provers. Each docstring names the rules of spec/ it formalises. -/

open Sys2Proof Sys2Proof.Machine

/-! ### Decoding and encoding -/

/-- Every well-formed instruction is read back from its encoding, as a word and as the eight bytes the
bus carries (30_encoding.md R97 to R101, 10_state.md R24, R30). -/
def Obligations.DecodeEncodeAgree : Prop :=
  ∀ i : Instr, i.wf = true →
    decode (Sys2Proof.encode i).1 (Sys2Proof.encode i).2 = .ok i ∧
    decodeBytes (Sys2Proof.encode i).1 (encodeBytes i) = .ok i

/-- A host write that decodes is the encoding of its instruction, but for the bits 63:1 of a CTRL write,
which are ignored; and the instruction is well formed (30_encoding.md R97 to R101, 10_state.md R30). -/
def Obligations.EncodeDecodeAgree : Prop :=
  ∀ (off : BitVec 12) (w : Word) (i : Instr), decode off w = .ok i →
    i.wf = true ∧ (Sys2Proof.encode i).1 = off ∧
      ((Sys2Proof.encode i).2 = w ∨ (i = .srst ∧ w.getLsbD 0 = true))

/-- A command word is illegal exactly when RES is not 0, OP is reserved, or OP is 0 to 2 with CH or W
not 0 (30_encoding.md R102 (a)). -/
def Obligations.IllegalCommandWords : Prop :=
  ∀ w : Word, (∃ e, decodeCmd w = .error e) ↔
    (cmdRes w ≠ 0 ∨ 4 ≤ (cmdOp w).toNat ∨ ((cmdOp w).toNat ≤ 2 ∧ (cmdCh w ≠ 0 ∨ cmdW w ≠ 0)))

/-- The worked encodings of 30_encoding.md R111. -/
def Obligations.WorkedCommandWords : Prop :=
  Sys2Proof.encode .encode = (0x030, 0x0000000000000001) ∧
  decode 0x030 0x0000000000000001 = .ok .encode ∧
  decode 0x030 0x0000000000030203 = .ok (.genEval 2 3) ∧
  decode 0x030 0x0000000000080003 = .ok (.genEval 0 8) ∧
  decode 0x030 0x0000000000000101 = .error (.illegalCommand 0x101) ∧
  decode 0x030 0x0000000000100000 = .error (.illegalCommand 0x100000) ∧
  decode 0x030 0x0000000000000004 = .error (.illegalCommand 4)

/-- Words of the other formats: source kinds written to CH_SRC(c) (30_encoding.md R101) and SRST
written to CTRL (10_state.md R30), with a reserved kind and a CTRL write without bit 0. -/
def Obligations.WorkedSourceAndResetWords : Prop :=
  decode 0x100 0 = .ok (.srcNone 0) ∧ decode 0x140 1 = .ok (.srcSine 1) ∧
  decode 0x180 2 = .ok (.srcPulse 2) ∧ decode 0x1C0 3 = .ok (.srcSquare 3) ∧
  decode 0x200 4 = .ok (.srcRampUp 4) ∧ decode 0x240 5 = .ok (.srcRampDown 5) ∧
  decode 0x2C0 6 = .ok (.srcBuffer 7) ∧ decode 0x100 7 = .error (.reservedSource 7) ∧
  decode 0x100 0x0000000100000001 = .error (.reservedSource 0x0000000100000001) ∧
  decode 0x018 0x0000000000000001 = .ok .srst ∧ decode 0x018 0xFFFFFFFFFFFFFFFF = .ok .srst ∧
  decode 0x018 0x0000000000000002 = .error (.noReset 2)

/-! ### A step runs the decoded instruction -/

/-- When a command runs and it is the engine's turn, the step is exec of the instruction the command
word decodes to (45_control.md R252); with no input left it is the engine's turn, as log entry 17 reads
70_reset_and_hazards.md R321. That a command takes one engine step is the model's choice, which R322
allows (log entry 3). -/
def Obligations.StepRunsAcceptedCommand : Prop :=
  ∀ (s : State) (w : Word) (i : Instr), s.phase = .running w → decodeCmd w = .ok i →
    (∀ es, s.inputs = .engine :: es → step s = exec i { s with inputs := es }) ∧
    (s.inputs = [] → step s = exec i s)

/-- When the next input is the host's write of a source kind to CH_SRC(c), or of a word with bit 0 to
CTRL, the step is exec of that instruction, with the access taken off the inputs and answered
(30_encoding.md R96, R101, 10_state.md R30). -/
def Obligations.StepRunsHostInstruction : Prop :=
  ∀ (s : State) (off : BitVec 12) (w : Word) (i : Instr) (es : List Event),
    s.inputs = .host (hostWrite off w) :: es → decode off w = .ok i → off ≠ cmdOffset →
      step s = exec i { s with inputs := es, resp := .written }

/-- An idle engine accepts a CMD write in one step, and that step clears the record, DONE, ERR and the
command's own results, keeps OVR, and changes nothing else (45_control.md R251). -/
def Obligations.StepAcceptsCommand : Prop :=
  ∀ (s : State) (w : Word) (es : List Event), s.phase = .idle →
    s.inputs = .host (hostWrite 0x030 w) :: es →
    ∃ t, step s = .next t ∧ t.phase = .running w ∧ t.status = ⟨false, false, s.status.ovr⟩ ∧
      t.error = ⟨0, 0, 0⟩ ∧
      (decodeCmd w = .ok .encode → t.enc = ⟨0, 0⟩) ∧ (decodeCmd w ≠ .ok .encode → t.enc = s.enc) ∧
      (decodeCmd w = .ok .decode → t.dec = ⟨0, 0, 0, 0, 0, 0, 0⟩) ∧
      (decodeCmd w ≠ .ok .decode → t.dec = s.dec) ∧
      ((∃ ch n, decodeCmd w = .ok (.genEval ch n)) → t.eval = ⟨0, 0⟩) ∧
      ((∀ ch n, decodeCmd w ≠ .ok (.genEval ch n)) → t.eval = s.eval) ∧
      t.cfg = s.cfg ∧ t.chan = s.chan ∧ t.irqEn = s.irqEn ∧ t.hazard = s.hazard ∧ t.mem = s.mem ∧
      t.voids = s.voids ∧ t.draws = s.draws ∧ t.platform = s.platform ∧ t.inputs = es ∧
      t.resp = .written

/-- A CMD write while a command runs is dropped: the running command stays, nothing is queued, OVR is
set and nothing else changes (45_control.md R253). -/
def Obligations.BusyCommandDropped : Prop :=
  ∀ (s : State) (v w : Word) (es : List Event), s.phase = .running v →
    s.inputs = .host (hostWrite 0x030 w) :: es →
    step s = .next { s with
      inputs := es, resp := .written, status := ⟨s.status.done, s.status.err, true⟩ }

/-- When it is the engine's turn, an illegal command word completes with ILLEGAL_COMMAND(off(CMD), w) and
writes nothing else (45_control.md R259). That it completes in this one engine step is the model's choice,
which 70_reset_and_hazards.md R322 allows (log entry 3). That it also does so with no input left, where
00_scope.md R20 defines no end state, is the model's reading (log entry 17). -/
def Obligations.IllegalWordCompletes : Prop :=
  ∀ (s : State) (w : Word) (e : DecodeError), s.phase = .running w → decodeCmd w = .error e →
    (∀ es, s.inputs = .engine :: es →
      step s = .next { s with
        inputs := es, phase := .idle, status := ⟨true, true, s.status.ovr⟩, error := ⟨6, 0x030, w⟩ }) ∧
    (s.inputs = [] →
      step s = .next { s with
        phase := .idle, status := ⟨true, true, s.status.ovr⟩, error := ⟨6, 0x030, w⟩ })

/-! ### NOP and ENCODE -/

/-- NOP completes without error from every state and writes nothing but what completion writes
(45_control.md R255, 60_exceptions.md R276). -/
def Obligations.NopCompletes : Prop :=
  ∀ s : State, exec .nop s = .next { s with
    phase := .idle, status := ⟨true, false, s.status.ovr⟩, error := ⟨0, 0, 0⟩ }

/-- ENCODE's checks pass exactly when each operand is legal, every used channel's descriptor passes, and
the output region holds the stream, fits the space and overlaps no used buffer (43_encode.md R187). -/
def Obligations.EncodeChecksExact : Prop :=
  ∀ s : State, checkEncode s = none ↔
    ((encodeParams s).width ∈ [1, 2, 3, 4, 6, 8] ∧
     1 ≤ (encodeParams s).channels ∧ (encodeParams s).channels ≤ 8 ∧
     1 ≤ (encodeParams s).rate ∧ (encodeParams s).rate ≤ 1000000000 ∧
     0 ≤ s.cfg.encLength.toInt ∧
     (encodeParams s).rate * (encodeParams s).channels * (encodeParams s).width ≤ 4294967295 ∧
     36 + (encodeParams s).samples * (encodeParams s).channels * (encodeParams s).width ≤ 4294967295 ∧
     (∀ c, c < (encodeParams s).channels → checkChannel c (s.ch c) = none) ∧
     44 + (encodeParams s).samples * (encodeParams s).channels * (encodeParams s).width ≤
       s.cfg.outLen.toNat ∧
     s.cfg.outBase.toNat + (44 + (encodeParams s).samples * (encodeParams s).channels *
       (encodeParams s).width) ≤ 2 ^ 64 ∧
     (∀ c, c < (encodeParams s).channels → (s.ch c).src = 6 →
       (encodeParams s).output.overlaps (s.ch c).bufRegion = false))

/-- ENCODE reports the first check that fails and then touches no memory, no result and no mark: width,
channel count, rate, length, byte rate, data size, the used channels' descriptors in channel order, the
output region's length, its base, and the first used buffer that overlaps the output
(43_encode.md R187, R199, 60_exceptions.md R278). What a descriptor's check reports is in
`ChannelChecksInOrder`. -/
def Obligations.EncodeFirstErrors : Prop :=
  ∀ s : State,
    let p := encodeParams s
    let stops := fun (code off v : Word) => exec .encode s = .next { s with
      phase := .idle, status := ⟨true, true, s.status.ovr⟩, error := ⟨code, off, v⟩ }
    let c1 := p.width ∈ [1, 2, 3, 4, 6, 8]
    let c2 := 1 ≤ p.channels ∧ p.channels ≤ 8
    let c3 := 1 ≤ p.rate ∧ p.rate ≤ 1000000000
    let c4 := 0 ≤ s.cfg.encLength.toInt
    let c5 := p.rate * p.channels * p.width ≤ 4294967295
    let c6 := 36 + p.samples * p.channels * p.width ≤ 4294967295
    let total := 44 + p.samples * p.channels * p.width
    let out := s.cfg.outBase.toNat
    let passes := fun c => checkChannel c (s.ch c) = none
    let meets := fun c => (s.ch c).src = 6 ∧ 0 < (s.ch c).bufLen.toNat ∧
      out < (s.ch c).bufBase.toNat + (s.ch c).bufLen.toNat ∧ (s.ch c).bufBase.toNat < out + total
    (¬c1 → stops 4 0x058 s.cfg.encWidth) ∧
    (c1 → ¬c2 → stops 2 0x050 s.cfg.encChannels) ∧
    (c1 → c2 → ¬c3 → stops 7 0x060 s.cfg.encRate) ∧
    (c1 → c2 → c3 → ¬c4 → stops 7 0x068 s.cfg.encLength) ∧
    (c1 → c2 → c3 → c4 → ¬c5 → stops 7 0x060 s.cfg.encRate) ∧
    (c1 → c2 → c3 → c4 → c5 → ¬c6 → stops 7 0x068 s.cfg.encLength) ∧
    (c1 → c2 → c3 → c4 → c5 → c6 →
      (∀ c e, c < p.channels → (∀ c', c' < c → passes c') → checkChannel c (s.ch c) = some e →
        stops e.code.toWord e.info0 e.info1) ∧
      ((∀ c, c < p.channels → passes c) →
        (s.cfg.outLen.toNat < total → stops 7 0x078 s.cfg.outLen) ∧
        (total ≤ s.cfg.outLen.toNat → 2 ^ 64 < out + total → stops 7 0x070 s.cfg.outBase) ∧
        (total ≤ s.cfg.outLen.toNat → out + total ≤ 2 ^ 64 →
          ∀ c, c < p.channels → (∀ c', c' < c → ¬meets c') → meets c →
            stops 7 (BitVec.ofNat 64 (0x100 + 0x40 * c + 0x18)) (s.ch c).bufBase)))

/-- The checks of a channel's descriptor, in order, with the register each reports (41_generators.md
R148, R149). -/
def Obligations.ChannelChecksInOrder : Prop :=
  ∀ (c : Nat) (d : Channel), c < 8 →
    let bad := fun (k : Nat) (v : Word) =>
      checkChannel c d = some ⟨.badParameter, BitVec.ofNat 64 (0x100 + 0x40 * c + k), v⟩
    (7 ≤ d.src.toNat → bad 0x00 d.src) ∧
    ((d.src = 1 ∨ d.src = 3 ∨ d.src = 4 ∨ d.src = 5) → d.param.toInt < 1 → bad 0x08 d.param) ∧
    (d.src = 2 → d.param.toInt < 0 → bad 0x08 d.param) ∧
    (d.src = 6 → d.bufWidth.toNat ∉ [1, 2, 3, 4, 6, 8] → bad 0x28 d.bufWidth) ∧
    (d.src = 6 → d.bufWidth.toNat ∈ [1, 2, 3, 4, 6, 8] → d.bufPeriod.toInt < 1 →
      bad 0x30 d.bufPeriod) ∧
    (d.src = 6 → d.bufWidth.toNat ∈ [1, 2, 3, 4, 6, 8] → 1 ≤ d.bufPeriod.toInt →
      2 ^ 64 < d.bufBase.toNat + d.bufLen.toNat → bad 0x20 d.bufLen) ∧
    (d.src = 0 → checkChannel c d = none) ∧
    ((d.src = 1 ∨ d.src = 3 ∨ d.src = 4 ∨ d.src = 5) → 1 ≤ d.param.toInt → checkChannel c d = none) ∧
    (d.src = 2 → 0 ≤ d.param.toInt → checkChannel c d = none) ∧
    (d.src = 6 → d.bufWidth.toNat ∈ [1, 2, 3, 4, 6, 8] → 1 ≤ d.bufPeriod.toInt →
      d.bufBase.toNat + d.bufLen.toNat ≤ 2 ^ 64 → checkChannel c d = none)

/-- The header's fields hold the values of 43_encode.md R193, for every legal configuration. -/
def Obligations.HeaderFields : Prop :=
  ∀ p : EncodeParams, p.width ∈ Config.widths → 1 ≤ p.channels → p.channels ≤ 8 →
    p.rate * p.channels * p.width ≤ 4294967295 →
    36 + p.samples * p.channels * p.width ≤ 4294967295 →
    let h := wavHeader p
    h.length = 44 ∧ h.take 4 = [0x52, 0x49, 0x46, 0x46] ∧
    field h 4 4 = 36 + p.samples * p.channels * p.width ∧
    (h.drop 8).take 4 = [0x57, 0x41, 0x56, 0x45] ∧ (h.drop 12).take 4 = [0x66, 0x6D, 0x74, 0x20] ∧
    field h 16 4 = 16 ∧ field h 20 2 = 1 ∧ field h 22 2 = p.channels ∧ field h 24 4 = p.rate ∧
    field h 28 4 = p.rate * p.channels * p.width ∧ field h 32 2 = p.channels * p.width ∧
    field h 34 2 = 8 * p.width ∧ (h.drop 36).take 4 = [0x64, 0x61, 0x74, 0x61] ∧
    field h 40 4 = p.samples * p.channels * p.width

/-- ENCODE, whole: when the checks pass, no region it accesses covers a device and the output and the used
buffers answer, it completes without error; the output holds the header and then, frame by frame and channel by
channel, the quantised level of each channel at each sample time; ENC_SAMPLES and ENC_BYTES are the
counts; no other byte and no other register changes. The premise HAZARD = 0 is that of 10_state.md R60, as
log entries 9 and 18 read it (43_encode.md R189, R192, R194, R196, R197, R199, 60_exceptions.md R276). -/
def Obligations.EncodeWritesStream : Prop :=
  ∀ s : State, checkEncode s = none → s.defined (encodeTouched s (encodeParams s).total) →
    RegionsAnswer s.platform s.encodeRegions →
    ∃ t, exec .encode s = .next t ∧ completesWith s t 0 0 0 ∧
      t.enc = ⟨BitVec.ofNat 64 (encodeParams s).samples, BitVec.ofNat 64 (encodeParams s).total⟩ ∧
      (∀ k, k < 44 →
        t.readByte (s.cfg.outBase.toNat + k) = (wavHeader (encodeParams s)).getD k 0) ∧
      (∀ i c, i < (encodeParams s).samples → c < (encodeParams s).channels →
        ∃ v, chanLevel s c ((i * (encodeParams s).period : Nat) : Int) = .ok v ∧
          ∀ k, k < (encodeParams s).width →
            t.readByte (s.cfg.outBase.toNat +
                (44 + (i * (encodeParams s).channels + c) * (encodeParams s).width) + k) =
              (quantise v (encodeParams s).width).getD k 0) ∧
      keepsBytesOutside s t s.cfg.outBase.toNat (encodeParams s).total ∧
      keepsSetup s t ∧ keepsDraws s t ∧ t.dec = s.dec ∧ t.eval = s.eval ∧ t.hazard = s.hazard

/-- An output byte that does not answer stops ENCODE there, when it is the first fault in stream order,
which asks of the buffers only that every sample the stream reaches before or at that byte has its level:
BUS_ERROR with the address and the stream offset, ENC_BYTES that offset, the stream's bytes before it
written and every other byte as before (43_encode.md R199, R200, 60_exceptions.md R272). -/
def Obligations.EncodeStopsAtSilentOutput : Prop :=
  ∀ (s : State) (x : Nat), checkEncode s = none →
    s.defined (encodeTouched s (x - s.cfg.outBase.toNat)) →
    FirstSilent s.platform s.cfg.outBase.toNat (encodeParams s).total x →
    (∀ i c, c < (encodeParams s).channels →
      44 + (i * (encodeParams s).channels + c) * (encodeParams s).width ≤ x - s.cfg.outBase.toNat →
      ∃ v, chanLevel s c ((i * (encodeParams s).period : Nat) : Int) = .ok v) →
    ∃ t, exec .encode s = .next t ∧
      completesWith s t 5 (BitVec.ofNat 64 x) (BitVec.ofNat 64 (x - s.cfg.outBase.toNat)) ∧
      t.enc = ⟨BitVec.ofNat 64 (encodeParams s).samples, BitVec.ofNat 64 (x - s.cfg.outBase.toNat)⟩ ∧
      (∀ k, k < x - s.cfg.outBase.toNat →
        t.readByte (s.cfg.outBase.toNat + k) = streamByte s (encodeParams s) k) ∧
      keepsBytesOutside s t s.cfg.outBase.toNat (x - s.cfg.outBase.toNat) ∧
      keepsSetup s t ∧ keepsDraws s t ∧ t.dec = s.dec ∧ t.eval = s.eval ∧ t.hazard = s.hazard

/-- A buffer read that does not answer stops ENCODE at that sample, when it is the first fault in stream
order, which asks of the output only that the bytes before the sample answer: BUS_ERROR with the silent
address and the stream offset n = 44 + (i·C + c)·W of the sample, ENC_BYTES n, the n bytes before it written
and every other byte as before (43_encode.md R199, R200, 60_exceptions.md R272). -/
def Obligations.EncodeStopsAtSilentBuffer : Prop :=
  ∀ (s : State) (i c x : Nat), checkEncode s = none →
    let n := 44 + (i * (encodeParams s).channels + c) * (encodeParams s).width
    s.defined (encodeTouched s n) →
    AllAnswer s.platform s.cfg.outBase.toNat n →
    i < (encodeParams s).samples → c < (encodeParams s).channels →
    chanLevel s c ((i * (encodeParams s).period : Nat) : Int) = .error x →
    (∀ i' c', c' < (encodeParams s).channels →
      i' * (encodeParams s).channels + c' < i * (encodeParams s).channels + c →
      ∃ v, chanLevel s c' ((i' * (encodeParams s).period : Nat) : Int) = .ok v) →
    ∃ t, exec .encode s = .next t ∧ completesWith s t 5 (BitVec.ofNat 64 x) (BitVec.ofNat 64 n) ∧
      t.enc = ⟨BitVec.ofNat 64 (encodeParams s).samples, BitVec.ofNat 64 n⟩ ∧
      (∀ k, k < n → t.readByte (s.cfg.outBase.toNat + k) = streamByte s (encodeParams s) k) ∧
      keepsBytesOutside s t s.cfg.outBase.toNat n ∧
      keepsSetup s t ∧ keepsDraws s t ∧ t.dec = s.dec ∧ t.eval = s.eval ∧ t.hazard = s.hazard

/-- A channel c ≥ C is never checked or read: two states that differ only in the descriptors of such
channels give the same ENCODE, and keep their descriptors (43_encode.md R201 (d)). -/
def Obligations.EncodeIgnoresUnusedChannels : Prop :=
  ∀ (s : State) (ch : Vector Channel 8),
    (∀ c, c < (encodeParams s).channels → ({ s with chan := ch } : State).ch c = s.ch c) →
    ∃ t, exec .encode s = .next t ∧
      exec .encode { s with chan := ch } = .next { t with chan := ch }

/-- The copy path gives the evaluation path's bytes: for an eligible channel and every sample, the
quantised level is the W buffer bytes at index i − d, or the encoding of level zero outside the buffer
(43_encode.md R198). -/
def Obligations.ShortcutCopiesBytes : Prop :=
  ∀ (s : State) (c P W i : Nat),
    (s.ch c).src = 6 → (s.ch c).bufWidth.toNat = W → W ∈ Config.widths →
    0 < P → (s.ch c).bufPeriod.toInt = P →
    (P : Int) ∣ (s.ch c).delay.toInt →
    -2 ^ 63 ≤ (i * P : Int) - (s.ch c).delay.toInt → (i * P : Int) - (s.ch c).delay.toInt < 2 ^ 63 →
    AllAnswer s.platform (s.ch c).bufBase.toNat (s.ch c).bufLen.toNat →
    let d := (s.ch c).delay.toInt / P
    let n := (s.ch c).bufLen.toNat / W
    ∃ v, chanLevel s c ((i * P : Nat) : Int) = .ok v ∧
      (0 ≤ (i : Int) - d ∧ (i : Int) - d < n → quantise v W =
        (List.range W).map
          (fun k => s.readByte ((s.ch c).bufBase.toNat + ((i : Int) - d).toNat * W + k))) ∧
      (¬(0 ≤ (i : Int) - d ∧ (i : Int) - d < n) → quantise v W = quantise 0 W)

/-! ### DECODE -/

/-- DECODE, whole: when the regions are sound, the stream parses, HAZARD is 0, no region it accesses covers
a device (10_state.md R60) and the data and scratch bytes answer, it completes without error; channel c's sample f stands in scratch at
c·frames·W + f·W, copied from data offset (f·ch + c)·W; DEC_* hold the results; no other byte and no
other register changes (44_decode.md R228, R229, 60_exceptions.md R276). -/
def Obligations.DecodeCopiesChannels : Prop :=
  ∀ (s : State) (p : DecodePlan), checkDecode s = none → parseStream s = .ok p →
    s.defined (decodeTouched s p) →
    AllAnswer s.platform (s.cfg.inBase.toNat + p.dataOff) p.need →
    AllAnswer s.platform s.cfg.scrBase.toNat p.need →
    ∃ t, exec .decode s = .next t ∧ completesWith s t 0 0 0 ∧
      t.dec = ⟨BitVec.ofNat 64 p.channels, BitVec.ofNat 64 p.width, BitVec.ofNat 64 p.rate,
        BitVec.ofNat 64 (1000000000 / p.rate), BitVec.ofNat 64 p.frames,
        BitVec.ofNat 64 p.dataOff, BitVec.ofNat 64 p.dataLen⟩ ∧
      (∀ f c k, f < p.frames → c < p.channels → k < p.width →
        t.readByte (s.cfg.scrBase.toNat + c * p.frames * p.width + f * p.width + k) =
          s.readByte (s.cfg.inBase.toNat + p.dataOff + (f * p.channels + c) * p.width + k)) ∧
      keepsBytesOutside s t s.cfg.scrBase.toNat p.need ∧
      keepsSetup s t ∧ keepsDraws s t ∧ t.enc = s.enc ∧ t.eval = s.eval ∧ t.hazard = s.hazard

/-- The codec's round trip: decoding the stream ENCODE wrote gives its channel count, width, rate,
period, frame count, data offset and data length, and channel c's scratch region holds the quantised
levels of channel c in time order (43_encode.md R192, R196, 44_decode.md R228, R229). -/
def Obligations.EncodeDecodeRoundTrip : Prop :=
  ∀ (s t : State) (b l : Word), checkEncode s = none →
    s.defined (encodeTouched s (encodeParams s).total) →
    RegionsAnswer s.platform s.encodeRegions → exec .encode s = .next t →
    let p := encodeParams s
    let u : State := { t with cfg := { t.cfg with
      inBase := t.cfg.outBase, inLen := BitVec.ofNat 64 p.total, scrBase := b, scrLen := l } }
    checkDecode u = none → u.defined [inRegion u, scrRegion u] → p.dataLen ≤ l.toNat →
    AllAnswer u.platform b.toNat p.dataLen →
    ∃ v, exec .decode u = .next v ∧ completesWith u v 0 0 0 ∧
      v.dec = ⟨BitVec.ofNat 64 p.channels, BitVec.ofNat 64 p.width, BitVec.ofNat 64 p.rate,
        BitVec.ofNat 64 p.period, BitVec.ofNat 64 p.samples, 44, BitVec.ofNat 64 p.dataLen⟩ ∧
      (∀ i c, i < p.samples → c < p.channels →
        ∃ lv, chanLevel s c ((i * p.period : Nat) : Int) = .ok lv ∧
          ∀ k, k < p.width →
            v.readByte (b.toNat + c * p.samples * p.width + i * p.width + k) =
              (quantise lv p.width).getD k 0)

/-- A DECODE that fails before the copy leaves memory and DEC_* alone: only the record, the status and
the phase change, and HAZARD if the input region covers a device. A silent byte met while copying gives
BUS_ERROR, leaves DEC_* as they were, and makes the `need` bytes of scratch, and no others, free bytes; the
error is that of the first sample (f, c) in loop order whose bytes do not all answer: the silent address x
with x − IN_BASE for its read, and else with d + (f·ch + c)·W + j for the write of its byte j
(44_decode.md R228, R230, 60_exceptions.md R272, R275; free bytes as log entry 5). -/
def Obligations.DecodeFailureFrames : Prop :=
  (∀ (s : State) (e : Raise),
    (checkDecode s = some e ∨ (checkDecode s = none ∧ parseStream s = .error e)) →
    ∃ t, exec .decode s = .next t ∧ completesWith s t e.code.toWord e.info0 e.info1 ∧
      t.mem = s.mem ∧ t.dec = s.dec ∧ t.enc = s.enc ∧ t.eval = s.eval ∧
      keepsSetup s t ∧ keepsDraws s t) ∧
  (∀ (s : State) (p : DecodePlan), checkDecode s = none → parseStream s = .ok p →
    s.defined (decodeTouched s p) →
    let source := fun f c => s.cfg.inBase.toNat + (p.dataOff + (f * p.channels + c) * p.width)
    let target := fun f c => s.cfg.scrBase.toNat + c * p.frames * p.width + f * p.width
    let fails := fun t : State =>
      exec .decode s = .next t ∧ t.phase = .idle ∧ t.status = ⟨true, true, s.status.ovr⟩ ∧
      t.error.code = 5 ∧ t.dec = s.dec ∧
      (∀ x, s.cfg.scrBase.toNat ≤ x → x < s.cfg.scrBase.toNat + p.need →
        t.readByte x = Config.freeByte s.draws x) ∧
      keepsBytesOutside s t s.cfg.scrBase.toNat p.need ∧ keepsSetup s t ∧ t.enc = s.enc ∧
      t.eval = s.eval ∧ t.hazard = s.hazard
    (((∃ x, FirstSilent s.platform (s.cfg.inBase.toNat + p.dataOff) p.need x) ∨
      (∃ x, FirstSilent s.platform s.cfg.scrBase.toNat p.need x)) → ∃ t, fails t) ∧
    (∀ f c, f < p.frames → c < p.channels →
      (∀ f' c', c' < p.channels → f' * p.channels + c' < f * p.channels + c →
        AllAnswer s.platform (source f' c') p.width ∧ AllAnswer s.platform (target f' c') p.width) →
      (∀ x, FirstSilent s.platform (source f c) p.width x →
        ∃ t, fails t ∧ t.error = ⟨5, BitVec.ofNat 64 x, BitVec.ofNat 64 (x - s.cfg.inBase.toNat)⟩) ∧
      (∀ j, AllAnswer s.platform (source f c) p.width →
        FirstSilent s.platform (target f c) p.width (target f c + j) →
        ∃ t, fails t ∧ t.error = ⟨5, BitVec.ofNat 64 (target f c + j),
          BitVec.ofNat 64 (p.dataOff + (f * p.channels + c) * p.width + j)⟩)))

/-- DECODE never writes its input region, whatever happens (44_decode.md R230). -/
def Obligations.DecodeKeepsInput : Prop :=
  ∀ (s t : State) (x : Nat), exec .decode s = .next t → (inRegion s).has x = true →
    t.readByte x = s.readByte x

/-- The chunk search of 44_decode.md R219, as its own loop: fewer than 8 bytes left is
MALFORMED_HEADER(pos, n − pos); a chunk with the id is the answer; a body that runs past the end is
SHORT_READ; any other chunk is skipped by its declared length, with no pad byte. -/
def Obligations.ChunkSearchSkips : Prop :=
  ∀ (s : State) (id : List Byte) (pos : Nat), pos ≤ inLen s →
    findChunk s id (chunkFuel s) pos =
      if inLen s - pos < 8 then .error (streamError .malformedHeader pos (inLen s - pos))
      else
        match inRead s pos 8 with
        | .error e => .error e
        | .ok h =>
          if h.take 4 = id then .ok (pos + 8, field h 4 4)
          else if inLen s - (pos + 8) < field h 4 4 then
            .error (streamError .shortRead (pos + 8) (field h 4 4))
          else findChunk s id (chunkFuel s) (pos + 8 + field h 4 4)

/-- The error DECODE reports for the first thing wrong before the copy, step by step in the order of the
rules, with nothing but the record, the status, the phase and perhaps HAZARD changed: the regions (R216), the
RIFF header (R218), the search for "fmt " (R219; the search itself is `ChunkSearchSkips`), its length and its
read (R220), the validation in order (R221), the rest of its body (R222), the search for "data" (R223), the
divisibility (R224), the scratch capacity (R226) and the data's presence (R227); a stream with nothing wrong
parses to what R229 reports. A byte of the stream that does not answer is BUS_ERROR with its address and
stream offset where the read stands. And the fmt chunk passes validation exactly when the code is 1, the
channel count is 1 to 8, the width is supported, the rate is 1 to UNIT_TIME and the rest of the body is
present (44_decode.md R216 to R227, 60_exceptions.md R272, R278). -/
def Obligations.DecodeErrorsInOrder : Prop :=
  (∀ s : State,
    let inB := s.cfg.inBase.toNat
    let n := s.cfg.inLen.toNat
    let scB := s.cfg.scrBase.toNat
    let m := s.cfg.scrLen.toNat
    let stops := fun (code info0 info1 : Word) => ∃ t, exec .decode s = .next t ∧
      completesWith s t code info0 info1 ∧ t.mem = s.mem ∧ t.dec = s.dec ∧ t.enc = s.enc ∧
      t.eval = s.eval ∧ keepsSetup s t ∧ keepsDraws s t
    let reports := fun (code : Word) (off v : Nat) => stops code (BitVec.ofNat 64 off) (BitVec.ofNat 64 v)
    let raises := fun e : Raise => stops e.code.toWord e.info0 e.info1
    let answers := fun k l => AllAnswer s.platform (inB + k) l
    let bytes := fun k l => (List.range l).map (fun i => s.readByte (inB + k + i))
    let num := fun k l => uLE (bytes k l)
    let faults := fun k l => ∀ x, FirstSilent s.platform (inB + k) l x → reports 5 x (x - inB)
    let c1 := inB + n ≤ 2 ^ 64
    let c2 := scB + m ≤ 2 ^ 64
    let c3 := ¬(0 < n ∧ 0 < m ∧ inB < scB + m ∧ scB < inB + n)
    (¬c1 → stops 7 0x098 s.cfg.inLen) ∧
    (c1 → ¬c2 → stops 7 0x0A8 s.cfg.scrLen) ∧
    (c1 → c2 → ¬c3 → stops 7 0x0A0 s.cfg.scrBase) ∧
    (c1 → c2 → c3 →
      (n < 12 → reports 1 0 n) ∧
      (12 ≤ n → faults 0 12) ∧
      (12 ≤ n → answers 0 12 → bytes 0 4 ≠ [0x52, 0x49, 0x46, 0x46] → reports 1 0 (num 0 4)) ∧
      (12 ≤ n → answers 0 12 → bytes 0 4 = [0x52, 0x49, 0x46, 0x46] →
        bytes 8 4 ≠ [0x57, 0x41, 0x56, 0x45] → reports 1 8 (num 8 4)) ∧
      (12 ≤ n → answers 0 12 → bytes 0 4 = [0x52, 0x49, 0x46, 0x46] →
        bytes 8 4 = [0x57, 0x41, 0x56, 0x45] →
        (∀ e, findChunk s [0x66, 0x6D, 0x74, 0x20] (chunkFuel s) 12 = .error e → raises e) ∧
        (∀ p flen, findChunk s [0x66, 0x6D, 0x74, 0x20] (chunkFuel s) 12 = .ok (p, flen) →
          (flen < 16 → reports 1 (p - 8) flen) ∧
          (16 ≤ flen → n - p < 16 → reports 3 p 16) ∧
          (16 ≤ flen → 16 ≤ n - p → faults p 16) ∧
          (16 ≤ flen → 16 ≤ n - p → answers p 16 →
            let code := num p 2
            let ch := num (p + 2) 2
            let rate := num (p + 4) 4
            let bits := num (p + 14) 2
            let W := bits / 8
            let v1 := code = 1
            let v2 := 1 ≤ ch ∧ ch ≤ 8
            let v3 := bits ∈ [8, 16, 24, 32, 48, 64]
            let v4 := 1 ≤ rate ∧ rate ≤ 1000000000
            (¬v1 → reports 2 p code) ∧
            (v1 → ¬v2 → reports 2 (p + 2) ch) ∧
            (v1 → v2 → ¬v3 → reports 2 (p + 14) bits) ∧
            (v1 → v2 → v3 → ¬v4 → reports 2 (p + 4) rate) ∧
            (v1 → v2 → v3 → v4 → n - (p + 16) < flen - 16 → reports 3 (p + 16) (flen - 16)) ∧
            (v1 → v2 → v3 → v4 → flen - 16 ≤ n - (p + 16) →
              (∀ e, findChunk s [0x64, 0x61, 0x74, 0x61] (chunkFuel s) (p + flen) = .error e → raises e) ∧
              (∀ d dlen, findChunk s [0x64, 0x61, 0x74, 0x61] (chunkFuel s) (p + flen) = .ok (d, dlen) →
                let need := dlen / (ch * W) * ch * W
                (dlen % ch ≠ 0 → reports 2 (d - 4) dlen) ∧
                (dlen % ch = 0 → m < need → reports 7 0x0A8 need) ∧
                (dlen % ch = 0 → need ≤ m → n - d < need → reports 3 (d + (n - d) / W * W) need) ∧
                (dlen % ch = 0 → need ≤ m → need ≤ n - d →
                  checkDecode s = none ∧ parseStream s = .ok ⟨ch, W, rate, d, dlen⟩)))))))) ∧
  (∀ (s : State) (f : Fmt), checkFmt s f = none ↔
    (f.code = 1 ∧ 1 ≤ f.channels ∧ f.channels ≤ 8 ∧ f.bits ∈ [8, 16, 24, 32, 48, 64] ∧
     1 ≤ f.rate ∧ f.rate ≤ 1000000000 ∧ f.len - 16 ≤ inLen s - (f.body + 16)))

/-- The RIFF size, the byte rate and the block align are not checked: changing those bytes of the input
changes nothing DECODE reads from the stream (44_decode.md R231). -/
def Obligations.UncheckedFieldsIgnored : Prop :=
  ∀ (s : State) (f : Fmt) (m : Memory), readFmt s = .ok f → s.cfg.inBase.toNat + inLen s ≤ 2 ^ 64 →
    (∀ k, ¬(4 ≤ k ∧ k < 8) → ¬(f.body + 8 ≤ k ∧ k < f.body + 14) →
      ({ s with mem := m } : State).readByte (s.cfg.inBase.toNat + k) =
        s.readByte (s.cfg.inBase.toNat + k)) →
    parseStream { s with mem := m } = parseStream s

/-! ### GEN_EVAL -/

/-- GEN_EVAL, whole: for an existing channel, a supported width, a descriptor that passes its check, no
device in the buffer it reads with HAZARD = 0 (10_state.md R60) and a level that is read, EVAL_LEVEL is the level and EVAL_QUANT its quantised bytes as an unsigned number;
memory and every other register stay (45_control.md R256, 60_exceptions.md R276). -/
def Obligations.GenEvalGivesLevel : Prop :=
  ∀ (s : State) (ch : BitVec 8) (w : BitVec 4) (v : Int), ch.toNat < 8 →
    w.toNat ∈ [1, 2, 3, 4, 6, 8] → checkChannel ch.toNat (s.ch ch.toNat) = none →
    s.defined (evalTouched s ch.toNat) →
    chanLevel s ch.toNat s.cfg.evalTime.toInt = .ok v →
    ∃ t, exec (.genEval ch w) s = .next t ∧ completesWith s t 0 0 0 ∧
      t.eval.level = BitVec.ofInt 64 v ∧ t.eval.quant.toNat = uLE (quantise v w.toNat) ∧
      t.mem = s.mem ∧ t.enc = s.enc ∧ t.dec = s.dec ∧ t.hazard = s.hazard ∧
      keepsSetup s t ∧ keepsDraws s t

/-- GEN_EVAL's errors in order: a channel that does not exist, an unsupported width, the descriptor's
check, a silent buffer byte; none writes EVAL_LEVEL or EVAL_QUANT (45_control.md R256). -/
def Obligations.GenEvalErrorsInOrder : Prop :=
  ∀ (s : State) (ch : BitVec 8) (w : BitVec 4),
    let stops := fun (code i0 i1 : Word) => ∃ t, exec (.genEval ch w) s = .next t ∧
      completesWith s t code i0 i1 ∧ t.eval = s.eval ∧ t.mem = s.mem ∧ t.enc = s.enc ∧ t.dec = s.dec ∧
      keepsSetup s t ∧ keepsDraws s t
    let c1 := ch.toNat < 8
    let c2 := w.toNat ∈ [1, 2, 3, 4, 6, 8]
    (¬c1 → stops 6 0x030 (BitVec.ofNat 64 (w.toNat * 65536 + ch.toNat * 256 + 3))) ∧
    (c1 → ¬c2 → stops 4 0x030 (BitVec.ofNat 64 w.toNat)) ∧
    (∀ e, c1 → c2 → checkChannel ch.toNat (s.ch ch.toNat) = some e →
      stops e.code.toWord e.info0 e.info1) ∧
    (∀ x, c1 → c2 → checkChannel ch.toNat (s.ch ch.toNat) = none →
      chanLevel s ch.toNat s.cfg.evalTime.toInt = .error x →
      stops 5 (BitVec.ofNat 64 x) (BitVec.ofNat 64 (x - (s.ch ch.toNat).bufBase.toNat)))

/-! ### Numbers, generators and the buffer source -/

/-- Q(Dq(b, W), W) = b for every width and every W bytes (40_numeric.md R130). -/
def Obligations.QuantiseOfDequantise : Prop :=
  ∀ (W : Nat) (b : List Byte), W ∈ Config.widths → b.length = W → quantise (dequantise b W) W = b

/-- Dq(Q(v, W), W) = v − emod(v, 2^k(W)) for every 64-bit level, so the error lies in [0, 2^k(W))
(40_numeric.md R131). -/
def Obligations.DequantiseOfQuantise : Prop :=
  ∀ (W : Nat) (v : Int), W ∈ Config.widths → -2 ^ 63 ≤ v → v < 2 ^ 63 →
    dequantise (quantise v W) W = v - v % 2 ^ (64 - 8 * W) ∧
    0 ≤ v - dequantise (quantise v W) W ∧ v - dequantise (quantise v W) W < 2 ^ (64 - 8 * W)

/-- Every entry of SINE_LUT is within 1/2 of UNIT_LEVEL · sin(2πk/4096), so it is the nearest integer,
there being no ties (10_state.md R55, 41_generators.md R151). -/
def Obligations.SineTableIsNearest : Prop :=
  ∀ k : Nat, k < 4096 →
    |((sineLut k : Int) : ℝ) - 9223372036854775807 * Real.sin (2 * Real.pi * k / 4096)| ≤ 1 / 2

/-- The identities of the sine table, its range, and the 16 points m·P/16 of a period that is a multiple
of 16, which select the entries 256·m (41_generators.md R151, R154). -/
def Obligations.SineTableIdentities : Prop :=
  sineLut 0 = 0 ∧ sineLut 2048 = 0 ∧ sineLut 1024 = Config.unitLevel ∧
  sineLut 3072 = -Config.unitLevel ∧
  (∀ k, k < 2048 → sineLut (k + 2048) = -sineLut k) ∧
  (∀ k, k ≤ 2048 → sineLut (2048 - k) = sineLut k) ∧
  (∀ k, k < 4096 → -Config.unitLevel ≤ sineLut k ∧ sineLut k ≤ Config.unitLevel) ∧
  (∀ (q : Int) (m : Nat), 0 < q → m < 16 → sineLevel (16 * q) (m * q) = sineLut (256 * m))

/-- The phase lies in [0, P), and SINE and SQUARE are periodic over the whole time axis
(41_generators.md R144). -/
def Obligations.PeriodicSources : Prop :=
  ∀ P τ m : Int, 1 ≤ P → 0 ≤ emod τ P ∧ emod τ P < P ∧
    sineLevel P (τ + m * P) = sineLevel P τ ∧ squareLevel P (τ + m * P) = squareLevel P τ

/-- RAMP_UP and RAMP_DOWN sum to full scale, RAMP_UP never falls and RAMP_DOWN never rises
(41_generators.md R162 (b), R165 (a), (c)). -/
def Obligations.RampsComplementAndMonotone : Prop :=
  ∀ D σ τ : Int, 1 ≤ D → rampUpLevel D τ + rampDownLevel D τ = 9223372036854775807 ∧
    (σ ≤ τ → rampUpLevel D σ ≤ rampUpLevel D τ ∧ rampDownLevel D τ ≤ rampDownLevel D σ)

/-- After the channel's check passes, the level of each kind at source time τ is the formula of its rule
(41_generators.md R150, R152, R155, R158, R161, R164). -/
def Obligations.SourceLevelFormulas : Prop :=
  ∀ (s : State) (c : Nat) (d : Channel) (τ : Int), checkChannel c d = none →
    let p := d.param.toInt
    let U : Int := 9223372036854775807
    (d.src = 0 → srcLevel s d τ = .ok 0) ∧
    (d.src = 1 → srcLevel s d τ = .ok (sineLut (τ % p * 4096 / p).toNat)) ∧
    (d.src = 2 → srcLevel s d τ = .ok (if 0 ≤ τ ∧ τ < p then U else 0)) ∧
    (d.src = 3 → srcLevel s d τ = .ok (if 2 * (τ % p) < p then U else -U)) ∧
    (d.src = 4 → srcLevel s d τ = .ok (if τ ≤ 0 then 0 else if p ≤ τ then U else U * τ / p)) ∧
    (d.src = 5 → srcLevel s d τ = .ok (if τ ≤ 0 then U else if p ≤ τ then 0 else U - U * τ / p))

/-- A BUFFER channel gives the dequantised sample at floor(τ / BP) and reads exactly its bytes; outside
the buffer it gives 0 and reads nothing (42_pcm_buffer.md R172, R174, R175). -/
def Obligations.BufferLevels : Prop :=
  ∀ (s : State) (c : Nat) (d : Channel) (τ : Int), checkChannel c d = none → d.src = 6 →
    let n := d.bufLen.toNat / d.bufWidth.toNat
    let idx := τ / d.bufPeriod.toInt
    let a := d.bufBase.toNat + idx.toNat * d.bufWidth.toNat
    (0 ≤ idx → idx < n → AllAnswer s.platform a d.bufWidth.toNat →
      srcLevel s d τ = .ok (dequantise ((List.range d.bufWidth.toNat).map (fun k => s.readByte (a + k)))
        d.bufWidth.toNat)) ∧
    (∀ x, 0 ≤ idx → idx < n → FirstSilent s.platform a d.bufWidth.toNat x → srcLevel s d τ = .error x) ∧
    (¬(0 ≤ idx ∧ idx < n) → srcLevel s d τ = .ok 0)

/-- Every level lies in [−2^63, 2^63 − 1], and in [−UNIT_LEVEL, UNIT_LEVEL] for a generator
(40_numeric.md R121). -/
def Obligations.LevelsInRange : Prop :=
  ∀ (s : State) (c : Nat) (d : Channel) (τ v : Int), checkChannel c d = none →
    srcLevel s d τ = .ok v →
    -2 ^ 63 ≤ v ∧ v ≤ 2 ^ 63 - 1 ∧ (d.src ≠ 6 → -(2 ^ 63 - 1) ≤ v)

/-- The channel delay: the level at t is the source's level at the 64-bit time congruent to
t − CH_DELAY modulo 2^64, and at t − CH_DELAY itself when that fits (41_generators.md R147). -/
def Obligations.DelayWraps : Prop :=
  ∀ (s : State) (c : Nat) (t : Int), ∃ τ, chanLevel s c t = srcLevel s (s.ch c) τ ∧
    -2 ^ 63 ≤ τ ∧ τ < 2 ^ 63 ∧ (2 ^ 64 : Int) ∣ (t - (s.ch c).delay.toInt) - τ ∧
    (-2 ^ 63 ≤ t - (s.ch c).delay.toInt → t - (s.ch c).delay.toInt < 2 ^ 63 →
      τ = t - (s.ch c).delay.toInt)

/-! ### Source kinds and resets as instructions -/

/-- On an idle block each source-kind instruction makes its kind the source of its channel and changes
nothing else (10_state.md R47, R53, 30_encoding.md R101). -/
def Obligations.SourceKindsSelect : Prop :=
  ∀ (s : State) (c : Nat), s.phase = .idle → c < 8 →
    selects (.srcNone c) c .none s ∧ selects (.srcSine c) c .sine s ∧
    selects (.srcPulse c) c .pulse s ∧ selects (.srcSquare c) c .square s ∧
    selects (.srcRampUp c) c .rampUp s ∧ selects (.srcRampDown c) c .rampDown s ∧
    selects (.srcBuffer c) c .buffer s

/-- Where a source-kind instruction is turned away: while a command runs it only sets OVR (10_state.md
R53), and beyond the channel file, where the instruction has no encoding, nothing happens (the model's
reading of the reserved offsets of R54, log entry 12). -/
def Obligations.SourceKindsTurnedAway : Prop :=
  ∀ (s : State) (i : Instr) (c : Nat) (k : SourceKind), selectedSource i = some (c, k) →
    (∀ v, s.phase = .running v → c < 8 →
      exec i s = .next { s with status := ⟨s.status.done, s.status.err, true⟩ }) ∧
    (8 ≤ c → exec i s = .next s)

/-- SRST, from every state: every register reads its reset value and the engine is idle; HAZARD stays;
memory stays but for the destination of an aborted command, whose bytes are free
(45_control.md R262, R263, 70_reset_and_hazards.md R302). Which bytes an aborted ENCODE's destination has
when its length is not defined is the model's choice (log entry 10). -/
def Obligations.SoftResetRestoresBlock : Prop :=
  ∀ s : State, ∃ t, exec .srst s = .next t ∧ t.phase = .idle ∧
    (∀ r : Reg, regRead t r = regRead State.reset r) ∧ t.hazard = s.hazard ∧
    t.platform = s.platform ∧ t.inputs = s.inputs ∧ t.resp = s.resp ∧
    (∀ x, (∀ r, s.dest = some r → r.has x = false) → t.readByte x = s.readByte x) ∧
    (∀ r x, s.dest = some r → r.has x = true → t.readByte x = Config.freeByte s.draws x)

/-- At reset the host reads ID, CAP and UNITT as their constants and 0 at every other aligned offset, the
reserved ones among them; IRQ is low, HAZARD is false and the engine is idle. The hard reset makes it so from
every state (10_state.md R24, R25, 70_reset_and_hazards.md R301). -/
def Obligations.HardResetRestoresBlock : Prop :=
  (∀ (off : BitVec 12) (es : List Event), off.toNat % 8 = 0 →
    ∃ t, step { State.reset with inputs := .host (hostRead off) :: es } = .next t ∧
      t.resp = .value (if off = 0x000 then 0x000000074D435053
        else if off = 0x008 then 0x0000015E40400C08
        else if off = 0x010 then 0x000000003B9ACA00 else 0)) ∧
  State.reset.irq = false ∧ State.reset.hazard = false ∧ State.reset.phase = .idle ∧
  (∀ (s : State) (es : List Event), s.inputs = .host .hardReset :: es →
    ∃ t, step s = .next t ∧ t.phase = .idle ∧ (∀ r : Reg, regRead t r = regRead State.reset r) ∧
      t.irq = false ∧ t.hazard = false ∧ t.inputs = es)

/-- Commands on the reset state, written by the host and run by the engine (70_reset_and_hazards.md
R304). -/
def Obligations.CommandsOnReset : Prop :=
  let after := fun (w : Word) => Host.Core.run Sys2Proof.core 2
    ({ State.reset with inputs := [.host (hostWrite 0x030 w), .engine] } : State)
  (∃ t : State, after 1 = .next t ∧ t.error = ⟨4, 0x058, 0⟩) ∧
  (∃ t : State, after 2 = .next t ∧ t.error = ⟨1, 0, 0⟩) ∧
  (∃ t : State, after 0x10003 = .next t ∧ t.error = ⟨0, 0, 0⟩ ∧ t.eval = ⟨0, 0x80⟩) ∧
  (∃ t : State, after 0 = .next t ∧ statusWord t = 0x2)

/-! ### Registers and the host's accesses -/

/-- The register map as the numbers of its table: the 32 fixed registers, the seven of each of the eight
channels, and no register at a descriptor's last slot, from 0x300 on or at an offset that is no multiple of
8; so every offset names at most one register, and `Reg.offset`, off(NAME) in the errors, is the offset of
the table. And what each register reads: the constants, the bits of STATUS and IRQ_EN at their places, 0 for
the write-only ones, and for each of the others the field of the state that holds it (10_state.md R25 to
R52, R54, R56). -/
def Obligations.RegisterMapExact : Prop :=
  regAt 0x000 = some .id ∧ regAt 0x008 = some .cap ∧
  regAt 0x010 = some .unitt ∧ regAt 0x018 = some .ctrl ∧
  regAt 0x020 = some .status ∧ regAt 0x028 = some .irqEn ∧
  regAt 0x030 = some .cmd ∧ regAt 0x038 = some .errCode ∧
  regAt 0x040 = some .errInfo0 ∧ regAt 0x048 = some .errInfo1 ∧
  regAt 0x050 = some .encChannels ∧ regAt 0x058 = some .encWidth ∧
  regAt 0x060 = some .encRate ∧ regAt 0x068 = some .encLength ∧
  regAt 0x070 = some .outBase ∧ regAt 0x078 = some .outLen ∧
  regAt 0x080 = some .encSamples ∧ regAt 0x088 = some .encBytes ∧
  regAt 0x090 = some .inBase ∧ regAt 0x098 = some .inLen ∧
  regAt 0x0A0 = some .scrBase ∧ regAt 0x0A8 = some .scrLen ∧
  regAt 0x0B0 = some .decChannels ∧ regAt 0x0B8 = some .decWidth ∧
  regAt 0x0C0 = some .decRate ∧ regAt 0x0C8 = some .decPeriod ∧
  regAt 0x0D0 = some .decFrames ∧ regAt 0x0D8 = some .decDataOff ∧
  regAt 0x0E0 = some .decDataLen ∧ regAt 0x0E8 = some .evalTime ∧
  regAt 0x0F0 = some .evalLevel ∧ regAt 0x0F8 = some .evalQuant ∧
  (∀ c : Nat, c < 8 →
    regAt (BitVec.ofNat 12 (0x100 + 0x40 * c)) = some (.ch c .src) ∧
    regAt (BitVec.ofNat 12 (0x108 + 0x40 * c)) = some (.ch c .param) ∧
    regAt (BitVec.ofNat 12 (0x110 + 0x40 * c)) = some (.ch c .delay) ∧
    regAt (BitVec.ofNat 12 (0x118 + 0x40 * c)) = some (.ch c .bufBase) ∧
    regAt (BitVec.ofNat 12 (0x120 + 0x40 * c)) = some (.ch c .bufLen) ∧
    regAt (BitVec.ofNat 12 (0x128 + 0x40 * c)) = some (.ch c .bufWidth) ∧
    regAt (BitVec.ofNat 12 (0x130 + 0x40 * c)) = some (.ch c .bufPeriod) ∧
    regAt (BitVec.ofNat 12 (0x138 + 0x40 * c)) = none) ∧
  (∀ off : BitVec 12, 0x300 ≤ off.toNat ∨ off.toNat % 8 ≠ 0 → regAt off = none) ∧
  (∀ (off : BitVec 12) (r : Reg), regAt off = some r → r.offset = off.toNat) ∧
  (∀ r : Reg, (∀ c q, r = .ch c q → c < 8) → regAt (BitVec.ofNat 12 r.offset) = some r) ∧
  (∀ s : State,
    regRead s .id = 0x000000074D435053 ∧ regRead s .cap = 0x0000015E40400C08 ∧
    regRead s .unitt = 0x000000003B9ACA00 ∧ regRead s .ctrl = 0 ∧ regRead s .cmd = 0 ∧
    (∀ k, (regRead s .status).getLsbD k =
      ((k = 0 && s.phase ≠ .idle) || (k = 1 && s.status.done) || (k = 2 && s.status.err) ||
        (k = 3 && s.status.ovr))) ∧
    (∀ k, (regRead s .irqEn).getLsbD k = s.irqEn.getLsbD k) ∧
    regRead s .errCode = s.error.code ∧ regRead s .errInfo0 = s.error.info0 ∧
    regRead s .errInfo1 = s.error.info1 ∧ regRead s .encChannels = s.cfg.encChannels ∧
    regRead s .encWidth = s.cfg.encWidth ∧ regRead s .encRate = s.cfg.encRate ∧
    regRead s .encLength = s.cfg.encLength ∧ regRead s .outBase = s.cfg.outBase ∧
    regRead s .outLen = s.cfg.outLen ∧ regRead s .encSamples = s.enc.samples ∧
    regRead s .encBytes = s.enc.bytes ∧ regRead s .inBase = s.cfg.inBase ∧
    regRead s .inLen = s.cfg.inLen ∧ regRead s .scrBase = s.cfg.scrBase ∧
    regRead s .scrLen = s.cfg.scrLen ∧ regRead s .decChannels = s.dec.channels ∧
    regRead s .decWidth = s.dec.width ∧ regRead s .decRate = s.dec.rate ∧
    regRead s .decPeriod = s.dec.period ∧ regRead s .decFrames = s.dec.frames ∧
    regRead s .decDataOff = s.dec.dataOff ∧ regRead s .decDataLen = s.dec.dataLen ∧
    regRead s .evalTime = s.cfg.evalTime ∧ regRead s .evalLevel = s.eval.level ∧
    regRead s .evalQuant = s.eval.quant ∧
    (∀ c : Nat,
      regRead s (.ch c .src) = (s.ch c).src ∧ regRead s (.ch c .param) = (s.ch c).param ∧
      regRead s (.ch c .delay) = (s.ch c).delay ∧ regRead s (.ch c .bufBase) = (s.ch c).bufBase ∧
      regRead s (.ch c .bufLen) = (s.ch c).bufLen ∧ regRead s (.ch c .bufWidth) = (s.ch c).bufWidth ∧
      regRead s (.ch c .bufPeriod) = (s.ch c).bufPeriod))

/-- A write to a configuration register of an idle block stores all 64 bits, and no other register and
no byte of memory changes (10_state.md R53). -/
def Obligations.ConfigWriteStores : Prop :=
  ∀ (s : State) (off : BitVec 12) (r : Reg) (w : Word) (es : List Event),
    s.phase = .idle → regAt off = some r → r.isConfig = true →
    s.inputs = .host (hostWrite off w) :: es →
    ∃ t, step s = .next t ∧ regRead t r = w ∧ (∀ q, q ≠ r → regRead t q = regRead s q) ∧
      t.phase = .idle ∧ t.mem = s.mem ∧ t.hazard = s.hazard ∧ keepsDraws s t ∧
      t.platform = s.platform ∧ t.inputs = es ∧ t.resp = .written

/-- A write to a configuration register while a command runs is dropped and sets OVR; nothing else
changes. This is where the source-kind instructions are turned away (10_state.md R53,
70_reset_and_hazards.md R315). -/
def Obligations.BusyConfigWriteDropped : Prop :=
  ∀ (s : State) (v : Word) (off : BitVec 12) (r : Reg) (w : Word) (es : List Event),
    s.phase = .running v → regAt off = some r → r.isConfig = true →
    s.inputs = .host (hostWrite off w) :: es →
    step s = .next { s with
      inputs := es, resp := .written, status := ⟨s.status.done, s.status.err, true⟩ }

/-- A write to a read-only register, a reserved offset or a reserved field is ignored and sets no status
bit, and so is a CTRL write without bit 0; a write-only register reads 0; an access that is not an aligned 64-bit one gets the host bus's error
response and changes no state of the block (10_state.md R24, R30, R54). -/
def Obligations.IgnoredAndRefusedAccesses : Prop :=
  (∀ (s : State) (off : BitVec 12) (w : Word) (es : List Event), off.toNat % 8 = 0 →
    (regAt off = none ∨ ∃ r, regAt off = some r ∧
      (r = .id ∨ r = .cap ∨ r = .unitt ∨ r = .errCode ∨ r = .errInfo0 ∨ r = .errInfo1 ∨
        r.isResult = true)) →
    s.inputs = .host (hostWrite off w) :: es →
    step s = .next { s with inputs := es, resp := .written }) ∧
  (∀ (s : State) (k : Nat), 4 ≤ k → (regRead s .status).getLsbD k = false) ∧
  (∀ (s : State) (k : Nat), 3 ≤ k → (regRead s .irqEn).getLsbD k = false) ∧
  (∀ s : State, regRead s .cmd = 0 ∧ regRead s .ctrl = 0) ∧
  (∀ (s : State) (w : Word) (es : List Event), w.getLsbD 0 = false →
    s.inputs = .host (hostWrite 0x018 w) :: es →
    step s = .next { s with inputs := es, resp := .written }) ∧
  (∀ (s : State) (dir : Dir) (size : Nat) (off : BitVec 12) (w : Word) (es : List Event),
    s.inputs = .host (.csr dir size off w) :: es → (size ≠ 8 ∨ off.toNat % 8 ≠ 0) →
    step s = .next { s with inputs := es, resp := .busError })

/-- A write to STATUS clears the W1C bits whose data bit is 1, leaves the others and BUSY, a write to
IRQ_EN stores bits [2:0] and discards the rest; neither is ever dropped and neither changes anything else
(10_state.md R29, R31). -/
def Obligations.StatusAndEnableWrites : Prop :=
  (∀ (s : State) (w : Word) (es : List Event), s.inputs = .host (hostWrite 0x020 w) :: es →
    ∃ t, step s = .next t ∧
      (∀ k, k < 64 → (statusWord t).getLsbD k =
        ((statusWord s).getLsbD k && !(decide (1 ≤ k ∧ k ≤ 3) && w.getLsbD k))) ∧
      t = { s with inputs := es, resp := .written, status := t.status }) ∧
  (∀ (s : State) (w : Word) (es : List Event), s.inputs = .host (hostWrite 0x028 w) :: es →
    ∃ t, step s = .next t ∧ regRead t .irqEn = w &&& 7 ∧
      t = { s with inputs := es, resp := .written, irqEn := t.irqEn })

/-- The IRQ line as a function of the words the host reads in STATUS and IRQ_EN (60_exceptions.md R280). -/
def Obligations.InterruptLine : Prop :=
  ∀ s : State, s.irq =
    (((statusWord s).getLsbD 1 && (regRead s .irqEn).getLsbD 0) ||
     ((statusWord s).getLsbD 2 && (regRead s .irqEn).getLsbD 1) ||
     ((statusWord s).getLsbD 3 && (regRead s .irqEn).getLsbD 2))

/-- What the host's reads return. An aligned read of a register that is no result, or of any register of an
idle block, returns its content, and one of a reserved offset 0; nothing but the response changes. While a
command runs, a result register reads as 0 or as the value it has in the state the command completes in; the
read changes nothing but the response and the draw counter. A read of n bytes of memory returns what memory
holds at each of them on an idle block, and while a command runs at each byte outside its destination, whose
own bytes read as free bytes of one new draw; nothing but the response and the draw counter changes. The
destination is [OUT_BASE, OUT_BASE + 44 + N·C·W) of an ENCODE, [SCR_BASE, SCR_BASE + SCR_LEN) of a DECODE,
and no other command has one (10_state.md R24, R25, R54, 70_reset_and_hazards.md R311, R317, 20_memory.md
R84; which of the two values, and the free bytes, as log entry 6; nothing is said of the destination of an
ENCODE for which N is not defined, log entry 10). That a memory read returns what memory holds at every
address, also one that does not answer to the engine, is a device's or lies in the CSR window, is the model's
choice (log entry 8), and that it is so whatever HAZARD is, too (log entry 18). -/
def Obligations.HostReads : Prop :=
  (∀ (s : State) (off : BitVec 12) (es : List Event), s.inputs = .host (hostRead off) :: es →
    (∀ r, regAt off = some r → s.phase = .idle ∨ r.isResult = false →
      step s = .next { s with inputs := es, resp := .value (regRead s r) }) ∧
    (off.toNat % 8 = 0 → regAt off = none →
      step s = .next { s with inputs := es, resp := .value 0 })) ∧
  (∀ (s t : State) (v : Word) (off : BitVec 12) (r : Reg) (es : List Event), s.phase = .running v →
    regAt off = some r → r.isResult = true → s.inputs = .host (hostRead off) :: es →
    engineTurn { s with inputs := es } = .next t →
    ∃ u, step s = .next u ∧ (u.resp = .value 0 ∨ u.resp = .value (regRead t r)) ∧
      u = { s with inputs := es, resp := u.resp, draws := u.draws }) ∧
  (∀ (s : State) (a : Word) (n : Nat) (es : List Event), a.toNat + n ≤ 2 ^ 64 →
    s.inputs = .host (.memRead a n) :: es →
    ∃ u bs, step s = .next u ∧ u.resp = .bytes bs ∧ bs.length = n ∧
      u = { s with inputs := es, resp := u.resp, draws := u.draws } ∧
      ∀ k, k < n →
        (s.phase = .idle ∨ (∀ d, s.dest = some d → d.has (a.toNat + k) = false) →
          bs[k]? = some (s.readByte (a.toNat + k))) ∧
        (∀ d, s.dest = some d → d.has (a.toNat + k) = true →
          bs[k]? = some (Config.freeByte s.draws (a.toNat + k)))) ∧
  (∀ (s : State) (w : Word) (i : Instr), s.phase = .running w → decodeCmd w = .ok i →
    let p := encodeParams s
    (i = .encode → 1 ≤ p.rate → p.rate ≤ 1000000000 → 0 ≤ s.cfg.encLength.toInt →
      s.dest = some ⟨s.cfg.outBase.toNat, 44 + p.samples * p.channels * p.width⟩) ∧
    (i = .decode → s.dest = some ⟨s.cfg.scrBase.toNat, s.cfg.scrLen.toNat⟩) ∧
    (i ≠ .encode → i ≠ .decode → s.dest = none))

/-- A host memory write to an idle block is read back, changes no other byte, no register and no mark
(20_memory.md R71, R83, R84). That it is so at every address, also one that does not answer to the engine,
is a device's or lies in the CSR window, is the model's choice (log entry 8), and that it is so whatever
HAZARD is, too (log entry 18). -/
def Obligations.HostMemoryReadsBack : Prop :=
  ∀ (s : State) (a : Word) (bs : List Byte) (es : List Event), s.phase = .idle →
    a.toNat + bs.length ≤ 2 ^ 64 →
    s.inputs = .host (.memWrite a bs) :: .host (.memRead a bs.length) :: es →
    ∃ t u, step s = .next t ∧ step t = .next u ∧ u.resp = .bytes bs ∧
      keepsBytesOutside s u a.toNat bs.length ∧ (∀ r, regRead u r = regRead s r) ∧ u.inputs = es ∧
      u.hazard = s.hazard

/-! ### Whole-machine rules -/

/-- Every step keeps the invariant: memory canonical, free draws fresh, ERRCODE a listed code, a record
without error all zero, ERR only with an error code, and no completion bits or record while a command
runs (20_memory.md R71, 60_exceptions.md R271, R276, 45_control.md R251). -/
def Obligations.StepKeepsInvariant : Prop :=
  ∀ s t : State, s.Inv → step s = .next t → t.Inv

/-- The reset state has the invariant (70_reset_and_hazards.md R301). -/
def Obligations.ResetHasInvariant : Prop := State.reset.Inv

/-- The phase changes only at acceptance, at completion and at reset: from IDLE only a host's CMD write
starts a command, and its word is that of the write; from RUNNING the phase either stays or becomes
IDLE, and then either DONE is set or a reset was the input (10_state.md R56). -/
def Obligations.PhaseChanges : Prop :=
  ∀ s t : State, step s = .next t →
    (∀ w, s.phase = .idle → t.phase = .running w →
      ∃ es, s.inputs = .host (hostWrite 0x030 w) :: es ∨ s.inputs = .both (hostWrite 0x030 w) :: es) ∧
    (∀ v, s.phase = .running v → t.phase = .running v ∨
      (t.phase = .idle ∧ (t.status.done = true ∨
        ∃ a es, (s.inputs = .host a :: es ∨ s.inputs = .both a :: es) ∧
          (a = .hardReset ∨ ∃ w, a = hostWrite 0x018 w ∧ w.getLsbD 0 = true))))

/-- Every command word completes when it is the engine's turn: DONE is set, ERR is set exactly when ERRCODE
is not 0, OVR is kept, no configuration register, no channel register and not IRQ_EN changes, and HAZARD is
not cleared (60_exceptions.md R275, R276, R277, 10_state.md R60). That one engine step completes it is the
model's choice, which 70_reset_and_hazards.md R322 allows (log entry 3). That it also completes with no
input left, where 00_scope.md R20 defines no end state, is the model's reading of R321 (log entry 17). -/
def Obligations.EveryCommandCompletes : Prop :=
  ∀ (s : State) (w : Word), s.phase = .running w →
    let completes := fun (es : List Event) =>
      ∃ t, step s = .next t ∧ t.phase = .idle ∧ t.status.done = true ∧
        (t.status.err = true ↔ t.error.code ≠ 0) ∧ t.status.ovr = s.status.ovr ∧
        keepsSetup { s with inputs := es } t ∧ (s.hazard = true → t.hazard = true)
    (∀ es, s.inputs = .engine :: es → completes es) ∧ (s.inputs = [] → completes [])

/-- Which command can report which error (60_exceptions.md R273). -/
def Obligations.ErrorsOfCommands : Prop :=
  ∀ s t : State,
    (exec .nop s = .next t → t.error.code = 0) ∧
    (exec .encode s = .next t →
      t.error.code = 0 ∨ t.error.code = 2 ∨ t.error.code = 4 ∨ t.error.code = 5 ∨ t.error.code = 7) ∧
    (exec .decode s = .next t →
      t.error.code = 0 ∨ t.error.code = 1 ∨ t.error.code = 2 ∨ t.error.code = 3 ∨ t.error.code = 5 ∨
        t.error.code = 7) ∧
    (∀ ch w, exec (.genEval ch w) s = .next t →
      t.error.code = 0 ∨ t.error.code = 4 ∨ t.error.code = 5 ∨ t.error.code = 6 ∨ t.error.code = 7)

/-- The host's access and the completion in one step: a STATUS write that clears DONE loses to the
completion; a CMD or configuration write is dropped with OVR and the command still completes; a soft
reset comes first and there is no completion (60_exceptions.md R279, 70_reset_and_hazards.md R314). -/
def Obligations.AccessBeforeCompletion : Prop :=
  ∀ (s : State) (v w : Word) (es : List Event), s.phase = .running v →
    (s.inputs = .both (hostWrite 0x020 w) :: es →
      ∃ t, step s = .next t ∧ t.phase = .idle ∧ t.status.done = true ∧
        (t.status.err = true ↔ t.error.code ≠ 0)) ∧
    (s.inputs = .both (hostWrite 0x030 w) :: es →
      ∃ t, step s = .next t ∧ t.phase = .idle ∧ t.status.done = true ∧ t.status.ovr = true) ∧
    (∀ off r, regAt off = some r → r.isConfig = true → s.inputs = .both (hostWrite off w) :: es →
      ∃ t, step s = .next t ∧ t.phase = .idle ∧ t.status.done = true ∧ t.status.ovr = true ∧
        regRead t r = regRead s r) ∧
    (s.inputs = .both (hostWrite 0x018 1) :: es →
      ∃ t, step s = .next t ∧ t.phase = .idle ∧ t.status = ⟨false, false, false⟩ ∧
        t.error = ⟨0, 0, 0⟩)

/-- What sets HAZARD from outside the engine, exactly. A host write does when it touches a byte the running
command reads or writes (70_reset_and_hazards.md R310, R313; an ENCODE's destination as log entry 10 has it).
Another master's write does when it touches such a byte or one of a region the host named for the command
(R312, log entry 9); that the host is no such master, so that its write to another byte of a named region sets
no mark, is the model's choice (log entry 22). A platform change does when, inside such a region, an address starts or stops answering, or a device
comes or goes (R312, 20_memory.md R73; log entry 9). -/
def Obligations.OutsideAccessSetsHazard : Prop :=
  (∀ (s : State) (a : Word) (bs : List Byte) (es : List Event) (other : Bool),
    s.inputs = .host (if other then .masterWrite a bs else .memWrite a bs) :: es →
    a.toNat + bs.length ≤ 2 ^ 64 →
    ∃ t, step s = .next t ∧ t.phase = s.phase ∧ keepsBytesOutside s t a.toNat bs.length ∧
      (t.hazard = true ↔ s.hazard = true ∨
        ∃ r x, (r ∈ s.guarded ∨ (other = true ∧ r ∈ s.named)) ∧ r.has x = true ∧
          a.toNat ≤ x ∧ x < a.toNat + bs.length)) ∧
  (∀ (s : State) (p : Platform) (es : List Event), s.inputs = .host (.platformChange p) :: es →
    ∃ t, step s = .next t ∧ t.platform = p ∧
      (t.hazard = true ↔ s.hazard = true ∨
        ∃ r ∈ s.named, (∃ x, r.has x = true ∧ p.memOK x ≠ s.platform.memOK x) ∨
          ¬(p.CoversDevice r ↔ s.platform.CoversDevice r)) ∧
      t = { s with platform := p, inputs := es, hazard := t.hazard })

/-- HAZARD and the engine. A command sets it exactly when it accesses a region that covers a device or the
CSR window, the region being the one the host named (70_reset_and_hazards.md R312, 20_memory.md R79). An
ENCODE whose checks pass accesses its output, and the buffer of each channel of which it evaluates a sample,
up to the one the stream stopped at, whose time falls inside the buffer. A DECODE whose regions pass accesses
its input when the stream has 12 bytes, and its scratch when the stream parses, holds a frame and the first
sample is read. A GEN_EVAL whose checks pass accesses the buffer when EVAL_TIME falls inside it. No other
command does. An access counts though no byte of it answers (log entry 9). HAZARD, once set, stays until a
hard reset; a soft reset does not change it (10_state.md R60, 70_reset_and_hazards.md R302). -/
def Obligations.DeviceAccessSetsHazard : Prop :=
  (∀ s t : State, exec .encode s = .next t →
    let p := encodeParams s
    t.hazard = true ↔ s.hazard = true ∨ (checkEncode s = none ∧
      (s.platform.CoversDevice ⟨s.cfg.outBase.toNat, s.cfg.outLen.toNat⟩ ∨
        ∃ i c, i < p.samples ∧ c < p.channels ∧ (s.ch c).src = 6 ∧
          44 + (i * p.channels + c) * p.width ≤ t.enc.bytes.toNat ∧
          bufferSample (s.ch c) (sourceTime (s.ch c) ((i * p.period : Nat) : Int)) ≠ none ∧
          s.platform.CoversDevice ⟨(s.ch c).bufBase.toNat, (s.ch c).bufLen.toNat⟩))) ∧
  (∀ s t : State, exec .decode s = .next t →
    (t.hazard = true ↔ s.hazard = true ∨ (checkDecode s = none ∧
      ((12 ≤ s.cfg.inLen.toNat ∧ s.platform.CoversDevice ⟨s.cfg.inBase.toNat, s.cfg.inLen.toNat⟩) ∨
        ∃ p, parseStream s = .ok p ∧ 0 < p.frames ∧
          AllAnswer s.platform (s.cfg.inBase.toNat + p.dataOff) p.width ∧
          s.platform.CoversDevice ⟨s.cfg.scrBase.toNat, s.cfg.scrLen.toNat⟩)))) ∧
  (∀ (s t : State) (ch : BitVec 8) (w : BitVec 4), exec (.genEval ch w) s = .next t →
    let d := s.ch ch.toNat
    t.hazard = true ↔ s.hazard = true ∨ (ch.toNat < 8 ∧ w.toNat ∈ [1, 2, 3, 4, 6, 8] ∧
      checkChannel ch.toNat d = none ∧ d.src = 6 ∧
      bufferSample d (sourceTime d s.cfg.evalTime.toInt) ≠ none ∧
      s.platform.CoversDevice ⟨d.bufBase.toNat, d.bufLen.toNat⟩)) ∧
  (∀ (s t : State) (i : Instr), i ≠ .encode → i ≠ .decode → (∀ ch w, i ≠ .genEval ch w) →
    exec i s = .next t → t.hazard = s.hazard) ∧
  (∀ s t : State, s.hazard = true → step s = .next t →
    (∀ es, s.inputs ≠ .host .hardReset :: es ∧ s.inputs ≠ .both .hardReset :: es) → t.hazard = true)
end

