-- ==== Sys2Proof/Laws/Numeric.lean ====
section
/-! SUPPORT. Lemmas of the numeric model: floor division, byte order, the quantiser's length. -/

namespace Sys2Proof.Machine

theorem fdiv_eq_ediv (a : Int) {b : Int} (h : 0 ≤ b) : fdiv a b = a / b :=
  Int.fdiv_eq_ediv_of_nonneg a h

theorem emod_eq_emod (a : Int) {b : Int} (h : 0 ≤ b) : emod a b = a % b := by
  rw [emod, fdiv_eq_ediv a h, Int.emod_def]

theorem emod_nonneg (a : Int) {b : Int} (h : 0 < b) : 0 ≤ emod a b := by
  rw [emod_eq_emod a h.le]; exact Int.emod_nonneg a h.ne'

theorem emod_lt (a : Int) {b : Int} (h : 0 < b) : emod a b < b := by
  rw [emod_eq_emod a h.le]; exact Int.emod_lt_of_pos a h

@[simp] theorem s64_u64 (v : Int) : s64 (u64 v) = v.bmod (2 ^ 64) := by simp [s64, u64]

@[simp] theorem u64_s64 (w : Word) : u64 (s64 w) = w := by simp [s64, u64]

/-- A value that fits 64 bits is not changed by the delay subtraction's reduction. -/
theorem s64_u64_of_fits {v : Int} (h1 : -2 ^ 63 ≤ v) (h2 : v < 2 ^ 63) : s64 (u64 v) = v := by
  rw [s64_u64]; exact Int.bmod_eq_of_le (by norm_num; omega) (by norm_num; omega)

theorem s64_lt (w : Word) : s64 w < 2 ^ 63 := by
  have := BitVec.toInt_lt (x := w); simpa [s64] using this

theorem neg_le_s64 (w : Word) : -2 ^ 63 ≤ s64 w := by
  have := BitVec.le_toInt (x := w); simpa [s64] using this

@[simp] theorem le_length (n : Nat) (v : Int) : (le n v).length = n := by
  induction n generalizing v with
  | zero => rfl
  | succ n ih => simp [le, ih]

theorem uLE_lt (bs : List Byte) : uLE bs < 256 ^ bs.length := by
  induction bs with
  | nil => simp [uLE]
  | cons b bs ih =>
    have := b.isLt
    simp only [uLE, List.length_cons, Nat.pow_succ]
    omega

/-- Reading back what `le` laid out gives the value modulo 2^(8n). -/
theorem uLE_le (n : Nat) (v : Int) : (uLE (le n v) : Int) = v % 256 ^ n := by
  induction n generalizing v with
  | zero => simp [le, uLE]
  | succ n ih =>
    simp only [le, uLE, Nat.cast_add, Nat.cast_mul, ih, fdiv_eq_ediv v (by norm_num : (0 : Int) ≤ 256)]
    have h1 : (((BitVec.ofInt 8 v).toNat : Nat) : Int) = v % 256 := by
      have := Int.emod_nonneg v (by norm_num : (256 : Int) ≠ 0)
      simp [BitVec.toNat_ofInt]; omega
    rw [h1, pow_succ']
    have h2 : v / 256 / 256 ^ n = v / (256 * 256 ^ n) := Int.ediv_ediv_of_nonneg (by norm_num)
    rw [Int.emod_def v (256 * 256 ^ n), Int.emod_def (v / 256), h2, Int.emod_def v 256]
    push_cast
    ring

/-- Laying out what was read gives the bytes back. -/
theorem le_uLE (bs : List Byte) : le bs.length (uLE bs) = bs := by
  induction bs with
  | nil => rfl
  | cons b bs ih =>
    have hb := b.isLt
    simp only [List.length_cons, le, uLE]
    rw [fdiv_eq_ediv _ (by norm_num)]
    have h2 : ((b.toNat + 256 * uLE bs : Nat) : Int) / 256 = (uLE bs : Int) := by omega
    rw [h2, ih]
    congr 1
    apply BitVec.eq_of_toNat_eq
    simp [BitVec.toNat_ofInt]
    omega

/-- `le` depends on the value modulo 2^(8n) only. -/
theorem le_emod (n : Nat) (v : Int) : le n (v % 256 ^ n) = le n v := by
  have h := le_uLE (le n v)
  rw [le_length, uLE_le] at h
  exact h

theorem quantise_length (v : Int) {W : Nat} : (quantise v W).length = W := by
  unfold quantise
  by_cases h : W = 1
  · simp [h]
  · simp [h]

theorem mem_widths {W : Nat} :
    W ∈ Config.widths ↔ W = 1 ∨ W = 2 ∨ W = 3 ∨ W = 4 ∨ W = 6 ∨ W = 8 := by
  simp [Config.widths]

theorem width_pos {W : Nat} (h : W ∈ Config.widths) : 0 < W := by
  rw [mem_widths] at h; omega

@[simp] theorem Region.has_iff (r : Region) (a : Nat) : r.has a = true ↔ r.base ≤ a ∧ a < r.base + r.len := by
  simp [Region.has]

@[simp] theorem Region.fits_iff (r : Region) : r.fits = true ↔ r.base + r.len ≤ Config.addrSpace := by
  simp [Region.fits]

theorem Region.overlaps_iff (r q : Region) :
    r.overlaps q = true ↔ 0 < r.len ∧ 0 < q.len ∧ r.base < q.base + q.len ∧ q.base < r.base + r.len := by
  simp [Region.overlaps, and_assoc]

/-- Two regions overlap exactly when an address lies in both (20_memory.md R81). -/
theorem Region.overlaps_iff_common (r q : Region) :
    r.overlaps q = true ↔ ∃ a, r.has a = true ∧ q.has a = true := by
  simp only [Region.overlaps_iff, Region.has_iff]
  refine ⟨fun h => ⟨max r.base q.base, by omega, by omega⟩, fun ⟨a, h1, h2⟩ => by omega⟩

/-- Regions that do not overlap share no address. -/
theorem Region.not_has_of_not_overlaps {r q : Region} (h : r.overlaps q = false) {a : Nat}
    (hr : r.has a = true) : q.has a = false := by
  by_contra hq
  rw [Bool.not_eq_false, Region.has_iff] at hq
  rw [Region.has_iff] at hr
  have : r.overlaps q = true := (Region.overlaps_iff r q).2 ⟨by omega, by omega, by omega, by omega⟩
  simp [h] at this

end Sys2Proof.Machine
end

