-- ==== Sys2Proof/Laws/State.lean ====
section
/-! SUPPORT. One lemma for each field of State under each update, true by unfolding, so that no later
proof unfolds a record update. -/

namespace Sys2Proof.Machine

/-! ### dropWrite -/

@[simp] theorem dropWrite_phase (s : State) : s.dropWrite.phase = s.phase := rfl
@[simp] theorem dropWrite_status (s : State) : s.dropWrite.status = { s.status with ovr := true } := rfl
@[simp] theorem dropWrite_irqEn (s : State) : s.dropWrite.irqEn = s.irqEn := rfl
@[simp] theorem dropWrite_error (s : State) : s.dropWrite.error = s.error := rfl
@[simp] theorem dropWrite_cfg (s : State) : s.dropWrite.cfg = s.cfg := rfl
@[simp] theorem dropWrite_chan (s : State) : s.dropWrite.chan = s.chan := rfl
@[simp] theorem dropWrite_enc (s : State) : s.dropWrite.enc = s.enc := rfl
@[simp] theorem dropWrite_dec (s : State) : s.dropWrite.dec = s.dec := rfl
@[simp] theorem dropWrite_eval (s : State) : s.dropWrite.eval = s.eval := rfl
@[simp] theorem dropWrite_hazard (s : State) : s.dropWrite.hazard = s.hazard := rfl
@[simp] theorem dropWrite_mem (s : State) : s.dropWrite.mem = s.mem := rfl
@[simp] theorem dropWrite_voids (s : State) : s.dropWrite.voids = s.voids := rfl
@[simp] theorem dropWrite_draws (s : State) : s.dropWrite.draws = s.draws := rfl
@[simp] theorem dropWrite_platform (s : State) : s.dropWrite.platform = s.platform := rfl
@[simp] theorem dropWrite_inputs (s : State) : s.dropWrite.inputs = s.inputs := rfl
@[simp] theorem dropWrite_resp (s : State) : s.dropWrite.resp = s.resp := rfl
@[simp] theorem dropWrite_ch (s : State) (i : Nat) : s.dropWrite.ch i = s.ch i := rfl
@[simp] theorem dropWrite_busy (s : State) : s.dropWrite.busy = s.busy := rfl

/-! ### setCh -/

@[simp] theorem setCh_phase (s : State) (c : Nat) (r : ChReg) (w : Word) : (s.setCh c r w).phase = s.phase := rfl
@[simp] theorem setCh_status (s : State) (c : Nat) (r : ChReg) (w : Word) : (s.setCh c r w).status = s.status := rfl
@[simp] theorem setCh_irqEn (s : State) (c : Nat) (r : ChReg) (w : Word) : (s.setCh c r w).irqEn = s.irqEn := rfl
@[simp] theorem setCh_error (s : State) (c : Nat) (r : ChReg) (w : Word) : (s.setCh c r w).error = s.error := rfl
@[simp] theorem setCh_cfg (s : State) (c : Nat) (r : ChReg) (w : Word) : (s.setCh c r w).cfg = s.cfg := rfl
@[simp] theorem setCh_chan (s : State) (c : Nat) (r : ChReg) (w : Word) : (s.setCh c r w).chan = s.chan.setIfInBounds c ((s.ch c).set r w) := rfl
@[simp] theorem setCh_enc (s : State) (c : Nat) (r : ChReg) (w : Word) : (s.setCh c r w).enc = s.enc := rfl
@[simp] theorem setCh_dec (s : State) (c : Nat) (r : ChReg) (w : Word) : (s.setCh c r w).dec = s.dec := rfl
@[simp] theorem setCh_eval (s : State) (c : Nat) (r : ChReg) (w : Word) : (s.setCh c r w).eval = s.eval := rfl
@[simp] theorem setCh_hazard (s : State) (c : Nat) (r : ChReg) (w : Word) : (s.setCh c r w).hazard = s.hazard := rfl
@[simp] theorem setCh_mem (s : State) (c : Nat) (r : ChReg) (w : Word) : (s.setCh c r w).mem = s.mem := rfl
@[simp] theorem setCh_voids (s : State) (c : Nat) (r : ChReg) (w : Word) : (s.setCh c r w).voids = s.voids := rfl
@[simp] theorem setCh_draws (s : State) (c : Nat) (r : ChReg) (w : Word) : (s.setCh c r w).draws = s.draws := rfl
@[simp] theorem setCh_platform (s : State) (c : Nat) (r : ChReg) (w : Word) : (s.setCh c r w).platform = s.platform := rfl
@[simp] theorem setCh_inputs (s : State) (c : Nat) (r : ChReg) (w : Word) : (s.setCh c r w).inputs = s.inputs := rfl
@[simp] theorem setCh_resp (s : State) (c : Nat) (r : ChReg) (w : Word) : (s.setCh c r w).resp = s.resp := rfl
@[simp] theorem setCh_busy (s : State) (c : Nat) (r : ChReg) (w : Word) : (s.setCh c r w).busy = s.busy := rfl

/-! ### writeByte -/

@[simp] theorem writeByte_phase (s : State) (a : Nat) (b : Byte) : (s.writeByte a b).phase = s.phase := rfl
@[simp] theorem writeByte_status (s : State) (a : Nat) (b : Byte) : (s.writeByte a b).status = s.status := rfl
@[simp] theorem writeByte_irqEn (s : State) (a : Nat) (b : Byte) : (s.writeByte a b).irqEn = s.irqEn := rfl
@[simp] theorem writeByte_error (s : State) (a : Nat) (b : Byte) : (s.writeByte a b).error = s.error := rfl
@[simp] theorem writeByte_cfg (s : State) (a : Nat) (b : Byte) : (s.writeByte a b).cfg = s.cfg := rfl
@[simp] theorem writeByte_chan (s : State) (a : Nat) (b : Byte) : (s.writeByte a b).chan = s.chan := rfl
@[simp] theorem writeByte_enc (s : State) (a : Nat) (b : Byte) : (s.writeByte a b).enc = s.enc := rfl
@[simp] theorem writeByte_dec (s : State) (a : Nat) (b : Byte) : (s.writeByte a b).dec = s.dec := rfl
@[simp] theorem writeByte_eval (s : State) (a : Nat) (b : Byte) : (s.writeByte a b).eval = s.eval := rfl
@[simp] theorem writeByte_hazard (s : State) (a : Nat) (b : Byte) : (s.writeByte a b).hazard = s.hazard := rfl
@[simp] theorem writeByte_mem (s : State) (a : Nat) (b : Byte) : (s.writeByte a b).mem = cellWrite s.mem a b := rfl
@[simp] theorem writeByte_voids (s : State) (a : Nat) (b : Byte) : (s.writeByte a b).voids = s.voids := rfl
@[simp] theorem writeByte_draws (s : State) (a : Nat) (b : Byte) : (s.writeByte a b).draws = s.draws := rfl
@[simp] theorem writeByte_platform (s : State) (a : Nat) (b : Byte) : (s.writeByte a b).platform = s.platform := rfl
@[simp] theorem writeByte_inputs (s : State) (a : Nat) (b : Byte) : (s.writeByte a b).inputs = s.inputs := rfl
@[simp] theorem writeByte_resp (s : State) (a : Nat) (b : Byte) : (s.writeByte a b).resp = s.resp := rfl
@[simp] theorem writeByte_ch (s : State) (a : Nat) (b : Byte) (i : Nat) : (s.writeByte a b).ch i = s.ch i := rfl
@[simp] theorem writeByte_busy (s : State) (a : Nat) (b : Byte) : (s.writeByte a b).busy = s.busy := rfl

/-! ### forget -/

@[simp] theorem forget_phase (s : State) (r : Region) : (s.forget r).phase = s.phase := rfl
@[simp] theorem forget_status (s : State) (r : Region) : (s.forget r).status = s.status := rfl
@[simp] theorem forget_irqEn (s : State) (r : Region) : (s.forget r).irqEn = s.irqEn := rfl
@[simp] theorem forget_error (s : State) (r : Region) : (s.forget r).error = s.error := rfl
@[simp] theorem forget_cfg (s : State) (r : Region) : (s.forget r).cfg = s.cfg := rfl
@[simp] theorem forget_chan (s : State) (r : Region) : (s.forget r).chan = s.chan := rfl
@[simp] theorem forget_enc (s : State) (r : Region) : (s.forget r).enc = s.enc := rfl
@[simp] theorem forget_dec (s : State) (r : Region) : (s.forget r).dec = s.dec := rfl
@[simp] theorem forget_eval (s : State) (r : Region) : (s.forget r).eval = s.eval := rfl
@[simp] theorem forget_hazard (s : State) (r : Region) : (s.forget r).hazard = s.hazard := rfl
@[simp] theorem forget_mem (s : State) (r : Region) : (s.forget r).mem = s.mem.filter (fun c => !r.has c.1) := rfl
@[simp] theorem forget_voids (s : State) (r : Region) : (s.forget r).voids = ⟨r, s.draws⟩ :: s.voids := rfl
@[simp] theorem forget_draws (s : State) (r : Region) : (s.forget r).draws = s.draws + 1 := rfl
@[simp] theorem forget_platform (s : State) (r : Region) : (s.forget r).platform = s.platform := rfl
@[simp] theorem forget_inputs (s : State) (r : Region) : (s.forget r).inputs = s.inputs := rfl
@[simp] theorem forget_resp (s : State) (r : Region) : (s.forget r).resp = s.resp := rfl
@[simp] theorem forget_ch (s : State) (r : Region) (i : Nat) : (s.forget r).ch i = s.ch i := rfl
@[simp] theorem forget_busy (s : State) (r : Region) : (s.forget r).busy = s.busy := rfl

/-! ### markRegions -/

@[simp] theorem markRegions_phase (s : State) (rs : List Region) : (s.markRegions rs).phase = s.phase := rfl
@[simp] theorem markRegions_status (s : State) (rs : List Region) : (s.markRegions rs).status = s.status := rfl
@[simp] theorem markRegions_irqEn (s : State) (rs : List Region) : (s.markRegions rs).irqEn = s.irqEn := rfl
@[simp] theorem markRegions_error (s : State) (rs : List Region) : (s.markRegions rs).error = s.error := rfl
@[simp] theorem markRegions_cfg (s : State) (rs : List Region) : (s.markRegions rs).cfg = s.cfg := rfl
@[simp] theorem markRegions_chan (s : State) (rs : List Region) : (s.markRegions rs).chan = s.chan := rfl
@[simp] theorem markRegions_enc (s : State) (rs : List Region) : (s.markRegions rs).enc = s.enc := rfl
@[simp] theorem markRegions_dec (s : State) (rs : List Region) : (s.markRegions rs).dec = s.dec := rfl
@[simp] theorem markRegions_eval (s : State) (rs : List Region) : (s.markRegions rs).eval = s.eval := rfl
@[simp] theorem markRegions_hazard (s : State) (rs : List Region) : (s.markRegions rs).hazard = (s.hazard || rs.any s.platform.coversDevice) := rfl
@[simp] theorem markRegions_mem (s : State) (rs : List Region) : (s.markRegions rs).mem = s.mem := rfl
@[simp] theorem markRegions_voids (s : State) (rs : List Region) : (s.markRegions rs).voids = s.voids := rfl
@[simp] theorem markRegions_draws (s : State) (rs : List Region) : (s.markRegions rs).draws = s.draws := rfl
@[simp] theorem markRegions_platform (s : State) (rs : List Region) : (s.markRegions rs).platform = s.platform := rfl
@[simp] theorem markRegions_inputs (s : State) (rs : List Region) : (s.markRegions rs).inputs = s.inputs := rfl
@[simp] theorem markRegions_resp (s : State) (rs : List Region) : (s.markRegions rs).resp = s.resp := rfl
@[simp] theorem markRegions_ch (s : State) (rs : List Region) (i : Nat) : (s.markRegions rs).ch i = s.ch i := rfl
@[simp] theorem markRegions_busy (s : State) (rs : List Region) : (s.markRegions rs).busy = s.busy := rfl
theorem markRegions_append (s : State) (rs qs : List Region) :
    (s.markRegions rs).markRegions qs = s.markRegions (rs ++ qs) := by
  simp only [State.markRegions, List.any_append, Bool.or_assoc]

/-! ### complete -/

@[simp] theorem complete_phase (e : Option Raise) (s : State) : (complete e s).phase = .idle := rfl
@[simp] theorem complete_status (e : Option Raise) (s : State) : (complete e s).status = ⟨true, e.isSome, s.status.ovr⟩ := rfl
@[simp] theorem complete_irqEn (e : Option Raise) (s : State) : (complete e s).irqEn = s.irqEn := rfl
@[simp] theorem complete_error (e : Option Raise) (s : State) : (complete e s).error = ErrorRecord.of e := rfl
@[simp] theorem complete_cfg (e : Option Raise) (s : State) : (complete e s).cfg = s.cfg := rfl
@[simp] theorem complete_chan (e : Option Raise) (s : State) : (complete e s).chan = s.chan := rfl
@[simp] theorem complete_enc (e : Option Raise) (s : State) : (complete e s).enc = s.enc := rfl
@[simp] theorem complete_dec (e : Option Raise) (s : State) : (complete e s).dec = s.dec := rfl
@[simp] theorem complete_eval (e : Option Raise) (s : State) : (complete e s).eval = s.eval := rfl
@[simp] theorem complete_hazard (e : Option Raise) (s : State) : (complete e s).hazard = s.hazard := rfl
@[simp] theorem complete_mem (e : Option Raise) (s : State) : (complete e s).mem = s.mem := rfl
@[simp] theorem complete_voids (e : Option Raise) (s : State) : (complete e s).voids = s.voids := rfl
@[simp] theorem complete_draws (e : Option Raise) (s : State) : (complete e s).draws = s.draws := rfl
@[simp] theorem complete_platform (e : Option Raise) (s : State) : (complete e s).platform = s.platform := rfl
@[simp] theorem complete_inputs (e : Option Raise) (s : State) : (complete e s).inputs = s.inputs := rfl
@[simp] theorem complete_resp (e : Option Raise) (s : State) : (complete e s).resp = s.resp := rfl
@[simp] theorem complete_ch (e : Option Raise) (s : State) (i : Nat) : (complete e s).ch i = s.ch i := rfl

/-! ### setEnc -/

@[simp] theorem setEnc_phase (s : State) (r : EncResults) : (s.setEnc r).phase = s.phase := rfl
@[simp] theorem setEnc_status (s : State) (r : EncResults) : (s.setEnc r).status = s.status := rfl
@[simp] theorem setEnc_irqEn (s : State) (r : EncResults) : (s.setEnc r).irqEn = s.irqEn := rfl
@[simp] theorem setEnc_error (s : State) (r : EncResults) : (s.setEnc r).error = s.error := rfl
@[simp] theorem setEnc_cfg (s : State) (r : EncResults) : (s.setEnc r).cfg = s.cfg := rfl
@[simp] theorem setEnc_chan (s : State) (r : EncResults) : (s.setEnc r).chan = s.chan := rfl
@[simp] theorem setEnc_enc (s : State) (r : EncResults) : (s.setEnc r).enc = r := rfl
@[simp] theorem setEnc_dec (s : State) (r : EncResults) : (s.setEnc r).dec = s.dec := rfl
@[simp] theorem setEnc_eval (s : State) (r : EncResults) : (s.setEnc r).eval = s.eval := rfl
@[simp] theorem setEnc_hazard (s : State) (r : EncResults) : (s.setEnc r).hazard = s.hazard := rfl
@[simp] theorem setEnc_mem (s : State) (r : EncResults) : (s.setEnc r).mem = s.mem := rfl
@[simp] theorem setEnc_voids (s : State) (r : EncResults) : (s.setEnc r).voids = s.voids := rfl
@[simp] theorem setEnc_draws (s : State) (r : EncResults) : (s.setEnc r).draws = s.draws := rfl
@[simp] theorem setEnc_platform (s : State) (r : EncResults) : (s.setEnc r).platform = s.platform := rfl
@[simp] theorem setEnc_inputs (s : State) (r : EncResults) : (s.setEnc r).inputs = s.inputs := rfl
@[simp] theorem setEnc_resp (s : State) (r : EncResults) : (s.setEnc r).resp = s.resp := rfl
@[simp] theorem setEnc_ch (s : State) (r : EncResults) (i : Nat) : (s.setEnc r).ch i = s.ch i := rfl
@[simp] theorem setEnc_busy (s : State) (r : EncResults) : (s.setEnc r).busy = s.busy := rfl

/-! ### setDec -/

@[simp] theorem setDec_phase (s : State) (r : DecResults) : (s.setDec r).phase = s.phase := rfl
@[simp] theorem setDec_status (s : State) (r : DecResults) : (s.setDec r).status = s.status := rfl
@[simp] theorem setDec_irqEn (s : State) (r : DecResults) : (s.setDec r).irqEn = s.irqEn := rfl
@[simp] theorem setDec_error (s : State) (r : DecResults) : (s.setDec r).error = s.error := rfl
@[simp] theorem setDec_cfg (s : State) (r : DecResults) : (s.setDec r).cfg = s.cfg := rfl
@[simp] theorem setDec_chan (s : State) (r : DecResults) : (s.setDec r).chan = s.chan := rfl
@[simp] theorem setDec_enc (s : State) (r : DecResults) : (s.setDec r).enc = s.enc := rfl
@[simp] theorem setDec_dec (s : State) (r : DecResults) : (s.setDec r).dec = r := rfl
@[simp] theorem setDec_eval (s : State) (r : DecResults) : (s.setDec r).eval = s.eval := rfl
@[simp] theorem setDec_hazard (s : State) (r : DecResults) : (s.setDec r).hazard = s.hazard := rfl
@[simp] theorem setDec_mem (s : State) (r : DecResults) : (s.setDec r).mem = s.mem := rfl
@[simp] theorem setDec_voids (s : State) (r : DecResults) : (s.setDec r).voids = s.voids := rfl
@[simp] theorem setDec_draws (s : State) (r : DecResults) : (s.setDec r).draws = s.draws := rfl
@[simp] theorem setDec_platform (s : State) (r : DecResults) : (s.setDec r).platform = s.platform := rfl
@[simp] theorem setDec_inputs (s : State) (r : DecResults) : (s.setDec r).inputs = s.inputs := rfl
@[simp] theorem setDec_resp (s : State) (r : DecResults) : (s.setDec r).resp = s.resp := rfl
@[simp] theorem setDec_ch (s : State) (r : DecResults) (i : Nat) : (s.setDec r).ch i = s.ch i := rfl
@[simp] theorem setDec_busy (s : State) (r : DecResults) : (s.setDec r).busy = s.busy := rfl

/-! ### setEval -/

@[simp] theorem setEval_phase (s : State) (r : EvalResults) : (s.setEval r).phase = s.phase := rfl
@[simp] theorem setEval_status (s : State) (r : EvalResults) : (s.setEval r).status = s.status := rfl
@[simp] theorem setEval_irqEn (s : State) (r : EvalResults) : (s.setEval r).irqEn = s.irqEn := rfl
@[simp] theorem setEval_error (s : State) (r : EvalResults) : (s.setEval r).error = s.error := rfl
@[simp] theorem setEval_cfg (s : State) (r : EvalResults) : (s.setEval r).cfg = s.cfg := rfl
@[simp] theorem setEval_chan (s : State) (r : EvalResults) : (s.setEval r).chan = s.chan := rfl
@[simp] theorem setEval_enc (s : State) (r : EvalResults) : (s.setEval r).enc = s.enc := rfl
@[simp] theorem setEval_dec (s : State) (r : EvalResults) : (s.setEval r).dec = s.dec := rfl
@[simp] theorem setEval_eval (s : State) (r : EvalResults) : (s.setEval r).eval = r := rfl
@[simp] theorem setEval_hazard (s : State) (r : EvalResults) : (s.setEval r).hazard = s.hazard := rfl
@[simp] theorem setEval_mem (s : State) (r : EvalResults) : (s.setEval r).mem = s.mem := rfl
@[simp] theorem setEval_voids (s : State) (r : EvalResults) : (s.setEval r).voids = s.voids := rfl
@[simp] theorem setEval_draws (s : State) (r : EvalResults) : (s.setEval r).draws = s.draws := rfl
@[simp] theorem setEval_platform (s : State) (r : EvalResults) : (s.setEval r).platform = s.platform := rfl
@[simp] theorem setEval_inputs (s : State) (r : EvalResults) : (s.setEval r).inputs = s.inputs := rfl
@[simp] theorem setEval_resp (s : State) (r : EvalResults) : (s.setEval r).resp = s.resp := rfl
@[simp] theorem setEval_ch (s : State) (r : EvalResults) (i : Nat) : (s.setEval r).ch i = s.ch i := rfl
@[simp] theorem setEval_busy (s : State) (r : EvalResults) : (s.setEval r).busy = s.busy := rfl

/-! ### resetBlock -/

@[simp] theorem resetBlock_phase (s : State) : (resetBlock s).phase = .idle := rfl
@[simp] theorem resetBlock_status (s : State) : (resetBlock s).status = StatusBits.reset := rfl
@[simp] theorem resetBlock_irqEn (s : State) : (resetBlock s).irqEn = 0 := rfl
@[simp] theorem resetBlock_error (s : State) : (resetBlock s).error = ErrorRecord.none := rfl
@[simp] theorem resetBlock_cfg (s : State) : (resetBlock s).cfg = ConfigRegs.reset := rfl
@[simp] theorem resetBlock_chan (s : State) : (resetBlock s).chan = Vector.replicate 8 Channel.reset := rfl
@[simp] theorem resetBlock_enc (s : State) : (resetBlock s).enc = EncResults.cleared := rfl
@[simp] theorem resetBlock_dec (s : State) : (resetBlock s).dec = DecResults.cleared := rfl
@[simp] theorem resetBlock_eval (s : State) : (resetBlock s).eval = EvalResults.cleared := rfl
@[simp] theorem resetBlock_hazard (s : State) : (resetBlock s).hazard = s.hazard := rfl
@[simp] theorem resetBlock_mem (s : State) : (resetBlock s).mem = s.mem := rfl
@[simp] theorem resetBlock_voids (s : State) : (resetBlock s).voids = s.voids := rfl
@[simp] theorem resetBlock_draws (s : State) : (resetBlock s).draws = s.draws := rfl
@[simp] theorem resetBlock_platform (s : State) : (resetBlock s).platform = s.platform := rfl
@[simp] theorem resetBlock_inputs (s : State) : (resetBlock s).inputs = s.inputs := rfl
@[simp] theorem resetBlock_resp (s : State) : (resetBlock s).resp = s.resp := rfl

/-! ### clearResults and accept -/

@[simp] theorem clearResults_phase (w : Word) (s : State) : (clearResults w s).phase = s.phase := by
  unfold clearResults; split <;> rfl
@[simp] theorem accept_phase (w : Word) (s : State) : (accept w s).phase = .running w := rfl
@[simp] theorem clearResults_status (w : Word) (s : State) : (clearResults w s).status = s.status := by
  unfold clearResults; split <;> rfl
@[simp] theorem accept_status (w : Word) (s : State) : (accept w s).status = ⟨false, false, s.status.ovr⟩ := rfl
@[simp] theorem clearResults_irqEn (w : Word) (s : State) : (clearResults w s).irqEn = s.irqEn := by
  unfold clearResults; split <;> rfl
@[simp] theorem accept_irqEn (w : Word) (s : State) : (accept w s).irqEn = s.irqEn := clearResults_irqEn w s
@[simp] theorem clearResults_error (w : Word) (s : State) : (clearResults w s).error = s.error := by
  unfold clearResults; split <;> rfl
@[simp] theorem accept_error (w : Word) (s : State) : (accept w s).error = ErrorRecord.none := rfl
@[simp] theorem clearResults_cfg (w : Word) (s : State) : (clearResults w s).cfg = s.cfg := by
  unfold clearResults; split <;> rfl
@[simp] theorem accept_cfg (w : Word) (s : State) : (accept w s).cfg = s.cfg := clearResults_cfg w s
@[simp] theorem clearResults_chan (w : Word) (s : State) : (clearResults w s).chan = s.chan := by
  unfold clearResults; split <;> rfl
@[simp] theorem accept_chan (w : Word) (s : State) : (accept w s).chan = s.chan := clearResults_chan w s
@[simp] theorem clearResults_hazard (w : Word) (s : State) : (clearResults w s).hazard = s.hazard := by
  unfold clearResults; split <;> rfl
@[simp] theorem accept_hazard (w : Word) (s : State) : (accept w s).hazard = s.hazard := clearResults_hazard w s
@[simp] theorem clearResults_mem (w : Word) (s : State) : (clearResults w s).mem = s.mem := by
  unfold clearResults; split <;> rfl
@[simp] theorem accept_mem (w : Word) (s : State) : (accept w s).mem = s.mem := clearResults_mem w s
@[simp] theorem clearResults_voids (w : Word) (s : State) : (clearResults w s).voids = s.voids := by
  unfold clearResults; split <;> rfl
@[simp] theorem accept_voids (w : Word) (s : State) : (accept w s).voids = s.voids := clearResults_voids w s
@[simp] theorem clearResults_draws (w : Word) (s : State) : (clearResults w s).draws = s.draws := by
  unfold clearResults; split <;> rfl
@[simp] theorem accept_draws (w : Word) (s : State) : (accept w s).draws = s.draws := clearResults_draws w s
@[simp] theorem clearResults_platform (w : Word) (s : State) : (clearResults w s).platform = s.platform := by
  unfold clearResults; split <;> rfl
@[simp] theorem accept_platform (w : Word) (s : State) : (accept w s).platform = s.platform := clearResults_platform w s
@[simp] theorem clearResults_inputs (w : Word) (s : State) : (clearResults w s).inputs = s.inputs := by
  unfold clearResults; split <;> rfl
@[simp] theorem accept_inputs (w : Word) (s : State) : (accept w s).inputs = s.inputs := clearResults_inputs w s
@[simp] theorem clearResults_resp (w : Word) (s : State) : (clearResults w s).resp = s.resp := by
  unfold clearResults; split <;> rfl
@[simp] theorem accept_resp (w : Word) (s : State) : (accept w s).resp = s.resp := clearResults_resp w s
@[simp] theorem accept_enc (w : Word) (s : State) : (accept w s).enc = (clearResults w s).enc := rfl
@[simp] theorem accept_dec (w : Word) (s : State) : (accept w s).dec = (clearResults w s).dec := rfl
@[simp] theorem accept_eval (w : Word) (s : State) : (accept w s).eval = (clearResults w s).eval := rfl

@[simp] theorem complete_busy (e : Option Raise) (s : State) : (complete e s).busy = false := rfl
@[simp] theorem accept_busy (w : Word) (s : State) : (accept w s).busy = true := rfl
@[simp] theorem resetBlock_busy (s : State) : (resetBlock s).busy = false := rfl

/-- BUSY and the phase are one fact (10_state.md R56). -/
theorem busy_iff (s : State) : s.busy = true ↔ ∃ w, s.phase = .running w := by
  unfold State.busy; cases s.phase <;> simp

theorem not_busy_iff (s : State) : s.busy = false ↔ s.phase = .idle := by
  unfold State.busy; cases s.phase <;> simp

/-- Reading one channel after writing a register of another. -/
theorem setCh_ch (s : State) (c : Nat) (r : ChReg) (w : Word) (i : Nat) (h : c < 8) :
    (s.setCh c r w).ch i = if c = i then (s.ch c).set r w else s.ch i := by
  simp only [State.ch, setCh_chan, Vector.getElem?_setIfInBounds]
  split <;> simp_all

@[simp] theorem reset_ch (i : Nat) : State.reset.ch i = Channel.reset := by
  simp only [State.ch, State.reset, Vector.getElem?_replicate]
  split <;> rfl

/-- Descriptors that agree at every index are the same channel file. -/
theorem chan_ext {s t : State} (h : ∀ c, c < 8 → s.ch c = t.ch c) : s.chan = t.chan := by
  apply Vector.ext
  intro i hi
  have := h i hi
  simpa [State.ch, hi] using this

end Sys2Proof.Machine
end

