-- ==== Sys2Proof/Laws/Memory.lean ====
section
/-! SUPPORT. The laws of memory: read after write, every operation keeps the canonical form, and equal
memories are equal data. -/

namespace Sys2Proof.Machine

theorem cellRead_cellWrite (m : Memory) (a : Nat) (b : Byte) (x : Nat) :
    cellRead (cellWrite m a b) x = if x = a then some b else cellRead m x := by
  induction m with
  | nil => simp [cellWrite, cellRead, eq_comm]
  | cons c m ih =>
    simp only [cellWrite]
    split
    · simp only [cellRead, eq_comm]
    · split
      · subst_vars; simp only [cellRead]; split <;> simp_all [eq_comm]
      · simp only [cellRead, ih]; split <;> simp_all [eq_comm]

theorem cellRead_filter (m : Memory) (p : Nat → Bool) (x : Nat) :
    cellRead (m.filter (fun c => p c.1)) x = if p x then cellRead m x else none := by
  induction m with
  | nil => simp [cellRead]
  | cons c m ih =>
    by_cases hc : p c.1
    · simp only [List.filter_cons, hc, if_true, cellRead, ih]
      split <;> simp_all
    · simp only [List.filter_cons, hc, cellRead]
      by_cases hx : c.1 = x <;> simp_all

/-! ### The canonical form -/

theorem memory_wf_iff (m : Memory) :
    Memory.wf m = true ↔ m.Pairwise (fun c d => c.1 < d.1) ∧ ∀ c ∈ m, c.1 < Config.addrSpace := by
  induction m with
  | nil => simp [Memory.wf]
  | cons c m ih =>
    cases m with
    | nil => simp [Memory.wf]
    | cons d m =>
      simp only [Memory.wf, Bool.and_eq_true, decide_eq_true_eq, ih, List.pairwise_cons,
        List.forall_mem_cons]
      constructor
      · rintro ⟨h, ⟨⟨h1, h2⟩, h3, h4⟩⟩
        exact ⟨⟨⟨h, fun e he => h.trans (h1 e he)⟩, h1, h2⟩, h.trans h3, h3, h4⟩
      · rintro ⟨⟨⟨h, _⟩, h1, h2⟩, _, h3, h4⟩
        exact ⟨h, ⟨h1, h2⟩, h3, h4⟩

theorem mem_cellWrite {m : Memory} {a : Nat} {b : Byte} {d : Host.Cell} (h : d ∈ cellWrite m a b) :
    d = (a, b) ∨ d ∈ m := by
  induction m with
  | nil => simpa [cellWrite] using h
  | cons c m ih =>
    simp only [cellWrite] at h
    split at h
    · simp_all
    · split at h
      · simp only [List.mem_cons] at h ⊢; tauto
      · simp only [List.mem_cons] at h ⊢
        rcases h with h | h
        · tauto
        · have := ih h; tauto

theorem wf_cellWrite {m : Memory} {a : Nat} (b : Byte) (hm : Memory.wf m = true)
    (ha : a < Config.addrSpace) : Memory.wf (cellWrite m a b) = true := by
  rw [memory_wf_iff] at hm ⊢
  obtain ⟨hp, hb⟩ := hm
  refine ⟨?_, fun d hd => ?_⟩
  · clear hb
    induction m with
    | nil => simp [cellWrite]
    | cons c m ih =>
      have hc := List.pairwise_cons.1 hp
      simp only [cellWrite]
      split
      · next h =>
        refine List.pairwise_cons.2 ⟨fun d hd => ?_, hp⟩
        rcases List.mem_cons.1 hd with rfl | hd
        · exact h
        · exact h.trans (hc.1 d hd)
      · split
        · next h => subst h; exact List.pairwise_cons.2 ⟨fun d hd => hc.1 d hd, hc.2⟩
        · next h1 h2 =>
          refine List.pairwise_cons.2 ⟨fun d hd => ?_, ih hc.2⟩
          rcases mem_cellWrite hd with rfl | hd
          · show c.1 < a; omega
          · exact hc.1 d hd
  · rcases mem_cellWrite hd with rfl | hd
    · exact ha
    · exact hb d hd

theorem wf_filter {m : Memory} (p : Host.Cell → Bool) (hm : Memory.wf m = true) :
    Memory.wf (m.filter p) = true := by
  rw [memory_wf_iff] at hm ⊢
  exact ⟨hm.1.filter p, fun c hc => hm.2 c (List.mem_filter.1 hc).1⟩

theorem cellRead_of_lt {m : Memory} {a : Nat} (h : ∀ c ∈ m, a < c.1) : cellRead m a = none := by
  induction m with
  | nil => rfl
  | cons c m ih =>
    have := h c (by simp)
    simp only [cellRead, ih (fun d hd => h d (by simp [hd]))]
    split <;> [omega; rfl]

/-- Equal memories are equal data: two canonical memories that hold the same at every address are the
same list. -/
theorem memory_ext {m n : Memory} (hm : Memory.wf m = true) (hn : Memory.wf n = true)
    (h : ∀ a, cellRead m a = cellRead n a) : m = n := by
  rw [memory_wf_iff] at hm hn
  replace hm := hm.1
  replace hn := hn.1
  induction m generalizing n with
  | nil =>
    cases n with
    | nil => rfl
    | cons d n => have := h d.1; simp [cellRead] at this
  | cons c m ih =>
    cases n with
    | nil => have := h c.1; simp [cellRead] at this
    | cons d n =>
      have hc := List.pairwise_cons.1 hm
      have hd := List.pairwise_cons.1 hn
      have key : c.1 = d.1 := by
        rcases lt_trichotomy c.1 d.1 with hlt | heq | hgt
        · have h1 := h c.1
          rw [cellRead_of_lt (m := d :: n)] at h1
          · simp [cellRead] at h1
          · intro e he
            rcases List.mem_cons.1 he with rfl | he
            · exact hlt
            · exact hlt.trans (hd.1 e he)
        · exact heq
        · have h1 := h d.1
          rw [cellRead_of_lt (m := c :: m)] at h1
          · simp [cellRead] at h1
          · intro e he
            rcases List.mem_cons.1 he with rfl | he
            · exact hgt
            · exact hgt.trans (hc.1 e he)
      have hv := h c.1
      simp only [cellRead, key, if_true] at hv
      have hcd : c = d := Prod.ext key (by simpa using hv)
      subst hcd
      congr 1
      refine ih (fun a => ?_) hc.2 hd.2
      by_cases ha : c.1 = a
      · rw [cellRead_of_lt (fun e he => ha ▸ hc.1 e he), cellRead_of_lt (fun e he => ha ▸ hd.1 e he)]
      · have := h a
        simpa [cellRead, ha] using this

/-! ### Bytes of the state -/

theorem readByte_writeByte (s : State) (a : Nat) (b : Byte) (x : Nat) :
    (s.writeByte a b).readByte x = if x = a then b else s.readByte x := by
  simp only [State.readByte, writeByte_mem, writeByte_voids, cellRead_cellWrite]
  by_cases h : x = a <;> simp [h]

theorem readByte_congr {s t : State} (hm : t.mem = s.mem) (hv : t.voids = s.voids) (x : Nat) :
    t.readByte x = s.readByte x := by
  simp [State.readByte, hm, hv]

@[simp] theorem markRegions_readByte (s : State) (rs : List Region) (x : Nat) :
    (s.markRegions rs).readByte x = s.readByte x := rfl

@[simp] theorem complete_readByte (e : Option Raise) (s : State) (x : Nat) :
    (complete e s).readByte x = s.readByte x := rfl

@[simp] theorem setEnc_readByte (s : State) (r : EncResults) (x : Nat) :
    (s.setEnc r).readByte x = s.readByte x := rfl

@[simp] theorem setDec_readByte (s : State) (r : DecResults) (x : Nat) :
    (s.setDec r).readByte x = s.readByte x := rfl

@[simp] theorem setEval_readByte (s : State) (r : EvalResults) (x : Nat) :
    (s.setEval r).readByte x = s.readByte x := rfl

@[simp] theorem resetBlock_readByte (s : State) (x : Nat) : (resetBlock s).readByte x = s.readByte x := rfl

@[simp] theorem dropWrite_readByte (s : State) (x : Nat) : s.dropWrite.readByte x = s.readByte x := rfl

@[simp] theorem accept_readByte (w : Word) (s : State) (x : Nat) : (accept w s).readByte x = s.readByte x :=
  readByte_congr (accept_mem w s) (accept_voids w s) x

/-- A forgotten region's bytes are the free bytes of its draw; every other byte stays. -/
theorem readByte_forget (s : State) (r : Region) (x : Nat) :
    (s.forget r).readByte x = if r.has x then Config.freeByte s.draws x else s.readByte x := by
  have h := cellRead_filter s.mem (fun a => !r.has a) x
  simp only [State.readByte, forget_mem, forget_voids, h, unlisted, List.find?_cons]
  by_cases hx : r.has x <;> simp [hx]

theorem writeBytes_frame (s : State) (a : Nat) (bs : List Byte) :
    ∃ m, s.writeBytes a bs = { s with mem := m } := by
  induction bs generalizing s a with
  | nil => exact ⟨s.mem, rfl⟩
  | cons b bs ih =>
    obtain ⟨m, h⟩ := ih (s.writeByte a b) (a + 1)
    exact ⟨m, h⟩

theorem readByte_writeBytes (s : State) (a : Nat) (bs : List Byte) (x : Nat) :
    (s.writeBytes a bs).readByte x =
      if a ≤ x ∧ x < a + bs.length then bs.getD (x - a) 0 else s.readByte x := by
  induction bs generalizing s a with
  | nil => simp [State.writeBytes]
  | cons b bs ih =>
    simp only [State.writeBytes, ih, readByte_writeByte, List.length_cons]
    by_cases h1 : a + 1 ≤ x ∧ x < a + 1 + bs.length
    · have e : x - a = (x - (a + 1)) + 1 := by omega
      rw [if_pos h1, if_pos (by omega), e, List.getD_cons_succ]
    · rw [if_neg h1]
      by_cases h2 : x = a
      · subst h2; simp
      · rw [if_neg h2, if_neg (by omega)]

theorem wf_writeBytes (s : State) (a : Nat) (bs : List Byte) (hm : Memory.wf s.mem = true)
    (ha : a + bs.length ≤ Config.addrSpace) : Memory.wf (s.writeBytes a bs).mem = true := by
  induction bs generalizing s a with
  | nil => exact hm
  | cons b bs ih =>
    simp only [List.length_cons] at ha
    exact ih _ _ (wf_cellWrite b hm (by omega)) (by omega)

end Sys2Proof.Machine
end

