-- ==== Sys2Proof/Laws/Dma.lean ====
section
/-! SUPPORT. What a DMA transfer can do (00_scope.md R13), said once: the first address that does not
answer, the bytes read, the bytes written. -/

namespace Sys2Proof.Machine

/-! ### The platform's map -/

theorem Platform.coversDevice_iff (p : Platform) (r : Region) : p.coversDevice r = true ↔ p.CoversDevice r := by
  simp only [Platform.coversDevice, Platform.CoversDevice, List.any_eq_true, Region.overlaps_iff_common]

/-- The mark after a command accessed these regions. -/
theorem markRegions_hazard_iff (s : State) (rs : List Region) :
    (s.markRegions rs).hazard = true ↔ s.hazard = true ∨ ∃ r ∈ rs, s.platform.CoversDevice r := by
  simp only [markRegions_hazard, Bool.or_eq_true, List.any_eq_true, Platform.coversDevice_iff]

/-- Where the spec defines the accesses, marking them changes nothing, in any state with the same
platform. -/
theorem markRegions_of_defined {s : State} {rs : List Region} (h : s.defined rs) (t : State)
    (hp : t.platform = s.platform) : t.markRegions rs = t := by
  have h1 : (s.hazard || rs.any s.platform.coversDevice) = false := h
  rw [Bool.or_eq_false_iff] at h1
  simp only [State.markRegions, hp, h1.2, Bool.or_false]
  rw [← hp]

/-- Fewer accesses are defined where more are. -/
theorem State.defined_mono {s : State} {rs qs : List Region} (h : s.defined rs) (hq : ∀ r ∈ qs, r ∈ rs) :
    s.defined qs := by
  simp only [State.defined, markRegions_hazard, Bool.or_eq_false_iff, List.any_eq_false] at h ⊢
  exact ⟨h.1, fun r hr => h.2 r (hq r hr)⟩

/-- Of numbers some of which are at most a, one is the greatest of those. -/
theorem exists_greatest_le (a : Nat) : ∀ l : List Nat, (∃ x ∈ l, x ≤ a) →
    ∃ b ∈ l, b ≤ a ∧ ∀ y ∈ l, y ≤ a → y ≤ b
  | [], ⟨_, h, _⟩ => by cases h
  | c :: l, hx => by
    by_cases hl : ∃ x ∈ l, x ≤ a
    · obtain ⟨b, h1, h2, h3⟩ := exists_greatest_le a l hl
      by_cases hc : c ≤ a ∧ b < c
      · refine ⟨c, List.mem_cons_self, hc.1, fun y hy hya => ?_⟩
        rcases List.mem_cons.1 hy with rfl | hy
        · exact le_rfl
        · have := h3 y hy hya; omega
      · refine ⟨b, List.mem_cons_of_mem _ h1, h2, fun y hy hya => ?_⟩
        rcases List.mem_cons.1 hy with rfl | hy
        · omega
        · exact h3 y hy hya
    · obtain ⟨x, hx, hxa⟩ := hx
      rcases List.mem_cons.1 hx with rfl | hx
      · refine ⟨x, List.mem_cons_self, hxa, fun y hy hya => ?_⟩
        rcases List.mem_cons.1 hy with rfl | hy
        · exact le_rfl
        · exact absurd ⟨y, hy, hya⟩ hl
      · exact absurd ⟨x, hx, hxa⟩ hl

/-- An address answers as any lower one does with no break between them. -/
theorem Platform.memOK_eq_of_between (p : Platform) {a b : Nat} (hb : b ≤ a)
    (h : ∀ y ∈ p.breaks, y ≤ a → y ≤ b) : p.memOK a = p.memOK b := by
  simp only [Platform.memOK, Bool.not_inj_iff]
  rw [Bool.eq_iff_iff, List.any_eq_true, List.any_eq_true]
  have key : ∀ r ∈ p.noAnswer, (r.has a = true ↔ r.has b = true) := fun r hr => by
    have h1 := h r.base (by simp only [Platform.breaks, List.mem_flatMap]; exact ⟨r, hr, by simp⟩)
    have h2 := h (r.base + r.len) (by simp only [Platform.breaks, List.mem_flatMap]; exact ⟨r, hr, by simp⟩)
    simp only [Region.has_iff]
    omega
  exact ⟨fun ⟨r, hr, hx⟩ => ⟨r, hr, (key r hr).1 hx⟩, fun ⟨r, hr, hx⟩ => ⟨r, hr, (key r hr).2 hx⟩⟩

/-- Two platforms are the same on a region when every address of it answers on both or on neither, and
both or neither have a device there. -/
theorem Platform.sameOn_iff (p q : Platform) (r : Region) : p.sameOn q r = true ↔
    (∀ a, r.has a = true → p.memOK a = q.memOK a) ∧ (p.CoversDevice r ↔ q.CoversDevice r) := by
  simp only [Platform.sameOn, Bool.and_eq_true, List.all_eq_true, beq_iff_eq, Bool.or_eq_true,
    Bool.not_eq_true']
  refine and_congr ⟨fun h a ha => ?_, fun h a _ => ?_⟩ ?_
  · have hra := (Region.has_iff r a).1 ha
    obtain ⟨b, h1, h2, h3⟩ := exists_greatest_le a (r.base :: (p.breaks ++ q.breaks))
      ⟨r.base, List.mem_cons_self, hra.1⟩
    have hb := h3 r.base List.mem_cons_self hra.1
    have hrb : r.has b = true := (Region.has_iff r b).2 ⟨hb, by omega⟩
    rw [p.memOK_eq_of_between h2 (fun y hy => h3 y (by simp [hy])),
      q.memOK_eq_of_between h2 (fun y hy => h3 y (by simp [hy]))]
    rcases h b h1 with hn | he
    · rw [hrb] at hn; cases hn
    · exact he
  · by_cases ha : r.has a = true
    · exact .inr (h a ha)
    · exact .inl (Bool.not_eq_true _ ▸ ha)
  · rw [← Platform.coversDevice_iff, ← Platform.coversDevice_iff, Bool.eq_iff_iff]

/-! ### Transfers -/

theorem dmaRead_ok {s : State} {a n : Nat} (h : AllAnswer s.platform a n) :
    dmaRead s a n = .ok ((List.range n).map (fun k => s.readByte (a + k))) := by
  induction n generalizing a with
  | zero => rfl
  | succ n ih =>
    have h1 := h a le_rfl (by omega)
    have h2 := ih (a := a + 1) (fun y hy hy' => h y (by omega) (by omega))
    simp only [dmaRead, h1, if_true, h2, List.range_succ_eq_map, List.map_cons, List.map_map]
    simp only [Nat.add_zero, Except.ok.injEq, List.cons.injEq, true_and]
    apply List.map_congr_left
    intro k _
    simp only [Function.comp]
    congr 1
    omega

theorem dmaRead_error {s : State} {a n x : Nat} (h : dmaRead s a n = .error x) :
    FirstSilent s.platform a n x := by
  induction n generalizing a with
  | zero => simp [dmaRead] at h
  | succ n ih =>
    simp only [dmaRead] at h
    split at h
    · next h1 =>
      split at h
      · cases h
      · next y hy =>
        cases h
        obtain ⟨i1, i2, i3, i4⟩ := ih hy
        refine ⟨by omega, by omega, i3, fun z hz hz' => ?_⟩
        rcases Nat.eq_or_lt_of_le hz with rfl | hlt
        · exact h1
        · exact i4 z hlt hz'
    · next h1 =>
      cases h
      exact ⟨le_rfl, by omega, by simpa using h1, fun y _ _ => by omega⟩

/-- A transfer answers everywhere or has a first silent address. -/
theorem answer_or_silent (p : Platform) (a n : Nat) : AllAnswer p a n ∨ ∃ x, FirstSilent p a n x := by
  induction n generalizing a with
  | zero => exact .inl (fun y h1 h2 => by omega)
  | succ n ih =>
    by_cases h1 : p.memOK a = true
    · rcases ih (a + 1) with h | ⟨x, i1, i2, i3, i4⟩
      · refine .inl (fun y hy hy' => ?_)
        rcases Nat.eq_or_lt_of_le hy with rfl | hlt
        · exact h1
        · exact h y hlt (by omega)
      · refine .inr ⟨x, by omega, by omega, i3, fun z hz hz' => ?_⟩
        rcases Nat.eq_or_lt_of_le hz with rfl | hlt
        · exact h1
        · exact i4 z hlt hz'
    · exact .inr ⟨a, le_rfl, by omega, by simpa using h1, fun y _ _ => by omega⟩

theorem FirstSilent.unique {p : Platform} {a n m x y : Nat} (hx : FirstSilent p a n x)
    (hy : FirstSilent p a m y) : x = y := by
  obtain ⟨a1, a2, a3, a4⟩ := hx
  obtain ⟨b1, b2, b3, b4⟩ := hy
  rcases lt_trichotomy x y with h | h | h
  · have := b4 x a1 h; simp [a3] at this
  · exact h
  · have := a4 y b1 h; simp [b3] at this

theorem dmaRead_length {s : State} {a n : Nat} {bs : List Byte} (h : dmaRead s a n = .ok bs) :
    AllAnswer s.platform a n ∧ bs = (List.range n).map (fun k => s.readByte (a + k)) := by
  rcases answer_or_silent s.platform a n with hok | ⟨x, hx⟩
  · rw [dmaRead_ok hok] at h; cases h; exact ⟨hok, rfl⟩
  · exfalso
    induction n generalizing a bs with
    | zero => have := hx.1; have := hx.2.1; omega
    | succ n ih =>
      simp only [dmaRead] at h
      obtain ⟨x1, x2, x3, x4⟩ := hx
      split at h
      · next h1 =>
        have hne : a ≠ x := by rintro rfl; simp [h1] at x3
        split at h
        · next cs hcs => exact ih hcs ⟨by omega, by omega, x3, fun y hy hy' => x4 y (by omega) hy'⟩
        · cases h
      · cases h

/-- A read that meets a silent address reports the first one. -/
theorem dmaRead_silent {s : State} {a n x : Nat} (h : FirstSilent s.platform a n x) :
    dmaRead s a n = .error x := by
  cases hr : dmaRead s a n with
  | ok bs =>
    have := (dmaRead_length hr).1 x h.1 h.2.1
    simp [h.2.2.1] at this
  | error y => rw [(dmaRead_error hr).unique h]

/-- Everything a DMA write can do: it changes memory alone; without an error every byte answers and is
written; with an error it stops at the first silent address and the bytes before it are written. -/
theorem dmaWrite_cases (s : State) (a : Nat) (bs : List Byte) :
    (AllAnswer s.platform a bs.length ∧ dmaWrite s a bs = (s.writeBytes a bs, none)) ∨
    ∃ x, FirstSilent s.platform a bs.length x ∧
      dmaWrite s a bs = (s.writeBytes a (bs.take (x - a)), some x) := by
  induction bs generalizing s a with
  | nil => exact .inl ⟨fun y h1 h2 => by simp at h2; omega, rfl⟩
  | cons b bs ih =>
    by_cases h1 : s.platform.memOK a = true
    · simp only [dmaWrite, h1, if_true]
      rcases ih (s.writeByte a b) (a + 1) with ⟨h, e⟩ | ⟨x, ⟨i1, i2, i3, i4⟩, e⟩
      · refine .inl ⟨fun y hy hy' => ?_, by rw [e]; rfl⟩
        rcases Nat.eq_or_lt_of_le hy with rfl | hlt
        · exact h1
        · exact h y hlt (by simp at hy'; omega)
      · refine .inr ⟨x, ⟨by omega, by simp; omega, i3, fun z hz hz' => ?_⟩, ?_⟩
        · rcases Nat.eq_or_lt_of_le hz with rfl | hlt
          · exact h1
          · exact i4 z hlt hz'
        · have e2 : x - a = (x - (a + 1)) + 1 := by omega
          rw [e, e2, List.take_succ_cons]; rfl
    · refine .inr ⟨a, ⟨le_rfl, by simp, by simpa using h1, fun y _ _ => by omega⟩, ?_⟩
      simp [dmaWrite, h1, State.writeBytes]

theorem dmaWrite_ok {s : State} {a : Nat} {bs : List Byte} (h : AllAnswer s.platform a bs.length) :
    dmaWrite s a bs = (s.writeBytes a bs, none) := by
  rcases dmaWrite_cases s a bs with ⟨_, e⟩ | ⟨x, hx, _⟩
  · exact e
  · have := h x hx.1 hx.2.1; simp [hx.2.2.1] at this

theorem dmaWrite_silent {s : State} {a x : Nat} {bs : List Byte}
    (h : FirstSilent s.platform a bs.length x) :
    dmaWrite s a bs = (s.writeBytes a (bs.take (x - a)), some x) := by
  rcases dmaWrite_cases s a bs with ⟨hok, _⟩ | ⟨y, hy, e⟩
  · have := hok x h.1 h.2.1; simp [h.2.2.1] at this
  · rw [hy.unique h] at e; exact e

/-- A DMA write changes memory and nothing else. -/
theorem dmaWrite_frame (s : State) (a : Nat) (bs : List Byte) :
    ∃ m, (dmaWrite s a bs).1 = { s with mem := m } := by
  rcases dmaWrite_cases s a bs with ⟨_, e⟩ | ⟨x, _, e⟩ <;> rw [e] <;> exact writeBytes_frame _ _ _

/-- A DMA write inside the space keeps the canonical form. -/
theorem wf_dmaWrite (s : State) (a : Nat) (bs : List Byte) (hm : Memory.wf s.mem = true)
    (ha : a + bs.length ≤ Config.addrSpace) : Memory.wf (dmaWrite s a bs).1.mem = true := by
  rcases dmaWrite_cases s a bs with ⟨_, e⟩ | ⟨x, hx, e⟩ <;> rw [e]
  · exact wf_writeBytes s a bs hm ha
  · exact wf_writeBytes s a _ hm (by simp only [List.length_take]; omega)

/-- A DMA write leaves every byte outside its range alone. -/
theorem dmaWrite_outside (s : State) (a : Nat) (bs : List Byte) (x : Nat)
    (hx : x < a ∨ a + bs.length ≤ x) : (dmaWrite s a bs).1.readByte x = s.readByte x := by
  rcases dmaWrite_cases s a bs with ⟨_, e⟩ | ⟨y, hy, e⟩ <;> rw [e] <;>
    simp only [readByte_writeBytes] <;> rw [if_neg]
  · omega
  · simp only [List.length_take]; omega

end Sys2Proof.Machine
end

