-- ==== Sys2Proof/Laws/Encode.lean ====
section
/-! SUPPORT. The level functions' dependence on the state, and everything the interleaver and ENCODE's
stream can do. -/

namespace Sys2Proof.Machine

theorem dmaRead_congr {s t : State} (hp : t.platform = s.platform) {a n : Nat}
    (h : ∀ x, a ≤ x → x < a + n → t.readByte x = s.readByte x) : dmaRead t a n = dmaRead s a n := by
  induction n generalizing a with
  | zero => rfl
  | succ n ih =>
    simp only [dmaRead, hp, h a le_rfl (by omega),
      ih (a := a + 1) (fun x hx hx' => h x (by omega) (by omega))]

/-- The sample a buffer gives lies whole inside the buffer (42_pcm_buffer.md R175). -/
theorem bufferSample_inside {d : Channel} {τ : Int} {a : Nat} (h : bufferSample d τ = some a) :
    d.bufBase.toNat ≤ a ∧ a + d.bufWidth.toNat ≤ d.bufBase.toNat + d.bufLen.toNat := by
  simp only [bufferSample] at h
  split at h
  · next hc =>
    obtain ⟨h0, h1⟩ := hc
    cases h
    refine ⟨by omega, ?_⟩
    have hlt : (fdiv τ (s64 d.bufPeriod)).toNat + 1 ≤ d.bufLen.toNat / d.bufWidth.toNat := by omega
    have := Nat.mul_le_mul_right d.bufWidth.toNat hlt
    have := Nat.div_mul_le_self d.bufLen.toNat d.bufWidth.toNat
    rw [Nat.add_mul] at *
    omega
  · cases h

/-- A channel's level depends on the platform, its descriptor and, for a BUFFER, the bytes of its
buffer (41_generators.md R142). -/
theorem chanLevel_congr {s t : State} {c : Nat} (hp : t.platform = s.platform) (hc : t.ch c = s.ch c)
    (h : kindOf (s.ch c).src = some .buffer →
      ∀ x, (s.ch c).bufRegion.has x = true → t.readByte x = s.readByte x) (time : Int) :
    chanLevel t c time = chanLevel s c time := by
  simp only [chanLevel, hc, srcLevel]
  split <;> try rfl
  next hk =>
  simp only [bufferLevel]
  split
  · next a ha =>
    have hin := bufferSample_inside ha
    rw [dmaRead_congr hp (fun x hx hx' => h hk x (by simp [Channel.bufRegion]; omega))]
  · rfl

/-- The levels of channels below C are the same in t as in s. -/
def SameLevels (s t : State) (C : Nat) : Prop :=
  ∀ c, c < C → ∀ time, chanLevel t c time = chanLevel s c time

/-- Writing outside the buffers of the channels below C leaves their levels alone. -/
theorem sameLevels_of_outside {s t : State} {C : Nat} {r : Region} (hp : t.platform = s.platform)
    (hc : ∀ c, t.ch c = s.ch c) (hout : ∀ x, r.has x = false → t.readByte x = s.readByte x)
    (h : ∀ c, c < C → kindOf (s.ch c).src = some .buffer → r.overlaps (s.ch c).bufRegion = false) :
    SameLevels s t C := by
  intro c hcC time
  refine chanLevel_congr hp (hc c) (fun hk x hx => hout x ?_) time
  by_contra hr
  rw [Bool.not_eq_false] at hr
  have := Region.not_has_of_not_overlaps (h c hcC hk) hr
  simp [hx] at this

/-- How the interleaver can end, from sample number j with n to go (43_encode.md R200). -/
inductive LoopEnd (p : EncodeParams) (s : State) (j n bytes : Nat) : Option Raise → Prop where
  /-- Every sample is written. -/
  | done (h : bytes = 44 + (j + n) * p.width) : LoopEnd p s j n bytes none
  /-- The read of sample number i meets a silent address. -/
  | readFault (i x : Nat) (h1 : j ≤ i) (h2 : i < j + n) (hb : bytes = 44 + i * p.width)
      (hx : chanLevel s (i % p.channels) ((i / p.channels * p.period : Nat) : Int) = .error x) :
      LoopEnd p s j n bytes (some (busError x bytes))
  /-- The write of sample number i, whose level was read before it, meets a silent address. -/
  | writeFault (i x : Nat) (h1 : j ≤ i) (h2 : i < j + n) (hb : bytes = x - p.outBase)
      (hv : ∃ v, chanLevel s (i % p.channels) ((i / p.channels * p.period : Nat) : Int) = .ok v)
      (hx : FirstSilent s.platform (p.outBase + (44 + i * p.width)) p.width x) :
      LoopEnd p s j n bytes (some (busError x bytes))

theorem LoopEnd.bounds {p : EncodeParams} {s : State} {j n bytes : Nat} {e : Option Raise}
    (h : LoopEnd p s j n bytes e) : 44 + j * p.width ≤ bytes ∧ bytes ≤ 44 + (j + n) * p.width := by
  have mono : ∀ a b : Nat, a ≤ b → a * p.width ≤ b * p.width := fun a b h => Nat.mul_le_mul_right _ h
  cases h with
  | done h => have := mono j (j + n) (by omega); omega
  | readFault i x h1 h2 hb _ =>
    have := mono j i h1; have := mono i (j + n) (by omega); omega
  | writeFault i x h1 h2 hb _ hx =>
    obtain ⟨x1, x2, _, _⟩ := hx
    have := mono j i h1
    have h3 := mono (i + 1) (j + n) (by omega)
    rw [Nat.add_mul] at h3
    omega

theorem LoopEnd.step {p : EncodeParams} {s : State} {j n bytes : Nat} {e : Option Raise}
    (h : LoopEnd p s (j + 1) n bytes e) : LoopEnd p s j (n + 1) bytes e := by
  cases h with
  | done h => exact .done (by rw [h]; congr 2; omega)
  | readFault i x h1 h2 hb hx => exact .readFault i x (by omega) (by omega) hb hx
  | writeFault i x h1 h2 hb hv hx => exact .writeFault i x (by omega) (by omega) hb hv hx

/-- Sample number j of the stream, byte by byte. -/
theorem streamByte_sample {s : State} {p : EncodeParams} {j k : Nat} {v : Int} (hk : k < p.width)
    (hv : chanLevel s (j % p.channels) ((j / p.channels * p.period : Nat) : Int) = .ok v) :
    streamByte s p (44 + j * p.width + k) = (quantise v p.width).getD k 0 := by
  have hW : 0 < p.width := by omega
  have h1 : 44 + j * p.width + k - 44 = k + j * p.width := by omega
  have h2 : (k + j * p.width) / p.width = j := by
    rw [Nat.add_mul_div_right _ _ hW, Nat.div_eq_of_lt hk, Nat.zero_add]
  have h3 : (k + j * p.width) % p.width = k := by rw [Nat.add_mul_mod_self_right, Nat.mod_eq_of_lt hk]
  simp only [streamByte, if_neg (show ¬ 44 + j * p.width + k < 44 by omega), h1, h2, h3, hv]

/-- Everything the interleaver can do, from a state t whose levels are those of s and stay so while
only the output region `out` is written: it changes memory alone, in canonical form, and only inside the
bytes it reports; these hold the stream and answer; the samples they begin have a level; and it ends in
one of three ways. -/
theorem encodeLoop_spec (p : EncodeParams) (s : State) (out : Region) (n j : Nat) (t : State)
    (hC : 0 < p.channels) (hout : out = ⟨p.outBase, 44 + (j + n) * p.width⟩)
    (hp : t.platform = s.platform)
    (hl : ∀ m, (∀ x, out.has x = false → ({ t with mem := m } : State).readByte x = t.readByte x) →
      SameLevels s { t with mem := m } p.channels) :
    ∃ m bytes e, encodeLoop p n j t = ({ t with mem := m }, bytes, e) ∧
      LoopEnd p s j n bytes e ∧
      (∀ x, x < p.outBase + (44 + j * p.width) ∨ p.outBase + bytes ≤ x →
        ({ t with mem := m } : State).readByte x = t.readByte x) ∧
      (∀ k, 44 + j * p.width ≤ k → k < bytes →
        ({ t with mem := m } : State).readByte (p.outBase + k) = streamByte s p k) ∧
      (∀ x, p.outBase + (44 + j * p.width) ≤ x → x < p.outBase + bytes → s.platform.memOK x = true) ∧
      (∀ i, j ≤ i → 44 + i * p.width < bytes →
        ∃ v, chanLevel s (i % p.channels) ((i / p.channels * p.period : Nat) : Int) = .ok v) ∧
      (Memory.wf t.mem = true → p.outBase + (44 + (j + n) * p.width) ≤ Config.addrSpace →
        Memory.wf m = true) := by
  induction n generalizing j t with
  | zero =>
    refine ⟨t.mem, 44 + j * p.width, none, rfl, .done (by simp), fun x _ => rfl, fun k h1 h2 => by omega,
      fun x h1 h2 => by omega, fun i h1 h2 => ?_, fun h _ => h⟩
    have := Nat.mul_le_mul_right p.width h1
    omega
  | succ n ih =>
    have hlt : SameLevels s t p.channels := hl t.mem (fun x _ => rfl)
    have hlev := hlt (j % p.channels) (Nat.mod_lt _ hC) ((j / p.channels * p.period : Nat) : Int)
    simp only [encodeLoop, hlev]
    cases hv : chanLevel s (j % p.channels) ((j / p.channels * p.period : Nat) : Int) with
    | error x =>
      refine ⟨t.mem, 44 + j * p.width, _, rfl, .readFault j x le_rfl (by omega) rfl hv, fun x _ => rfl,
        fun k h1 h2 => by omega, fun x h1 h2 => by omega, fun i h1 h2 => ?_, fun h _ => h⟩
      have := Nat.mul_le_mul_right p.width h1
      omega
    | ok v =>
      have hlen : (quantise v p.width).length = p.width := quantise_length v
      have hnext : (j + (n + 1)) * p.width = (j + n) * p.width + p.width := by
        rw [← Nat.add_assoc, Nat.add_mul, Nat.one_mul]
      have hjn : j * p.width ≤ (j + n) * p.width := Nat.mul_le_mul_right _ (by omega)
      rcases dmaWrite_cases t (p.outBase + (44 + j * p.width)) (quantise v p.width) with
        ⟨hok, he⟩ | ⟨x, hx, he⟩
      · simp only [he]
        obtain ⟨m1, hm1⟩ := writeBytes_frame t (p.outBase + (44 + j * p.width)) (quantise v p.width)
        have hread : ∀ x, ({ t with mem := m1 } : State).readByte x =
            if p.outBase + (44 + j * p.width) ≤ x ∧ x < p.outBase + (44 + j * p.width) + p.width
            then (quantise v p.width).getD (x - (p.outBase + (44 + j * p.width))) 0
            else t.readByte x := by
          intro x; rw [← hm1, readByte_writeBytes, hlen]
        rw [hm1]
        have hj1 : (j + 1) * p.width = j * p.width + p.width := by rw [Nat.add_mul, Nat.one_mul]
        obtain ⟨m, bytes, e, h1, h2, h3, h4, h5, h6, h7⟩ := ih (j + 1) { t with mem := m1 }
          (by rw [hout]; congr 3; omega) hp (fun m hm => hl m (fun x hx => by
            rw [hm x hx, hread, if_neg]
            rw [hout] at hx
            simp [Region.has] at hx
            omega))
        have hbd := h2.bounds
        refine ⟨m, bytes, e, h1, h2.step, fun x hx => ?_, fun k hk1 hk2 => ?_, fun x hx1 hx2 => ?_,
          fun i hi1 hi2 => ?_, fun hm hfit => h7 ?_ (by rw [show j + 1 + n = j + (n + 1) by omega]; exact hfit)⟩
        · rw [h3 x (by omega), hread, if_neg (by omega)]
        · by_cases hk : 44 + (j + 1) * p.width ≤ k
          · exact h4 k hk hk2
          · rw [h3 _ (by omega), hread, if_pos (by omega)]
            have ek : k = 44 + j * p.width + (k - (44 + j * p.width)) := by omega
            rw [ek, streamByte_sample (by omega) hv]
            congr 1; omega
        · by_cases hx : p.outBase + (44 + (j + 1) * p.width) ≤ x
          · exact h5 x hx hx2
          · rw [← hp]; exact hok x hx1 (by omega)
        · rcases Nat.eq_or_lt_of_le hi1 with rfl | hlt'
          · exact ⟨v, hv⟩
          · exact h6 i hlt' hi2
        · have hw := wf_writeBytes t (p.outBase + (44 + j * p.width)) (quantise v p.width) hm (by omega)
          rw [hm1] at hw; exact hw
      · simp only [he]
        obtain ⟨x1, x2, x3, x4⟩ := hx
        rw [hlen] at x2
        obtain ⟨m1, hm1⟩ := writeBytes_frame t (p.outBase + (44 + j * p.width))
          ((quantise v p.width).take (x - (p.outBase + (44 + j * p.width))))
        have hread := fun y => readByte_writeBytes t (p.outBase + (44 + j * p.width))
          ((quantise v p.width).take (x - (p.outBase + (44 + j * p.width)))) y
        rw [hm1] at hread ⊢
        have htl : ((quantise v p.width).take (x - (p.outBase + (44 + j * p.width)))).length =
            x - (p.outBase + (44 + j * p.width)) := by
          rw [List.length_take, hlen]; omega
        rw [htl] at hread
        refine ⟨m1, x - p.outBase, _, rfl,
          .writeFault j x le_rfl (by omega) rfl ⟨v, hv⟩ ⟨x1, x2, hp ▸ x3, fun y h1 h2 => hp ▸ x4 y h1 h2⟩,
          fun y hy => ?_, fun k hk1 hk2 => ?_, fun y hy1 hy2 => hp ▸ x4 y hy1 (by omega),
          fun i hi1 hi2 => ?_, fun hm hfit => ?_⟩
        · rw [hread, if_neg (by omega)]
        · rw [hread, if_pos (by omega)]
          have ek : k = 44 + j * p.width + (k - (44 + j * p.width)) := by omega
          rw [ek, streamByte_sample (by omega) hv]
          rw [List.getD_eq_getElem?_getD, List.getD_eq_getElem?_getD, List.getElem?_take, if_pos (by omega)]
          congr 2; omega
        · rcases Nat.eq_or_lt_of_le hi1 with rfl | hlt'
          · exact ⟨v, hv⟩
          · have := Nat.mul_le_mul_right p.width (show j + 1 ≤ i from hlt')
            rw [Nat.add_mul, Nat.one_mul] at this
            omega
        · have hw := wf_writeBytes t (p.outBase + (44 + j * p.width))
            ((quantise v p.width).take (x - (p.outBase + (44 + j * p.width)))) hm (by omega)
          rw [hm1] at hw; exact hw

/-! ### The checks and the stream -/

@[simp] theorem wavHeader_length (p : EncodeParams) : (wavHeader p).length = 44 := by
  simp [wavHeader, asciiRIFF, asciiWAVE, asciiFmt, asciiData]

/-- What a passed check of ENCODE gives (43_encode.md R187). -/
structure EncodeOk (s : State) : Prop where
  width : (encodeParams s).width ∈ Config.widths
  channels_pos : 0 < (encodeParams s).channels
  channels_le : (encodeParams s).channels ≤ Config.nCh
  rate_pos : 0 < (encodeParams s).rate
  rate_le : (encodeParams s).rate ≤ Config.unitTime
  length_nonneg : 0 ≤ s64 s.cfg.encLength
  byteRate : (encodeParams s).rate * (encodeParams s).channels * (encodeParams s).width < 2 ^ 32
  dataLen : 36 + (encodeParams s).dataLen < 2 ^ 32
  channel : ∀ c, c < (encodeParams s).channels → checkChannel c (s.ch c) = none
  room : (encodeParams s).total ≤ s.cfg.outLen.toNat
  fits : (encodeParams s).outBase + (encodeParams s).total ≤ Config.addrSpace
  apart : ∀ c, c < (encodeParams s).channels → kindOf (s.ch c).src = some .buffer →
    (encodeParams s).output.overlaps (s.ch c).bufRegion = false

theorem encodeOk_of_check {s : State} (h : checkEncode s = none) : EncodeOk s := by
  simp only [checkEncode] at h
  split at h
  · cases h
  next h1 =>
  split at h
  · cases h
  next h2 =>
  split at h
  · cases h
  next h3 =>
  split at h
  · cases h
  next h4 =>
  split at h
  · cases h
  next h5 =>
  split at h
  · cases h
  next h6 =>
  split at h
  · cases h
  next h7 =>
  split at h
  · cases h
  next h8 =>
  split at h
  · cases h
  next h9 =>
  simp only [firstBadChannel, List.findSome?_eq_none_iff, List.mem_range] at h7
  simp only [firstOverlap, List.findSome?_eq_none_iff, List.mem_range] at h
  simp only [Bool.not_eq_true', Bool.not_eq_false, Region.fits_iff] at h9
  exact {
    width := by simpa using h1
    channels_pos := by omega
    channels_le := by omega
    rate_pos := by omega
    rate_le := by omega
    length_nonneg := by omega
    byteRate := by omega
    dataLen := by omega
    channel := h7
    room := by omega
    fits := h9
    apart := fun c hc hk => by
      have := h c hc
      simpa [hk] using this }

/-- How ENCODE's stream can end (43_encode.md R200): the header's write first, then the samples. -/
inductive StreamEnd (p : EncodeParams) (s : State) (bytes : Nat) : Option Raise → Prop where
  | headerFault (x : Nat) (hb : bytes = x - p.outBase) (hx : FirstSilent s.platform p.outBase 44 x) :
      StreamEnd p s bytes (some (busError x bytes))
  | samples (e : Option Raise) (hh : AllAnswer s.platform p.outBase 44)
      (h : LoopEnd p s 0 (p.samples * p.channels) bytes e) : StreamEnd p s bytes e

theorem StreamEnd.bounds {p : EncodeParams} {s : State} {bytes : Nat} {e : Option Raise}
    (h : StreamEnd p s bytes e) : bytes ≤ p.total := by
  have : p.total = 44 + p.samples * p.channels * p.width := rfl
  cases h with
  | headerFault x hb hx => have := hx.2.1; omega
  | samples e hh h => have := h.bounds; simp only [Nat.zero_add] at this; omega

/-- Everything ENCODE's stream can do once the checks passed (43_encode.md R189, R192, R196, R200): it
changes memory alone, in canonical form, and only the bytes it reports; these hold the stream and answer;
the samples they begin have a level; and it ends in one of the ways of `StreamEnd`. -/
theorem encodeStream_spec {s : State} (h : checkEncode s = none) :
    ∃ m bytes e, encodeStream (encodeParams s) s = ({ s with mem := m }, bytes, e) ∧
      StreamEnd (encodeParams s) s bytes e ∧
      (∀ x, x < (encodeParams s).outBase ∨ (encodeParams s).outBase + bytes ≤ x →
        ({ s with mem := m } : State).readByte x = s.readByte x) ∧
      (∀ k, k < bytes →
        ({ s with mem := m } : State).readByte ((encodeParams s).outBase + k) =
          streamByte s (encodeParams s) k) ∧
      (∀ x, (encodeParams s).outBase ≤ x → x < (encodeParams s).outBase + bytes →
        s.platform.memOK x = true) ∧
      (∀ i, 44 + i * (encodeParams s).width < bytes →
        ∃ v, chanLevel s (i % (encodeParams s).channels)
          ((i / (encodeParams s).channels * (encodeParams s).period : Nat) : Int) = .ok v) ∧
      (Memory.wf s.mem = true → Memory.wf m = true) := by
  have ok := encodeOk_of_check h
  generalize hp : encodeParams s = p at *
  have hhdr := wavHeader_length p
  rcases dmaWrite_cases s p.outBase (wavHeader p) with ⟨hok, he⟩ | ⟨x, hx, he⟩
  · obtain ⟨m1, hm1⟩ := writeBytes_frame s p.outBase (wavHeader p)
    have hread : ∀ x, ({ s with mem := m1 } : State).readByte x =
        if p.outBase ≤ x ∧ x < p.outBase + 44 then (wavHeader p).getD (x - p.outBase) 0
        else s.readByte x := by
      intro x; rw [← hm1, readByte_writeBytes, hhdr]
    have htot : p.total = 44 + (0 + p.samples * p.channels) * p.width := by
      simp [EncodeParams.total, EncodeParams.dataLen]
    have h44 : 44 ≤ p.total := by omega
    have hfits : p.outBase + p.total ≤ Config.addrSpace := by have := ok.fits; rwa [hp] at this
    obtain ⟨m, bytes, e, h1, h2, h3, h4, h5, h6, h7⟩ := encodeLoop_spec p s p.output (p.samples * p.channels) 0
      { s with mem := m1 } (hp ▸ ok.channels_pos) (by rw [EncodeParams.output, htot]) rfl
      (fun m hm => sameLevels_of_outside (r := p.output) rfl (fun c => rfl) (fun x hx => by
        rw [hm x hx, hread, if_neg]
        have hx' : ¬(p.output.base ≤ x ∧ x < p.output.base + p.output.len) := by
          rw [← Region.has_iff, hx]; simp
        simp only [EncodeParams.output] at hx'
        omega) (fun c hc hk => by have := ok.apart c (hp ▸ hc) hk; rwa [hp] at this))
    have hbd := h2.bounds
    refine ⟨m, bytes, e, ?_, .samples e (hhdr ▸ hok) h2, fun x hx => ?_, fun k hk => ?_,
      fun x hx1 hx2 => ?_, fun i hi => h6 i (by omega) hi, fun hm => h7 ?_ (by omega)⟩
    · simp only [encodeStream, he, hm1, h1]
    · have := h3 x (by omega)
      rw [hread, if_neg (by omega)] at this
      exact this
    · by_cases hk4 : 44 ≤ k
      · exact h4 k (by omega) hk
      · have := h3 (p.outBase + k) (by omega)
        rw [hread, if_pos (by omega)] at this
        rw [streamByte, if_pos (by omega), show k = p.outBase + k - p.outBase by omega]
        rw [show p.outBase + (p.outBase + k - p.outBase) = p.outBase + k by omega]
        exact this
    · by_cases hx : p.outBase + (44 + 0 * p.width) ≤ x
      · exact h5 x hx hx2
      · exact hok x hx1 (by omega)
    · have hw := wf_writeBytes s p.outBase (wavHeader p) hm (by omega)
      rw [hm1] at hw; exact hw
  · rw [hhdr] at hx
    obtain ⟨x1, x2, x3, x4⟩ := hx
    obtain ⟨m1, hm1⟩ := writeBytes_frame s p.outBase
      ((wavHeader p).take (x - p.outBase))
    have htl : ((wavHeader p).take (x - p.outBase)).length = x - p.outBase := by
      rw [List.length_take, hhdr]; omega
    have hread : ∀ y, ({ s with mem := m1 } : State).readByte y =
        if p.outBase ≤ y ∧ y < p.outBase + (x - p.outBase)
        then ((wavHeader p).take (x - p.outBase)).getD (y - p.outBase) 0 else s.readByte y := by
      intro y; rw [← hm1, readByte_writeBytes, htl]
    refine ⟨m1, x - p.outBase, some (busError x (x - p.outBase)), ?_,
      .headerFault x rfl ⟨x1, x2, x3, x4⟩, fun y hy => ?_, fun k hk => ?_,
      fun y hy1 hy2 => x4 y hy1 (by omega), fun i hi => by omega, fun hm => ?_⟩
    · simp only [encodeStream, he, hm1]
    · exact (hread y).trans (if_neg (by omega))
    · refine (hread _).trans ?_
      rw [if_pos (by omega), streamByte, if_pos (by omega)]
      rw [List.getD_eq_getElem?_getD, List.getD_eq_getElem?_getD, List.getElem?_take, if_pos (by omega)]
      congr 2; omega
    · have hfits : p.outBase + p.total ≤ Config.addrSpace := by have := ok.fits; rwa [hp] at this
      have htot : 44 ≤ p.total := by simp [EncodeParams.total]
      have hw := wf_writeBytes s p.outBase ((wavHeader p).take (x - p.outBase)) hm (by omega)
      rw [hm1] at hw; exact hw

end Sys2Proof.Machine
end

