-- ==== Sys2Proof/Laws/WavDecode.lean ====
section
/-! SUPPORT. Everything DECODE's parser and de-interleaver can do. -/

namespace Sys2Proof.Machine

/-! ### The parser -/

theorem inRead_ok {s : State} {p k : Nat} {bs : List Byte} (h : inRead s p k = .ok bs) :
    bs = (List.range k).map (fun i => s.readByte (s.cfg.inBase.toNat + p + i)) := by
  simp only [inRead] at h
  split at h
  · next bs' hb => cases h; exact (dmaRead_length hb).2
  · cases h

theorem inRead_answers {s : State} {p k : Nat} {bs : List Byte} (h : inRead s p k = .ok bs) :
    AllAnswer s.platform (s.cfg.inBase.toNat + p) k := by
  unfold inRead at h
  split at h
  · next hr => exact (dmaRead_length hr).1
  · cases h

theorem inRead_error {s : State} {p k : Nat} {e : Raise} (h : inRead s p k = .error e) :
    ∃ x, FirstSilent s.platform (s.cfg.inBase.toNat + p) k x ∧
      e = busError x (x - s.cfg.inBase.toNat) := by
  simp only [inRead] at h
  split at h
  · cases h
  · next x hx => cases h; exact ⟨x, dmaRead_error hx, rfl⟩

/-- A chunk search that finds its chunk stops at a body offset inside the stream, past pos. -/
theorem findChunk_ok {s : State} {id : List Byte} {fuel pos b len : Nat} (hpos : pos ≤ inLen s)
    (h : findChunk s id fuel pos = .ok (b, len)) : pos + 8 ≤ b ∧ b ≤ inLen s := by
  induction fuel generalizing pos with
  | zero => simp [findChunk] at h
  | succ fuel ih =>
    simp only [findChunk] at h
    split at h
    · cases h
    next h1 =>
    split at h
    · cases h
    split at h
    · cases h; omega
    split at h
    · cases h
    next h2 => have := ih (by omega) h; omega

/-- The errors of a chunk search: a stream that ends too early, or a silent address. -/
theorem findChunk_error {s : State} {id : List Byte} {fuel pos : Nat} {e : Raise}
    (h : findChunk s id fuel pos = .error e) :
    e.code = .malformedHeader ∨ e.code = .shortRead ∨ e.code = .busError := by
  induction fuel generalizing pos with
  | zero => simp only [findChunk] at h; cases h; exact .inl rfl
  | succ fuel ih =>
    simp only [findChunk] at h
    split at h
    · cases h; exact .inl rfl
    split at h
    · next e' he => obtain ⟨x, _, rfl⟩ := inRead_error he; cases h; exact .inr (.inr rfl)
    split at h
    · cases h
    split at h
    · cases h; exact .inr (.inl rfl)
    · exact ih h

/-- More fuel than the stream needs changes nothing. -/
theorem findChunk_fuel {s : State} {id : List Byte} {f g pos : Nat}
    (hf : inLen s - pos < 8 * f + 8) (hg : inLen s - pos < 8 * g + 8) :
    findChunk s id f pos = findChunk s id g pos := by
  induction f generalizing g pos with
  | zero =>
    cases g with
    | zero => rfl
    | succ g => rw [findChunk, findChunk, if_pos (by omega)]
  | succ f ih =>
    cases g with
    | zero => rw [findChunk, findChunk, if_pos (by omega)]
    | succ g =>
      simp only [findChunk]
      split
      · rfl
      split
      · rfl
      split
      · rfl
      split
      · rfl
      · exact ih (by omega) (by omega)

/-- What a stream that parses satisfies (44_decode.md R221, R224 to R227). -/
structure PlanOk (s : State) (p : DecodePlan) : Prop where
  channels_pos : 0 < p.channels
  channels_le : p.channels ≤ Config.nCh
  width : p.width ∈ Config.widths
  rate_pos : 0 < p.rate
  rate_le : p.rate ≤ Config.unitTime
  whole : p.dataLen % p.channels = 0
  room : p.need ≤ s.cfg.scrLen.toNat
  present : p.dataOff + p.need ≤ inLen s
  off : 44 ≤ p.dataOff

theorem planOk_of_parse {s : State} {p : DecodePlan} (h : parseStream s = .ok p) : PlanOk s p := by
  simp only [parseStream] at h
  split at h
  · cases h
  next hriff =>
  split at h
  · cases h
  next f hf =>
  split at h
  · cases h
  next hc =>
  have hn : 12 ≤ inLen s := by
    simp only [readRiff] at hriff
    split at hriff
    · cases hriff
    · omega
  have hbody : 20 ≤ f.body ∧ f.body + 16 ≤ inLen s ∧ 16 ≤ f.len := by
    simp only [readFmt] at hf
    split at hf
    · cases hf
    next b flen hb =>
    have := findChunk_ok hn hb
    split at hf
    · cases hf
    split at hf
    · cases hf
    split at hf
    · cases hf
    · cases hf; simp only; omega
  have hck : f.channels ≠ 0 ∧ f.channels ≤ Config.nCh ∧ f.bits / 8 ∈ Config.widths ∧ f.rate ≠ 0 ∧
      f.rate ≤ Config.unitTime ∧ f.body + f.len ≤ inLen s := by
    simp only [checkFmt] at hc
    split at hc
    · cases hc
    split at hc
    · cases hc
    split at hc
    · cases hc
    split at hc
    · cases hc
    split at hc
    · cases hc
    next hw =>
    split at hc
    · cases hc
    split at hc
    · cases hc
    · exact ⟨by omega, by omega, by simpa using hw, by omega, by omega, by omega⟩
  simp only [readData] at h
  split at h
  · cases h
  next d dlen hd =>
  have hdd := findChunk_ok hck.2.2.2.2.2 hd
  split at h
  · cases h
  next h1 =>
  split at h
  · cases h
  next h2 =>
  split at h
  · cases h
  next h3 =>
  cases h
  exact ⟨by simp only; omega, hck.2.1, hck.2.2.1, by simp only; omega, hck.2.2.2.2.1, by simp only; omega,
    by omega, by simp only at h3 ⊢; omega, by simp only; omega⟩

/-! ### The de-interleaver -/

/-- The scratch slot of sample number j, in samples (44_decode.md R228). -/
def DecodePlan.slot (p : DecodePlan) (j : Nat) : Nat := j % p.channels * p.frames + j / p.channels

theorem scratchAddr_eq (p : DecodePlan) (scr j : Nat) :
    p.scratchAddr scr (j / p.channels) (j % p.channels) = scr + p.slot j * p.width := by
  simp only [DecodePlan.scratchAddr, DecodePlan.slot]; ring

theorem slot_lt {p : DecodePlan} {j : Nat} (hc : 0 < p.channels) (hj : j < p.frames * p.channels) :
    p.slot j < p.frames * p.channels := by
  have h1 : j / p.channels < p.frames := (Nat.div_lt_iff_lt_mul hc).2 hj
  have h2 : j % p.channels + 1 ≤ p.channels := Nat.mod_lt _ hc
  have h3 := Nat.mul_le_mul_right p.frames h2
  rw [Nat.add_mul, Nat.one_mul, Nat.mul_comm p.channels] at h3
  simp only [DecodePlan.slot]; omega

theorem slot_inj {p : DecodePlan} {i j : Nat} (hc : 0 < p.channels) (hi : i < p.frames * p.channels)
    (hj : j < p.frames * p.channels) (h : p.slot i = p.slot j) : i = j := by
  have hi1 : i / p.channels < p.frames := (Nat.div_lt_iff_lt_mul hc).2 hi
  have hj1 : j / p.channels < p.frames := (Nat.div_lt_iff_lt_mul hc).2 hj
  have hF : 0 < p.frames := lt_of_le_of_lt (Nat.zero_le _) hi1
  simp only [DecodePlan.slot] at h
  have hd : ∀ a b : Nat, b < p.frames → (a * p.frames + b) / p.frames = a := fun a b hb => by
    rw [Nat.add_comm, Nat.add_mul_div_right _ _ hF, Nat.div_eq_of_lt hb, Nat.zero_add]
  have hq := hd (i % p.channels) _ hi1
  rw [h, hd _ _ hj1] at hq
  rw [← hq] at h
  have : i / p.channels = j / p.channels := by omega
  rw [← Nat.div_add_mod i p.channels, ← Nat.div_add_mod j p.channels, this, hq]

/-- How the de-interleaver can fail at sample number i (44_decode.md R228, 60_exceptions.md R272). -/
inductive CopyFault (p : DecodePlan) (s : State) (i : Nat) : Raise → Prop where
  | read (x : Nat) (h : FirstSilent s.platform (s.cfg.inBase.toNat + (p.dataOff + i * p.width)) p.width x) :
      CopyFault p s i (busError x (x - s.cfg.inBase.toNat))
  | write (x : Nat)
      (hr : AllAnswer s.platform (s.cfg.inBase.toNat + (p.dataOff + i * p.width)) p.width)
      (h : FirstSilent s.platform (s.cfg.scrBase.toNat + p.slot i * p.width) p.width x) :
      CopyFault p s i (busError x
        (p.dataOff + i * p.width + (x - (s.cfg.scrBase.toNat + p.slot i * p.width))))

/-- The bytes of sample number i answer, where it is read and where it is written. -/
def CopyAnswers (p : DecodePlan) (s : State) (i : Nat) : Prop :=
  AllAnswer s.platform (s.cfg.inBase.toNat + (p.dataOff + i * p.width)) p.width ∧
    AllAnswer s.platform (s.cfg.scrBase.toNat + p.slot i * p.width) p.width

/-- Everything the de-interleaver can do, from a state t that agrees with s on the data body, which lies
apart from the scratch bytes: it changes memory alone, in canonical form, and only the slots of the samples it copies;
if it ends without error each sample stands in its slot and all its bytes answered; an error is that of
the first sample in loop order whose bytes do not all answer. -/
theorem deinterleave_spec (p : DecodePlan) (s : State) (n j : Nat) (t : State)
    (hc : 0 < p.channels) (hnj : j + n = p.frames * p.channels)
    (hp : t.platform = s.platform) (hcfg : t.cfg = s.cfg)
    (hap : ∀ x, s.cfg.inBase.toNat + p.dataOff ≤ x → x < s.cfg.inBase.toNat + p.dataOff + p.need →
      ¬(s.cfg.scrBase.toNat ≤ x ∧ x < s.cfg.scrBase.toNat + p.need))
    (hin : ∀ x, s.cfg.inBase.toNat + p.dataOff ≤ x → x < s.cfg.inBase.toNat + p.dataOff + p.need →
      t.readByte x = s.readByte x) :
    ∃ m e, deinterleave p n j t = ({ t with mem := m }, e) ∧
      (∀ x, (∀ i, j ≤ i → i < j + n → x < s.cfg.scrBase.toNat + p.slot i * p.width ∨
          s.cfg.scrBase.toNat + p.slot i * p.width + p.width ≤ x) →
        ({ t with mem := m } : State).readByte x = t.readByte x) ∧
      (e = none → ∀ i, j ≤ i → i < j + n → ∀ k, k < p.width →
        ({ t with mem := m } : State).readByte (s.cfg.scrBase.toNat + p.slot i * p.width + k) =
          s.readByte (s.cfg.inBase.toNat + (p.dataOff + i * p.width) + k)) ∧
      (∀ r, e = some r → ∃ i, j ≤ i ∧ i < j + n ∧ CopyFault p s i r ∧
        ∀ i', j ≤ i' → i' < i → CopyAnswers p s i') ∧
      (e = none → ∀ i, j ≤ i → i < j + n → CopyAnswers p s i) ∧
      (Memory.wf t.mem = true → s.cfg.scrBase.toNat + p.need ≤ Config.addrSpace → Memory.wf m = true) := by
  induction n generalizing j t with
  | zero =>
    exact ⟨t.mem, none, rfl, fun x _ => rfl, fun _ i h1 h2 => by omega, fun r hr => (by cases hr),
      fun _ i h1 h2 => by omega, fun h _ => h⟩
  | succ n ih =>
    have hj : j < p.frames * p.channels := by omega
    have hslot := slot_lt hc hj
    have hWn : ∀ i, i < p.frames * p.channels → i * p.width + p.width ≤ p.need := fun i hi => by
      have := Nat.mul_le_mul_right p.width (show i + 1 ≤ p.frames * p.channels from hi)
      rw [Nat.add_mul, Nat.one_mul] at this
      exact this
    have hdj := hWn j hj
    have hsj := hWn _ hslot
    simp only [deinterleave]
    cases hr : inRead t (p.dataOff + j * p.width) p.width with
    | error r =>
      obtain ⟨x, hx, rfl⟩ := inRead_error hr
      refine ⟨t.mem, _, rfl, fun x _ => rfl, fun h => absurd h (by simp), fun r hr => ?_,
        fun h => absurd h (by simp), fun h _ => h⟩
      cases hr
      rw [hp] at hx
      rw [hcfg] at hx ⊢
      exact ⟨j, le_rfl, by omega, .read x hx, fun i' h1 h2 => by omega⟩
    | ok bs =>
      have hbs := inRead_ok hr
      have hra := inRead_answers hr
      rw [hp, hcfg] at hra
      have hlen : bs.length = p.width := by rw [hbs]; simp
      simp only [show t.cfg.scrBase = s.cfg.scrBase by rw [hcfg], scratchAddr_eq]
      rcases dmaWrite_cases t (s.cfg.scrBase.toNat + p.slot j * p.width) bs with ⟨hok, he⟩ | ⟨x, hx, he⟩
      · simp only [he]
        have hcopied : CopyAnswers p s j := ⟨hra, by rw [hp, hlen] at hok; exact hok⟩
        obtain ⟨m1, hm1⟩ := writeBytes_frame t (s.cfg.scrBase.toNat + p.slot j * p.width) bs
        have hread := fun x => readByte_writeBytes t (s.cfg.scrBase.toNat + p.slot j * p.width) bs x
        rw [hm1] at hread ⊢
        rw [hlen] at hread
        obtain ⟨m, e, h1, h2, h3, h4, h5, h6⟩ := ih (j + 1) { t with mem := m1 } (by omega) hp hcfg
          (fun x hx1 hx2 => by
            rw [hread, if_neg]
            · exact hin x hx1 hx2
            · have := hap x hx1 hx2; omega)
        refine ⟨m, e, h1, fun x hx => ?_, fun hn i hi1 hi2 k hk => ?_, fun r hr => ?_,
          fun hn i hi1 hi2 => ?_, fun hm hfit => h6 ?_ hfit⟩
        · have := hx j le_rfl (by omega)
          exact (h2 x (fun i hi1 hi2 => hx i (by omega) (by omega))).trans
            ((hread x).trans (if_neg (by omega)))
        · rcases Nat.eq_or_lt_of_le hi1 with rfl | hlt
          · refine (h2 _ (fun i hi1 hi2 => ?_)).trans ((hread _).trans ?_)
            · have hne : p.slot i ≠ p.slot j := fun h => by
                have := slot_inj hc (by omega) hj h; omega
              rcases Nat.lt_or_gt_of_ne hne with h | h
              · have := Nat.mul_le_mul_right p.width (show p.slot i + 1 ≤ p.slot j from h)
                rw [Nat.add_mul, Nat.one_mul] at this
                omega
              · have := Nat.mul_le_mul_right p.width (show p.slot j + 1 ≤ p.slot i from h)
                rw [Nat.add_mul, Nat.one_mul] at this
                omega
            · rw [if_pos (by omega), hbs, show s.cfg.scrBase.toNat + p.slot j * p.width + k -
                (s.cfg.scrBase.toNat + p.slot j * p.width) = k by omega]
              rw [List.getD_eq_getElem?_getD, List.getElem?_map, List.getElem?_range hk]
              simp only [Option.map_some, Option.getD_some, hcfg]
              exact hin _ (by omega) (by omega)
          · exact h3 hn i hlt (by omega) k hk
        · obtain ⟨i, hi1, hi2, hf, hf'⟩ := h4 r hr
          refine ⟨i, by omega, by omega, hf, fun i' h1 h2 => ?_⟩
          rcases Nat.eq_or_lt_of_le h1 with rfl | hlt
          · exact hcopied
          · exact hf' i' hlt h2
        · rcases Nat.eq_or_lt_of_le hi1 with rfl | hlt
          · exact hcopied
          · exact h5 hn i hlt (by omega)
        · have hw := wf_writeBytes t (s.cfg.scrBase.toNat + p.slot j * p.width) bs hm
            (by rw [hlen]; omega)
          rw [hm1] at hw; exact hw
      · simp only [he]
        rw [hlen] at hx
        obtain ⟨m1, hm1⟩ := writeBytes_frame t (s.cfg.scrBase.toNat + p.slot j * p.width)
          (bs.take (x - (s.cfg.scrBase.toNat + p.slot j * p.width)))
        have hread := fun y => readByte_writeBytes t (s.cfg.scrBase.toNat + p.slot j * p.width)
          (bs.take (x - (s.cfg.scrBase.toNat + p.slot j * p.width))) y
        rw [hm1] at hread ⊢
        refine ⟨m1, _, rfl, fun y hy => ?_, fun h => absurd h (by simp), fun r hr => ?_,
          fun h => absurd h (by simp), fun hm hfit => ?_⟩
        · have := hy j le_rfl (by omega)
          rw [hread, if_neg]
          rw [List.length_take, hlen]
          omega
        · cases hr
          exact ⟨j, le_rfl, by omega, .write x hra (hp ▸ hx), fun i' h1 h2 => by omega⟩
        · have hw := wf_writeBytes t (s.cfg.scrBase.toNat + p.slot j * p.width)
            (bs.take (x - (s.cfg.scrBase.toNat + p.slot j * p.width))) hm
            (by rw [List.length_take, hlen]; omega)
          rw [hm1] at hw; exact hw

end Sys2Proof.Machine
end

