-- ==== Sys2Proof/Laws/Exec.lean ====
section
/-! SUPPORT. Everything a command can do to the state, said once for each; the turns of the machine. -/

namespace Sys2Proof.Machine

/-- A failed check of ENCODE completes at once (43_encode.md R187). -/
theorem encodeRun_of_error {s : State} {e : Raise} (h : checkEncode s = some e) :
    encodeRun s = complete (some e) s := by simp [encodeRun, h]

/-- Everything ENCODE can do once its checks passed. -/
theorem encodeRun_spec {s : State} (h : checkEncode s = none) :
    ∃ m bytes e, encodeRun s =
        complete e ((({ s with mem := m } : State).setEnc
          ((encodeParams s).results bytes)).markRegions (encodeTouched s bytes)) ∧
      StreamEnd (encodeParams s) s bytes e ∧
      (∀ x, x < (encodeParams s).outBase ∨ (encodeParams s).outBase + bytes ≤ x →
        ({ s with mem := m } : State).readByte x = s.readByte x) ∧
      (∀ k, k < bytes →
        ({ s with mem := m } : State).readByte ((encodeParams s).outBase + k) =
          streamByte s (encodeParams s) k) ∧
      (∀ x, (encodeParams s).outBase ≤ x → x < (encodeParams s).outBase + bytes →
        s.platform.memOK x = true) ∧
      (∀ i, 44 + i * (encodeParams s).width < bytes →
        ∃ v, chanLevel s (i % (encodeParams s).channels)
          ((i / (encodeParams s).channels * (encodeParams s).period : Nat) : Int) = .ok v) ∧
      (Memory.wf s.mem = true → Memory.wf m = true) := by
  obtain ⟨m, bytes, e, h1, h2⟩ := encodeStream_spec h
  exact ⟨m, bytes, e, by simp only [encodeRun, h, h1], h2⟩

/-- What a passed region check of DECODE gives (44_decode.md R216). -/
theorem decodeOk_of_check {s : State} (h : checkDecode s = none) :
    (inRegion s).fits = true ∧ (scrRegion s).fits = true ∧
      (inRegion s).overlaps (scrRegion s) = false := by
  simp only [checkDecode] at h
  split at h
  · cases h
  split at h
  · cases h
  split at h
  · cases h
  · next h1 h2 h3 => exact ⟨by simpa using h1, by simpa using h2, by simpa using h3⟩

theorem decodeRun_of_check_error {s : State} {e : Raise} (h : checkDecode s = some e) :
    decodeRun s = complete (some e) s := by simp [decodeRun, h]

theorem dmaRead_mark (s : State) (rs : List Region) (a n : Nat) :
    dmaRead (s.markRegions rs) a n = dmaRead s a n :=
  dmaRead_congr (s := s) (t := s.markRegions rs) rfl (fun _ _ _ => rfl)

theorem inRead_mark (s : State) (rs : List Region) (p k : Nat) :
    inRead (s.markRegions rs) p k = inRead s p k := by simp only [inRead, dmaRead_mark, markRegions_cfg]

theorem findChunk_mark (s : State) (rs : List Region) (id : List Byte) (f pos : Nat) :
    findChunk (s.markRegions rs) id f pos = findChunk s id f pos := by
  induction f generalizing pos with
  | zero => rfl
  | succ f ih => simp only [findChunk, inRead_mark, ih]; rfl

theorem parseStream_mark (s : State) (rs : List Region) :
    parseStream (s.markRegions rs) = parseStream s := by
  simp only [parseStream, readRiff, readFmt, readData, inRead_mark, findChunk_mark]; rfl

theorem decodeRun_of_parse_error {s : State} {e : Raise} (hc : checkDecode s = none)
    (h : parseStream s = .error e) :
    decodeRun s = complete (some e) (s.markRegions (inputTouched s)) := by
  simp only [decodeRun, hc, parseStream_mark, h]

/-- The marks of a DECODE whose stream parses are those of the regions it accesses. -/
theorem decodeMarks (s : State) (p : DecodePlan) :
    (s.markRegions (inputTouched s)).markRegions (scratchTouched (s.markRegions (inputTouched s)) p) =
      s.markRegions (decodeTouched s p) := by
  have : scratchTouched (s.markRegions (inputTouched s)) p = scratchTouched s p := by
    simp only [scratchTouched, inRead_mark]; rfl
  rw [this, markRegions_append]; rfl

/-- What a DECODE accesses is its input and its scratch. -/
theorem decodeTouched_subset (s : State) (p : DecodePlan) :
    ∀ r ∈ decodeTouched s p, r ∈ [inRegion s, scrRegion s] := by
  intro r hr
  simp only [decodeTouched, inputTouched, scratchTouched, List.mem_append] at hr
  rcases hr with h | h <;> split at h <;> simp_all

/-- The scratch bytes a decode writes lie inside the scratch region and apart from the input. -/
theorem scratch_apart {s : State} {p : DecodePlan} (hc : checkDecode s = none) (hp : PlanOk s p) (x : Nat)
    (h1 : s.cfg.inBase.toNat + p.dataOff ≤ x) (h2 : x < s.cfg.inBase.toNat + p.dataOff + p.need) :
    ¬(s.cfg.scrBase.toNat ≤ x ∧ x < s.cfg.scrBase.toNat + p.need) := by
  intro h
  have hov := (decodeOk_of_check hc).2.2
  have h3 := hp.room
  have h4 := hp.present
  have hx : (inRegion s).has x = true := by
    simp only [Region.has_iff, inRegion]; simp only [inLen] at h4; omega
  have := Region.not_has_of_not_overlaps hov hx
  have hy : (scrRegion s).has x = true := by simp only [Region.has_iff, scrRegion]; omega
  simp [hy] at this

/-- Everything DECODE can do once its stream parsed. -/
theorem decodeRun_spec {s : State} {p : DecodePlan} (hc : checkDecode s = none)
    (h : parseStream s = .ok p) :
    ∃ m e, (e = none → decodeRun s =
        complete none (({ s.markRegions (decodeTouched s p) with mem := m } : State).setDec p.results)) ∧
      (∀ r, e = some r → decodeRun s =
        complete (some r) (({ s.markRegions (decodeTouched s p) with mem := m } : State).forget (p.scratch s))) ∧
      (∀ x, (∀ i, i < p.frames * p.channels → x < s.cfg.scrBase.toNat + p.slot i * p.width ∨
          s.cfg.scrBase.toNat + p.slot i * p.width + p.width ≤ x) →
        ({ s with mem := m } : State).readByte x = s.readByte x) ∧
      (e = none → ∀ i, i < p.frames * p.channels → ∀ k, k < p.width →
        ({ s with mem := m } : State).readByte (s.cfg.scrBase.toNat + p.slot i * p.width + k) =
          s.readByte (s.cfg.inBase.toNat + (p.dataOff + i * p.width) + k)) ∧
      (∀ r, e = some r → ∃ i, i < p.frames * p.channels ∧ CopyFault p s i r ∧
        ∀ i', i' < i → CopyAnswers p s i') ∧
      (e = none → ∀ i, i < p.frames * p.channels → CopyAnswers p s i) ∧
      (Memory.wf s.mem = true → Memory.wf m = true) := by
  have hp := planOk_of_parse h
  obtain ⟨m, e, h1, h2, h3, h4, h5, h6⟩ := deinterleave_spec p s (p.frames * p.channels) 0
    (s.markRegions (decodeTouched s p)) hp.channels_pos (Nat.zero_add _) rfl rfl (scratch_apart hc hp)
    (fun _ _ _ => rfl)
  have run : decodeRun s =
      match deinterleave p (p.frames * p.channels) 0 (s.markRegions (decodeTouched s p)) with
      | (s', some e) => complete (some e) (s'.forget (p.scratch s))
      | (s', none) => complete none (s'.setDec p.results) := by
    simp only [decodeRun, hc, parseStream_mark, h, decodeMarks] <;> rfl
  refine ⟨m, e, fun he => ?_, fun r he => ?_, fun x hx => ?_, fun he i hi k hk => ?_, fun r he => ?_,
    fun he i hi => h5 he i (by omega) (by omega), fun hm => h6 hm ?_⟩
  · subst he; simp only [run, h1]
  · subst he; simp only [run, h1]
  · exact h2 x (fun i _ hi => hx i (by omega))
  · exact h3 he i (by omega) (by omega) k hk
  · obtain ⟨i, _, hi, hf, hf'⟩ := h4 r he; exact ⟨i, by omega, hf, fun i' => hf' i' (Nat.zero_le _)⟩
  · have h7 := hp.room
    have h8 := (decodeOk_of_check hc).2.1
    rw [Region.fits_iff] at h8
    simp only [scrRegion] at h8
    omega

/-- A slot's bytes lie inside the scratch bytes of the decode. -/
theorem slot_inside {p : DecodePlan} (hc : 0 < p.channels) {i : Nat} (hi : i < p.frames * p.channels) :
    p.slot i * p.width + p.width ≤ p.need := by
  have := Nat.mul_le_mul_right p.width (show p.slot i + 1 ≤ p.frames * p.channels from slot_lt hc hi)
  rw [Nat.add_mul, Nat.one_mul] at this
  exact this

/-- GEN_EVAL changes the record, the mark and its own results, and nothing else. -/
theorem genEvalRun_cases (ch : BitVec 8) (w : BitVec 4) (s : State) :
    ∃ e rs r, genEvalRun ch w s = complete e ((s.markRegions rs).setEval r) ∧
      (e.isSome = true → r = s.eval) := by
  have keep : ∀ (t : State), t.setEval t.eval = t := fun t => rfl
  have hm : s.markRegions [] = s := by simp [State.markRegions]
  simp only [genEvalRun, illegalRun]
  split
  · exact ⟨_, [], s.eval, by rw [hm, keep], fun _ => rfl⟩
  split
  · exact ⟨_, [], s.eval, by rw [hm, keep], fun _ => rfl⟩
  split
  · exact ⟨_, [], s.eval, by rw [hm, keep], fun _ => rfl⟩
  split
  · exact ⟨_, evalTouched s ch.toNat, s.eval, rfl, fun _ => rfl⟩
  · exact ⟨none, evalTouched s ch.toNat, _, rfl, fun h => by simp at h⟩

/-- Every instruction answers a next state. -/
theorem exec_next (i : Instr) (s : State) : ∃ t, exec i s = .next t := by
  cases i <;> exact ⟨_, rfl⟩

theorem engineTurn_next (s : State) : ∃ t, engineTurn s = .next t := by
  unfold engineTurn
  split
  · exact ⟨s, rfl⟩
  · split
    · exact exec_next _ s
    · exact ⟨_, rfl⟩

/-- The source-kind instructions are one shared write. -/
theorem exec_source {i : Instr} {c : Nat} {k : SourceKind} (h : selectedSource i = some (c, k)) (s : State) :
    exec i s = .next (selectSource c k s) := by
  cases i <;> simp only [selectedSource, Option.some.injEq, Prod.mk.injEq, reduceCtorEq] at h <;>
    obtain ⟨rfl, rfl⟩ := h <;> rfl

@[simp] theorem kindOf_code (k : SourceKind) : kindOf k.code = some k := by cases k <;> rfl

end Sys2Proof.Machine
end

