-- ==== Sys2Proof/Laws/PerInstr.lean ====
section
/-! SUPPORT. Statements about every instruction as syntax, one lemma for each constructor. -/

namespace Sys2Proof.Laws

/-- The write that carries a well-formed instruction goes to an aligned offset of the window that is the
offset of an instruction register (10_state.md R24, R25). -/
def CarrierAligned.Statement (i : Instr) : Prop :=
  i.wf = true → (encode i).1.toNat % 8 = 0 ∧ (carrierAt (encode i).1).isSome = true

theorem sourceOffset_aligned (c : Nat) (h : decide (channelExists c) = true) :
    (sourceOffset c).toNat % 8 = 0 ∧ (carrierAt (sourceOffset c)).isSome = true := by
  have h8 : c < 8 := of_decide_eq_true h
  interval_cases c <;> decide

theorem CarrierAligned.nop : CarrierAligned.Statement .nop := fun _ => by decide
theorem CarrierAligned.encode : CarrierAligned.Statement .encode := fun _ => by decide
theorem CarrierAligned.decode : CarrierAligned.Statement .decode := fun _ => by decide
theorem CarrierAligned.genEval (ch : BitVec 8) (w : BitVec 4) : CarrierAligned.Statement (.genEval ch w) :=
  fun _ => show cmdOffset.toNat % 8 = 0 ∧ (carrierAt cmdOffset).isSome = true by decide
theorem CarrierAligned.srcNone (c : Nat) : CarrierAligned.Statement (.srcNone c) := sourceOffset_aligned c
theorem CarrierAligned.srcSine (c : Nat) : CarrierAligned.Statement (.srcSine c) := sourceOffset_aligned c
theorem CarrierAligned.srcPulse (c : Nat) : CarrierAligned.Statement (.srcPulse c) := sourceOffset_aligned c
theorem CarrierAligned.srcSquare (c : Nat) : CarrierAligned.Statement (.srcSquare c) := sourceOffset_aligned c
theorem CarrierAligned.srcRampUp (c : Nat) : CarrierAligned.Statement (.srcRampUp c) := sourceOffset_aligned c
theorem CarrierAligned.srcRampDown (c : Nat) : CarrierAligned.Statement (.srcRampDown c) :=
  sourceOffset_aligned c
theorem CarrierAligned.srcBuffer (c : Nat) : CarrierAligned.Statement (.srcBuffer c) := sourceOffset_aligned c
theorem CarrierAligned.srst : CarrierAligned.Statement .srst := fun _ => by decide

end Sys2Proof.Laws
end

