-- ==== Sys2Proof/Laws/Registers.lean ====
section
/-! SUPPORT. The register map read both ways, configuration registers read after a write, and what a
CSR write does by the register it names. -/

namespace Sys2Proof.Machine

/-! ### The register map (10_state.md R25) -/

/-- Offsets that name a register are multiples of 8 below 0x300. -/
theorem regAt_bound {off : BitVec 12} {r : Reg} (h : regAt off = some r) :
    off.toNat % 8 = 0 ∧ off.toNat / 8 < 96 := by
  unfold regAt at h
  dsimp only at h
  split at h
  · cases h
  split at h
  · omega
  split at h
  · next h1 h2 h3 => simp only [Config.nCh] at h3; omega
  · cases h

theorem regAt_table : ∀ n, n < 96 → ∀ r ∈ regAt (BitVec.ofNat 12 (8 * n)),
    r.offset = 8 * n ∧ (match r with | .ch c _ => decide (c < 8) | _ => true) = true := by
  decide +kernel

/-- A register's offset is the one it is named at, and only the channels of the file have registers. -/
theorem regAt_spec {off : BitVec 12} {r : Reg} (h : regAt off = some r) :
    r.offset = off.toNat ∧ ∀ c q, r = .ch c q → c < 8 := by
  obtain ⟨h1, h2⟩ := regAt_bound h
  have e : BitVec.ofNat 12 (8 * (off.toNat / 8)) = off := by
    apply BitVec.eq_of_toNat_eq
    have := off.isLt
    simp only [BitVec.toNat_ofNat]; omega
  obtain ⟨h3, h4⟩ := regAt_table _ h2 r (by rw [e]; exact h)
  refine ⟨by omega, fun c q hr => ?_⟩
  subst hr
  exact of_decide_eq_true h4

/-- Every register of the map is named at its offset. -/
theorem regAt_offset (r : Reg) (h : ∀ c q, r = .ch c q → c < 8) :
    regAt (BitVec.ofNat 12 r.offset) = some r := by
  cases r with
  | ch c q =>
    have := h c q rfl
    interval_cases c <;> cases q <;> decide
  | _ => decide

/-- Two registers at one offset are one register. -/
theorem regAt_inj {off off' : BitVec 12} {r : Reg} (h : regAt off = some r) (h' : regAt off' = some r) :
    off = off' := by
  apply BitVec.eq_of_toNat_eq
  rw [← (regAt_spec h).1, ← (regAt_spec h').1]

/-! ### Channels and configuration registers -/

theorem get_set (d : Channel) (r q : ChReg) (w : Word) :
    (d.set r w).get q = if q = r then w else d.get q := by
  cases r <;> cases q <;> rfl

theorem ch_setCh (s : State) {c : Nat} (hc : c < 8) (r : ChReg) (w : Word) (d : Nat) :
    (s.setCh c r w).ch d = if d = c then (s.ch c).set r w else s.ch d := by
  simp only [State.ch, setCh_chan, Vector.getElem?_setIfInBounds]
  by_cases h : d = c
  · subst h; simp [hc]
  · have : c ≠ d := fun e => h e.symm
    simp [h, this]

/-- A configuration register read after a write to one (10_state.md R53). -/
theorem regRead_storeConfig (s : State) {r : Reg} (w : Word) (hr : r.isConfig = true)
    (hc : ∀ c q, r = .ch c q → c < 8) (q : Reg) :
    regRead (storeConfig s r w) q = if q = r then w else regRead s q := by
  cases r with
  | ch c p =>
    have h := hc c p rfl
    cases q with
    | ch d e =>
      simp only [storeConfig, regRead, ch_setCh s h]
      by_cases hd : d = c
      · subst hd; simp [get_set]
      · simp [hd]
    | _ => rfl
  | _ => first
    | (exfalso; revert hr; decide)
    | (cases q <;> rfl)

theorem storeConfig_mem (s : State) (r : Reg) (w : Word) :
    (storeConfig s r w).mem = s.mem ∧ (storeConfig s r w).voids = s.voids ∧
      (storeConfig s r w).draws = s.draws ∧ (storeConfig s r w).hazard = s.hazard ∧
      (storeConfig s r w).phase = s.phase ∧ (storeConfig s r w).status = s.status ∧
      (storeConfig s r w).error = s.error ∧ (storeConfig s r w).platform = s.platform ∧
      (storeConfig s r w).inputs = s.inputs ∧ (storeConfig s r w).resp = s.resp ∧
      (storeConfig s r w).irqEn = s.irqEn := by
  cases r <;> exact ⟨rfl, rfl, rfl, rfl, rfl, rfl, rfl, rfl, rfl, rfl, rfl⟩

/-- The bits of STATUS (10_state.md R29). -/
theorem statusWord_bit (s : State) (k : Nat) : (statusWord s).getLsbD k =
    if k = 0 then s.busy else if k = 1 then s.status.done else if k = 2 then s.status.err
    else if k = 3 then s.status.ovr else false := by
  by_cases hk : k < 64
  · have bits : ∀ o e d b : Bool, ∀ k < 64,
        ((0 : BitVec 60) ++ BitVec.ofBool o ++ BitVec.ofBool e ++ BitVec.ofBool d ++
          BitVec.ofBool b : Word).getLsbD k =
        if k = 0 then b else if k = 1 then d else if k = 2 then e else if k = 3 then o else false := by
      decide
    exact bits _ _ _ _ k hk
  · rw [BitVec.getLsbD_of_ge _ _ (by omega)]
    repeat' rw [if_neg (by omega)]

/-- The bits of IRQ_EN as the host reads them (10_state.md R31). -/
theorem irqEn_bit (s : State) (k : Nat) : (regRead s .irqEn).getLsbD k = s.irqEn.getLsbD k := by
  simp only [regRead, BitVec.truncate_eq_setWidth, BitVec.getLsbD_setWidth]
  by_cases h : k < 64
  · simp [h]
  · simp [h, BitVec.getLsbD_of_ge s.irqEn k (by omega)]

/-! ### CSR writes -/

/-- The carrier at an offset, with the register it is (10_state.md R25). -/
theorem carrierAt_spec {off : BitVec 12} {k : Carrier} (h : carrierAt off = some k) :
    off.toNat % 8 = 0 ∧
      match k with
      | .cmd => off = cmdOffset
      | .ctrl => off = ctrlOffset
      | .source c => c < 8 ∧ regAt off = some (.ch c .src) := by
  unfold carrierAt at h
  split at h
  · next ho => cases h; subst ho; exact ⟨rfl, rfl⟩
  split at h
  · next ho => cases h; subst ho; exact ⟨rfl, rfl⟩
  · dsimp only at h
    split at h
    · next hc =>
      cases h
      obtain ⟨c1, c2, c3⟩ := hc
      simp only [Config.nCh] at c3
      refine ⟨by omega, c3, ?_⟩
      have := regAt_offset (.ch ((off.toNat - 256) / 64) .src) (fun c q e => by cases e; exact c3)
      have e : BitVec.ofNat 12 (Reg.ch ((off.toNat - 256) / 64) .src).offset = off := by
        apply BitVec.eq_of_toNat_eq
        have := off.isLt
        simp only [Reg.offset, Reg.slot, ChReg.slot, BitVec.toNat_ofNat]; omega
      rw [e] at this; exact this
    · cases h

/-- The instruction a CH_SRC write stands for writes its word to CH_SRC(c) (30_encoding.md R101). -/
theorem decodeSource_spec {c : Nat} {w : Word} {i : Instr} (h : decodeSource c w = .ok i) :
    ∃ k : SourceKind, k.code = w ∧ selectedSource i = some (c, k) := by
  unfold decodeSource at h
  repeat' split at h
  all_goals first
    | (cases h; done)
    | (cases h; first
        | exact ⟨.none, Eq.symm ‹_›, rfl⟩
        | exact ⟨.sine, Eq.symm ‹_›, rfl⟩
        | exact ⟨.pulse, Eq.symm ‹_›, rfl⟩
        | exact ⟨.square, Eq.symm ‹_›, rfl⟩
        | exact ⟨.rampUp, Eq.symm ‹_›, rfl⟩
        | exact ⟨.rampDown, Eq.symm ‹_›, rfl⟩
        | exact ⟨.buffer, Eq.symm ‹_›, rfl⟩)

/-- A CSR write to a configuration register, source kinds among them (10_state.md R53). -/
theorem csrWrite_config {off : BitVec 12} {r : Reg} (hr : regAt off = some r) (hc : r.isConfig = true)
    (w : Word) (s : State) :
    csrWrite off w s = .next (writeConfig { s with resp := .written } r w) := by
  have h1 : off ≠ cmdOffset := by
    rintro rfl
    have e : regAt cmdOffset = some .cmd := by decide
    rw [e] at hr; cases hr; revert hc; decide
  have h2 : off ≠ ctrlOffset := by
    rintro rfl
    have e : regAt ctrlOffset = some .ctrl := by decide
    rw [e] at hr; cases hr; revert hc; decide
  simp only [csrWrite, h1, if_false]
  split
  · next i hd =>
    unfold decode at hd
    split at hd
    · next k hk =>
      have hs := (carrierAt_spec hk).2
      cases k with
      | cmd => exact absurd hs h1
      | ctrl => exact absurd hs h2
      | source c =>
        obtain ⟨k', e1, e2⟩ := decodeSource_spec hd
        have : r = .ch c .src := by have := hs.2; rw [hr] at this; exact Option.some.inj this
        subst this
        rw [exec_source e2, selectSource, if_pos (by simpa [Config.nCh] using hs.1), e1]
    · cases hd
  · simp only [hr, writeReg, hc, if_true]

/-- A CSR write to any other register but CMD and CTRL, or to none (10_state.md R24, R54). -/
theorem csrWrite_other {off : BitVec 12} (h1 : off ≠ cmdOffset) (h2 : off ≠ ctrlOffset)
    (hc : ∀ r, regAt off = some r → r.isConfig = false) (w : Word) (s : State) :
    csrWrite off w s = .next
      (match regAt off with
      | some r => writeReg { s with resp := .written } r w
      | none => { s with resp := .written }) := by
  simp only [csrWrite, h1, if_false]
  have : decode off w = .error (.notAnInstructionRegister off) := by
    unfold decode
    split
    · next k hk =>
      have hs := (carrierAt_spec hk).2
      cases k with
      | cmd => exact absurd hs h1
      | ctrl => exact absurd hs h2
      | source c => exact absurd (hc _ hs.2) (by simp [Reg.isConfig])
    · rfl
  simp only [this]
  cases regAt off <;> rfl

/-- A CSR write to CTRL (10_state.md R30). -/
theorem csrWrite_ctrl (w : Word) (s : State) :
    csrWrite ctrlOffset w s = .next
      (if w.getLsbD 0 then resetBlock ({ s with resp := .written } : State).abandonDest
       else { s with resp := .written }) := by
  have h1 : ctrlOffset ≠ cmdOffset := by decide
  have h2 : carrierAt ctrlOffset = some .ctrl := by decide
  have h3 : regAt ctrlOffset = some .ctrl := by decide
  have h4 : Reg.isConfig .ctrl = false := rfl
  simp only [csrWrite, h1, if_false, decode, h2, decodeIn, decodeCtrl, h3]
  cases w.getLsbD 0 <;> rfl

end Sys2Proof.Machine
end

