-- ==== Sys2Proof/Laws/Run.lean ====
section
/-! SUPPORT. What every run of a command has in common (60_exceptions.md R275 to R277), and what each
access of the host does. -/

namespace Sys2Proof.Machine

/-- t is a completion of the command s runs, with the error e, if any. -/
structure Ran (s t : State) (e : Option Raise) : Prop where
  phase : t.phase = .idle
  status : t.status = ⟨true, e.isSome, s.status.ovr⟩
  error : t.error = ErrorRecord.of e
  setup : keepsSetup s t
  wf : Memory.wf s.mem = true → Memory.wf t.mem = true
  fresh : (∀ v ∈ s.voids, v.draw < s.draws) → ∀ v ∈ t.voids, v.draw < t.draws
  hazard : s.hazard = true → t.hazard = true

theorem keepsSetup_refl (s : State) : keepsSetup s s := ⟨rfl, rfl, rfl, rfl, rfl, rfl⟩

theorem ran_complete (e : Option Raise) (s : State) : Ran s (complete e s) e :=
  ⟨rfl, rfl, rfl, keepsSetup_refl s, fun h => h, fun h => h, fun h => h⟩

theorem ran_encode (s : State) : ∃ e, Ran s (encodeRun s) e := by
  cases h : checkEncode s with
  | some e => rw [encodeRun_of_error h]; exact ⟨_, ran_complete _ s⟩
  | none =>
    obtain ⟨m, bytes, e, h1, -, -, -, -, -, h7⟩ := encodeRun_spec h
    rw [h1]
    exact ⟨e, rfl, rfl, rfl, keepsSetup_refl s, h7, fun h => h, fun h => by
      show (s.hazard || _) = true
      rw [h, Bool.true_or]⟩

theorem ran_decode (s : State) : ∃ e, Ran s (decodeRun s) e := by
  have mark : ∀ rs, s.hazard = true → (s.markRegions rs).hazard = true := fun rs h => by
    rw [markRegions_hazard, h, Bool.true_or]
  cases hc : checkDecode s with
  | some e => rw [decodeRun_of_check_error hc]; exact ⟨_, ran_complete _ s⟩
  | none =>
    cases hp : parseStream s with
    | error e =>
      rw [decodeRun_of_parse_error hc hp]
      exact ⟨_, rfl, rfl, rfl, keepsSetup_refl s, fun h => h, fun h => h, mark _⟩
    | ok p =>
      obtain ⟨m, e, h1, h2, -, -, -, -, h7⟩ := decodeRun_spec hc hp
      cases e with
      | none =>
        rw [h1 rfl]
        exact ⟨_, rfl, rfl, rfl, keepsSetup_refl s, h7, fun h => h, mark _⟩
      | some r =>
        rw [h2 r rfl]
        refine ⟨_, rfl, rfl, rfl, keepsSetup_refl s, fun h => wf_filter _ (h7 h), fun h v hv => ?_, mark _⟩
        rcases List.mem_cons.1 hv with rfl | hv
        · exact Nat.lt_succ_self s.draws
        · exact Nat.lt_succ_of_lt (h v hv)

theorem ran_genEval (ch : BitVec 8) (w : BitVec 4) (s : State) : ∃ e, Ran s (genEvalRun ch w s) e := by
  obtain ⟨e, rs, r, h, -⟩ := genEvalRun_cases ch w s
  rw [h]
  exact ⟨e, rfl, rfl, rfl, keepsSetup_refl s, fun h => h, fun h => h, fun h => by
    show (s.hazard || _) = true
    rw [h, Bool.true_or]⟩

/-- Every command completes, whatever the state (60_exceptions.md R276, R277). -/
theorem command_ran {i : Instr} (hi : isCommand i = true) (s : State) :
    ∃ t e, exec i s = .next t ∧ Ran s t e := by
  cases i with
  | nop => exact ⟨_, _, rfl, ran_complete none s⟩
  | encode => obtain ⟨e, h⟩ := ran_encode s; exact ⟨_, e, rfl, h⟩
  | decode => obtain ⟨e, h⟩ := ran_decode s; exact ⟨_, e, rfl, h⟩
  | genEval ch w => obtain ⟨e, h⟩ := ran_genEval ch w s; exact ⟨_, e, rfl, h⟩
  | _ => cases hi

/-- A command word decodes to a command (30_encoding.md R99). -/
theorem isCommand_of_decodeCmd {w : Word} {i : Instr} (h : decodeCmd w = .ok i) : isCommand i = true := by
  unfold decodeCmd at h
  repeat' split at h
  all_goals first
    | (cases h; done)
    | (cases h; rfl)

/-- The engine's step of a RUNNING block is a completion (45_control.md R252). -/
theorem engineTurn_ran {s : State} {w : Word} (h : s.phase = .running w) :
    ∃ t e, engineTurn s = .next t ∧ Ran s t e := by
  cases hd : decodeCmd w with
  | ok i =>
    obtain ⟨t, e, h1, h2⟩ := command_ran (isCommand_of_decodeCmd hd) s
    exact ⟨t, e, by simp only [engineTurn, h, hd, h1], h2⟩
  | error d => exact ⟨_, _, by simp only [engineTurn, h, hd, illegalRun]; rfl, ran_complete _ s⟩

theorem errorCode_range (c : ErrorCode) : c.toWord.toNat ≤ 7 ∧ c.toWord ≠ 0 := by cases c <;> decide

/-- ERR is set exactly when a code is recorded (10_state.md R29, 60_exceptions.md R276). -/
theorem Ran.err_iff {s t : State} {e : Option Raise} (h : Ran s t e) :
    t.status.err = true ↔ t.error.code ≠ 0 := by
  rw [h.status, h.error]
  cases e with
  | none => simp [ErrorRecord.of, ErrorRecord.none]
  | some r => exact ⟨fun _ => (errorCode_range r.code).2, fun _ => rfl⟩

/-- A completion has the invariant when the state it came from has it. -/
theorem Ran.inv {s t : State} {e : Option Raise} (h : Ran s t e) (hi : s.Inv) : t.Inv := by
  have hb : t.busy = false := by simp [State.busy, h.phase]
  refine ⟨h.wf hi.1, h.fresh hi.2.1, ?_, ?_, fun he => h.err_iff.1 he, fun hx => by rw [hb] at hx; cases hx⟩
  · rw [h.error]
    cases e with
    | none => decide
    | some r => exact (errorCode_range r.code).1
  · rw [h.error]
    cases e with
    | none => exact fun _ => rfl
    | some r => exact fun hx => absurd hx (errorCode_range r.code).2

/-! ### The host's accesses -/

/-- Acceptance clears results and the record and starts the command; nothing else changes
(45_control.md R251). -/
theorem accept_spec (w : Word) (s : State) : ∃ en de ev, accept w s =
    { s with enc := en, dec := de, eval := ev, error := ErrorRecord.none,
             status := ⟨false, false, s.status.ovr⟩, phase := .running w } := by
  simp only [accept, clearResults]
  split <;> exact ⟨_, _, _, rfl⟩

/-- A write to any register but CMD and CTRL changes that register, or OVR, and nothing else
(10_state.md R29, R31, R53, R54). -/
theorem writeReg_spec (s : State) (r : Reg) (w : Word) : ∃ st ie cf cs,
    writeReg s r w = { s with status := st, irqEn := ie, cfg := cf, chan := cs } ∧
    (st.done = true → s.status.done = true) ∧ (st.err = true → s.status.err = true) := by
  have clear : ∀ a b : Bool, (a && !b) = true → a = true := by decide
  unfold writeReg
  split
  · unfold writeConfig
    split
    · exact ⟨_, _, _, _, rfl, fun h => h, fun h => h⟩
    · cases r <;> exact ⟨_, _, _, _, rfl, fun h => h, fun h => h⟩
  · split
    · exact ⟨_, _, _, _, rfl, clear _ _, clear _ _⟩
    · exact ⟨_, _, _, _, rfl, fun h => h, fun h => h⟩
    · exact ⟨_, _, _, _, rfl, fun h => h, fun h => h⟩

/-- Everything an aligned 64-bit write to the CSR window can do. -/
theorem csrWrite_cases (off : BitVec 12) (w : Word) (s : State) :
    (off = cmdOffset ∧ csrWrite off w s = .next (writeCmd w { s with resp := .written })) ∨
    (off = ctrlOffset ∧ w.getLsbD 0 = true ∧
      csrWrite off w s = .next (resetBlock ({ s with resp := .written } : State).abandonDest)) ∨
    ∃ st ie cf cs, csrWrite off w s = .next
        { s with resp := .written, status := st, irqEn := ie, cfg := cf, chan := cs } ∧
      (st.done = true → s.status.done = true) ∧ (st.err = true → s.status.err = true) := by
  by_cases h1 : off = cmdOffset
  · subst h1; exact .inl ⟨rfl, by simp [csrWrite]⟩
  by_cases h2 : off = ctrlOffset
  · subst h2
    have h := csrWrite_ctrl w s
    by_cases hb : w.getLsbD 0 = true
    · rw [if_pos hb] at h; exact .inr (.inl ⟨rfl, hb, h⟩)
    · rw [if_neg hb] at h; exact .inr (.inr ⟨_, _, _, _, h, fun h => h, fun h => h⟩)
  refine .inr (.inr ?_)
  cases hr : regAt off with
  | none =>
    have h := csrWrite_other h1 h2 (fun r h => by rw [hr] at h; cases h) w s
    rw [hr] at h
    exact ⟨_, _, _, _, h, fun h => h, fun h => h⟩
  | some r =>
    by_cases hc : r.isConfig = true
    · have h := csrWrite_config hr hc w s
      obtain ⟨st, ie, cf, cs, e, h3, h4⟩ := writeReg_spec { s with resp := .written } r w
      simp only [writeReg, hc, if_true] at e
      rw [e] at h
      exact ⟨st, ie, cf, cs, h, h3, h4⟩
    · have h := csrWrite_other h1 h2 (fun r' h => by
        rw [hr] at h; cases h; exact Bool.not_eq_true _ ▸ hc) w s
      rw [hr] at h
      obtain ⟨st, ie, cf, cs, e, h3, h4⟩ := writeReg_spec { s with resp := .written } r w
      simp only [e] at h
      exact ⟨st, ie, cf, cs, h, h3, h4⟩

/-- A CSR read changes the response and the draw counter (30_encoding.md R96). -/
theorem csrRead_spec (off : BitVec 12) (s : State) : ∃ r d, s.draws ≤ d ∧
    csrRead off s = { s with resp := r, draws := d } := by
  unfold csrRead
  split
  · exact ⟨_, _, le_rfl, rfl⟩
  · split
    · exact ⟨_, _, Nat.le_succ _, rfl⟩
    · exact ⟨_, _, le_rfl, rfl⟩

/-- A reset that aborts a command draws at most once and keeps memory canonical (45_control.md R263). -/
theorem abandonDest_spec (s : State) : ∃ m v d, s.abandonDest = { s with mem := m, voids := v, draws := d } ∧
    (Memory.wf s.mem = true → Memory.wf m = true) ∧
    ((∀ x ∈ s.voids, x.draw < s.draws) → ∀ x ∈ v, x.draw < d) := by
  unfold State.abandonDest
  split
  · refine ⟨_, _, _, rfl, fun h => wf_filter _ h, fun h x hx => ?_⟩
    rcases List.mem_cons.1 hx with rfl | hx
    · exact Nat.lt_succ_self _
    · exact Nat.lt_succ_of_lt (h x hx)
  · exact ⟨_, _, _, rfl, fun h => h, fun h => h⟩

end Sys2Proof.Machine
end

