-- ==== Sys2Proof/Tests/Slice0.lean ====
section
/-! SUPPORT. Tests: the checks of well-formedness refuse, hand-written words decode, one step of each
instruction gives what the spec's vectors say (95_test_vectors.md), and every statement of the
obligations with hypotheses has a state and operands that meet them. -/

namespace Sys2Proof.Tests

open Sys2Proof Sys2Proof.Machine

-- Each test waits for the kernel; one at a time they need one thread.
set_option Elab.async false

/-! ### Well-formedness: one refused term for each check (10_state.md R25, R46) -/

theorem test_wf_refuses_none : Instr.wf (.srcNone 8) = false := by decide
theorem test_wf_refuses_sine : Instr.wf (.srcSine 8) = false := by decide
theorem test_wf_refuses_pulse : Instr.wf (.srcPulse 8) = false := by decide
theorem test_wf_refuses_square : Instr.wf (.srcSquare 9) = false := by decide
theorem test_wf_refuses_rampUp : Instr.wf (.srcRampUp 8) = false := by decide
theorem test_wf_refuses_rampDown : Instr.wf (.srcRampDown 255) = false := by decide
theorem test_wf_refuses_buffer : Instr.wf (.srcBuffer 8) = false := by decide

/-! ### Decoding: words written out from 30_encoding.md R97, R98, R101 and 10_state.md R30.
A command word is RES (44 bits), W (4), CH (8), OP (8). -/

theorem test_decode_nop :
    decode 0x030 0b00000000000000000000000000000000000000000000_0000_00000000_00000000 = .ok .nop := by
  decide
theorem test_decode_encode :
    decode 0x030 0b00000000000000000000000000000000000000000000_0000_00000000_00000001 = .ok .encode := by
  decide
theorem test_decode_decode :
    decode 0x030 0b00000000000000000000000000000000000000000000_0000_00000000_00000010 = .ok .decode := by
  decide
theorem test_decode_genEval :
    decode 0x030 0b00000000000000000000000000000000000000000000_0110_10000001_00000011 =
      .ok (.genEval 0b10000001 0b0110) := by
  decide
theorem test_decode_genEval_bytes :
    decodeBytes 0x030 [0b00000011, 0b10000001, 0b00000110, 0, 0, 0, 0, 0] = .ok (.genEval 0x81 6) := by
  decide +kernel
theorem test_decode_illegal_ch :
    decode 0x030 0b00000000000000000000000000000000000000000000_0000_00000001_00000001 =
      .error (.illegalCommand 0x101) := by
  decide
theorem test_decode_illegal_w :
    decode 0x030 0b00000000000000000000000000000000000000000000_1000_00000000_00000000 =
      .error (.illegalCommand 0x80000) := by
  decide
theorem test_decode_illegal_res :
    decode 0x030 0b10000000000000000000000000000000000000000000_0001_00000000_00000011 =
      .error (.illegalCommand 0x8000000000010003) := by
  decide +kernel
theorem test_decode_srcNone : decode 0x100 0b000 = .ok (.srcNone 0) := by decide
theorem test_decode_srcSine : decode 0x140 0b001 = .ok (.srcSine 1) := by decide
theorem test_decode_srcPulse : decode 0x180 0b010 = .ok (.srcPulse 2) := by decide
theorem test_decode_srcSquare : decode 0x1C0 0b011 = .ok (.srcSquare 3) := by decide
theorem test_decode_srcRampUp : decode 0x200 0b100 = .ok (.srcRampUp 4) := by decide
theorem test_decode_srcRampDown : decode 0x280 0b101 = .ok (.srcRampDown 6) := by decide
theorem test_decode_srcBuffer : decode 0x2C0 0b110 = .ok (.srcBuffer 7) := by decide
theorem test_decode_source_reserved : decode 0x2C0 0b111 = .error (.reservedSource 7) := by decide
theorem test_decode_source_all_bits :
    decode 0x100 0x8000000000000004 = .error (.reservedSource 0x8000000000000004) := by decide +kernel
theorem test_decode_srst : decode 0x018 0b1 = .ok .srst := by decide
theorem test_decode_no_reset : decode 0x018 0b10 = .error (.noReset 2) := by decide
theorem test_decode_no_carrier : decode 0x300 0 = .error (.notAnInstructionRegister 0x300) := by decide
theorem test_decode_short : decodeBytes 0x030 [0, 0, 0, 0] = .error (.notOneWord [0, 0, 0, 0]) := by decide

theorem test_table_words :
    decodeTableWord 64 0 = some .nop ∧ decodeTableWord 64 1 = some .encode ∧
    decodeTableWord 64 2 = some .decode ∧ decodeTableWord 64 0x80103 = some (.genEval 1 8) ∧
    decodeTableWord 64 4 = some (.srcRampUp 0) ∧ decodeTableWord 64 5 = some (.srcRampDown 0) ∧
    decodeTableWord 64 6 = some (.srcBuffer 0) ∧ decodeTableWord 64 9 = some .srst ∧
    decodeTableWord 64 8 = none := by decide +kernel

/-! ### Small states -/

/-- The state an outcome goes on in has a property. -/
def next (o : Host.Outcome State Fault Refusal) (p : State → Bool) : Bool :=
  match o with
  | .next t => p t
  | .fault _ => false
  | .refused _ => false

/-- A channel's descriptor set. -/
def withCh (s : State) (c : Nat) (d : Channel) : State := { s with chan := s.chan.setIfInBounds c d }

/-- Program 1 of 95_test_vectors.md: one channel, W = 1, rate 4, SQUARE of period 10^9. -/
def enc1 : State :=
  withCh { State.reset with cfg := { ConfigRegs.reset with
    encChannels := 1, encWidth := 1, encRate := 4, encLength := 1000000000
    outBase := 0x1000, outLen := 64 } } 0 ⟨3, 1000000000, 0, 0, 0, 0, 0⟩

/-- The stream of program 1 (95_test_vectors.md). -/
def stream1 : List Byte :=
  [0x52, 0x49, 0x46, 0x46, 0x29, 0x00, 0x00, 0x00, 0x57, 0x41, 0x56, 0x45, 0x66, 0x6D, 0x74, 0x20,
   0x10, 0x00, 0x00, 0x00, 0x01, 0x00, 0x01, 0x00, 0x04, 0x00, 0x00, 0x00, 0x04, 0x00, 0x00, 0x00,
   0x01, 0x00, 0x08, 0x00, 0x64, 0x61, 0x74, 0x61, 0x05, 0x00, 0x00, 0x00, 0xFF, 0xFF, 0x00, 0x00, 0xFF]

/-- Two channels of W = 2, P = 1 and N = 2: RAMP_UP and a BUFFER of two samples; total 52. -/
def enc2 : State :=
  withCh (withCh { State.reset with cfg := { ConfigRegs.reset with
    encChannels := 2, encWidth := 2, encRate := 1000000000, encLength := 1
    outBase := 0x1000, outLen := 52 } } 0 ⟨4, 4, 0, 0, 0, 0, 0⟩) 1 ⟨6, 0, 0, 0x2000, 4, 2, 1⟩

/-- A state whose platform does not answer in the given regions. -/
def silent (s : State) (rs : List Region) : State := { s with platform := { s.platform with noAnswer := rs } }

/-- Stream 1 in memory at 0x1000, with a scratch region at 0x2000. -/
def dec1 : State :=
  { State.reset.writeBytes 0x1000 stream1 with cfg := { ConfigRegs.reset with
    inBase := 0x1000, inLen := 49, scrBase := 0x2000, scrLen := 5 } }

/-- What stream 1 holds. -/
def plan1 : DecodePlan := ⟨1, 1, 4, 44, 5⟩

/-- A command word accepted. -/
def running (s : State) (w : Word) : State := { s with phase := .running w }

/-- One input left. -/
def input (s : State) (e : Event) : State := { s with inputs := [e] }

/-! ### One step of each instruction -/

/-- 45_control.md R255: STATUS = 0x2. -/
theorem test_nop : next (exec .nop (running State.reset 0)) (fun t => statusWord t == 2) = true := by
  decide +kernel

/-- 95_test_vectors.md, program 1: the 49 bytes. -/
theorem test_encode_stream : next (exec .encode enc1) (fun t =>
    t.mem == (List.range 49).map (fun k => (0x1000 + k, stream1.getD k 0)) && t.enc == ⟨5, 49⟩) = true := by
  decide +kernel

/-- 43_encode.md R199: a silent byte at stream offset 46 leaves ENC_BYTES = 46. -/
theorem test_encode_bus_error : next (exec .encode (silent enc1 [⟨0x102E, 1⟩])) (fun t =>
    t.error == ⟨5, 0x102E, 46⟩ && t.enc == ⟨5, 46⟩ && t.mem.length == 46) = true := by
  decide +kernel

/-- 95_test_vectors.md: program 1's stream decoded. -/
theorem test_decode_stream : next (exec .decode dec1) (fun t =>
    (List.range 5).map (fun k => t.readByte (0x2000 + k)) == [0xFF, 0xFF, 0x00, 0x00, 0xFF] &&
      t.dec == ⟨1, 1, 4, 250000000, 5, 44, 5⟩) = true := by
  decide +kernel

/-- 44_decode.md R216: overlapping regions. -/
theorem test_decode_overlap :
    next (exec .decode { dec1 with cfg := { dec1.cfg with scrBase := 0x1010 } })
      (fun t => t.error == ⟨7, 0x0A0, 0x1010⟩ && statusWord t == 6) = true := by
  decide +kernel

/-- 45_control.md R258: RAMP_UP of duration 4 at time 1, W = 2. -/
theorem test_genEval : next
    (exec (.genEval 1 2) (withCh { State.reset with cfg := { ConfigRegs.reset with evalTime := 1 } } 1
      ⟨4, 4, 0, 0, 0, 0, 0⟩))
    (fun t => t.eval == ⟨0x1FFFFFFFFFFFFFFF, 0x1FFF⟩) = true := by
  decide +kernel

/-- 45_control.md R256: no channel 8. -/
theorem test_genEval_channel : next (exec (.genEval 8 2) State.reset)
    (fun t => t.error == ⟨6, 0x030, 0x20803⟩) = true := by
  decide +kernel

theorem test_srcNone : next (exec (.srcNone 0) enc1) (fun t => (t.ch 0).src == 0) = true := by decide
theorem test_srcSine : next (exec (.srcSine 1) enc1) (fun t => (t.ch 1).src == 1 && (t.ch 0).src == 3) = true := by
  decide
theorem test_srcPulse : next (exec (.srcPulse 2) enc1) (fun t => (t.ch 2).src == 2) = true := by decide
theorem test_srcSquare : next (exec (.srcSquare 3) enc1) (fun t => (t.ch 3).src == 3) = true := by decide
theorem test_srcRampUp : next (exec (.srcRampUp 4) enc1) (fun t => (t.ch 4).src == 4) = true := by decide
theorem test_srcRampDown : next (exec (.srcRampDown 5) enc1) (fun t => (t.ch 5).src == 5) = true := by decide
theorem test_srcBuffer : next (exec (.srcBuffer 7) enc1) (fun t => (t.ch 7).src == 6) = true := by decide

/-- 10_state.md R53: dropped with OVR while a command runs. -/
theorem test_srcSine_busy : next (exec (.srcSine 0) (running enc1 0))
    (fun t => (t.ch 0).src == 3 && statusWord t == 9) = true := by decide +kernel

/-- 45_control.md R262: the block at reset, memory kept. -/
theorem test_srst : next (exec .srst dec1) (fun t => t.cfg == ConfigRegs.reset && t.mem == dec1.mem) = true := by
  decide +kernel

/-- 10_state.md R27: CAP. -/
theorem test_cap : regRead State.reset .cap = 0x0000015E40400C08 := by decide

/-- 41_generators.md R151, 95_test_vectors.md: SINE of period 4096 at 1, and of period 3 at 2. -/
theorem test_sine : sineLevel 4096 1 = 0x003243F55DCC8E5B ∧ u64 (sineLevel 3 2) = 0x9136D97D24EFCC3C := by
  decide +kernel

/-- 40_numeric.md R128: a negative level at each width (95_test_vectors.md). -/
theorem test_quantise : quantise (-2 ^ 56) 1 = [0x7F] ∧ quantise (-2 ^ 56) 2 = [0x00, 0xFF] ∧
    quantise (2 ^ 56 - 1) 3 = [0xFF, 0xFF, 0x00] ∧ quantise 1 8 = [1, 0, 0, 0, 0, 0, 0, 0] := by
  decide +kernel

/-! ### Witnesses: states and operands that meet the hypotheses of the obligations -/

theorem wit_DecodeEncodeAgree : Instr.wf (.srcBuffer 7) = true ∧ Instr.wf (.genEval 255 15) = true := by decide

theorem wit_EncodeDecodeAgree : decode 0x018 0xFFFFFFFFFFFFFFFF = .ok .srst ∧
    decode 0x2C0 6 = .ok (.srcBuffer 7) := by decide +kernel

theorem wit_StepRunsAcceptedCommand :
    (running (input State.reset .engine) 1).phase = .running 1 ∧ decodeCmd 1 = .ok .encode ∧
    (running (input State.reset .engine) 1).inputs = .engine :: [] ∧ (running State.reset 1).inputs = [] := by
  decide

theorem wit_StepRunsHostInstruction :
    (input State.reset (.host (hostWrite 0x2C0 6))).inputs = .host (hostWrite 0x2C0 6) :: [] ∧
    decode 0x2C0 6 = .ok (.srcBuffer 7) ∧ (0x2C0 : BitVec 12) ≠ cmdOffset := by decide

theorem wit_StepAcceptsCommand :
    (input enc1 (.host (hostWrite 0x030 3))).phase = .idle ∧
    (input enc1 (.host (hostWrite 0x030 3))).inputs = .host (hostWrite 0x030 3) :: [] ∧
    decodeCmd 1 = .ok .encode ∧ decodeCmd 2 = .ok .decode ∧ decodeCmd 3 = .ok (.genEval 0 0) ∧
    decodeCmd 4 = .error (.illegalCommand 4) := by decide

theorem wit_BusyCommandDropped :
    (running (input enc1 (.host (hostWrite 0x030 1))) 2).phase = .running 2 ∧
    (running (input enc1 (.host (hostWrite 0x030 1))) 2).inputs = .host (hostWrite 0x030 1) :: [] := by decide

theorem wit_IllegalWordCompletes :
    (running (input State.reset .engine) 4).phase = .running 4 ∧ decodeCmd 4 = .error (.illegalCommand 4) ∧
    (running (input State.reset .engine) 4).inputs = .engine :: [] ∧ (running State.reset 4).inputs = [] := by
  decide

/-- Each check of ENCODE with those before it passed, at the first value it refuses. -/
theorem wit_EncodeFirstErrors :
    (encodeParams State.reset).width ∉ [1, 2, 3, 4, 6, 8] ∧
    ¬((encodeParams { enc1 with cfg := { enc1.cfg with encChannels := 9 } }).channels ≤ 8) ∧
    ¬((encodeParams { enc1 with cfg := { enc1.cfg with encRate := 1000000001 } }).rate ≤ 1000000000) ∧
    ¬(0 ≤ ({ enc1.cfg with encLength := -1 } : ConfigRegs).encLength.toInt) ∧
    (let p := encodeParams { enc1 with cfg := { enc1.cfg with encRate := 1000000000, encWidth := 8 } }
     p.width ∈ [1, 2, 3, 4, 6, 8] ∧ p.channels = 1 ∧ p.rate ≤ 1000000000 ∧
      ¬(p.rate * p.channels * p.width ≤ 4294967295)) ∧
    (let p := encodeParams { enc1 with cfg := { enc1.cfg with encLength := 1073741814750000000 } }
     p.width ∈ [1, 2, 3, 4, 6, 8] ∧ p.channels = 1 ∧ p.rate = 4 ∧ p.rate * p.channels * p.width ≤ 4294967295 ∧
      36 + p.samples * p.channels * p.width = 4294967296) ∧
    (let d := enc2.ch 1
     checkChannel 0 (enc2.ch 0) = none ∧ checkChannel 1 d = none ∧
     checkChannel 1 { d with bufPeriod := 0 } = some (badParameter (.ch 1 .bufPeriod) 0) ∧
     (encodeParams enc2).total = 52 ∧ enc2.cfg.outLen.toNat = 52 ∧ (51 : Word).toNat < 52 ∧
     2 ^ 64 < (0xFFFFFFFFFFFFFFCD : Word).toNat + 52 ∧ (0xFFFFFFFFFFFFFFCC : Word).toNat + 52 ≤ 2 ^ 64 ∧
     (enc2.ch 0).src ≠ 6 ∧ d.src = 6 ∧ 0 < d.bufLen.toNat ∧
     (0x1033 : Word).toNat < enc2.cfg.outBase.toNat + 52 ∧
     enc2.cfg.outBase.toNat < (0xFFD : Word).toNat + d.bufLen.toNat) := by decide +kernel

theorem wit_ChannelChecksInOrder :
    7 ≤ (⟨7, 0, 0, 0, 0, 0, 0⟩ : Channel).src.toNat ∧ (⟨1, 0, 0, 0, 0, 0, 0⟩ : Channel).param.toInt < 1 ∧
    1 ≤ (⟨5, 1, 0, 0, 0, 0, 0⟩ : Channel).param.toInt ∧ (⟨2, -1, 0, 0, 0, 0, 0⟩ : Channel).param.toInt < 0 ∧
    0 ≤ (⟨2, 0, 0, 0, 0, 0, 0⟩ : Channel).param.toInt ∧
    (⟨6, 0, 0, 0, 0, 5, 1⟩ : Channel).bufWidth.toNat ∉ [1, 2, 3, 4, 6, 8] ∧
    (⟨6, 0, 0, 0, 0, 8, 0⟩ : Channel).bufWidth.toNat ∈ [1, 2, 3, 4, 6, 8] ∧
    (⟨6, 0, 0, 0, 0, 8, 0⟩ : Channel).bufPeriod.toInt < 1 ∧
    1 ≤ (⟨6, 0, 0, -1, 1, 1, 1⟩ : Channel).bufPeriod.toInt ∧
    (⟨6, 0, 0, -1, 1, 1, 1⟩ : Channel).bufBase.toNat + 1 = 2 ^ 64 ∧
    2 ^ 64 < (⟨6, 0, 0, -1, 2, 1, 1⟩ : Channel).bufBase.toNat + 2 := by decide +kernel

theorem wit_HeaderFields :
    let p : EncodeParams := ⟨8, 8, 67108863, 0, 0⟩
    p.width ∈ Config.widths ∧ p.channels ≤ 8 ∧ p.rate * p.channels * p.width ≤ 4294967295 ∧
      36 + p.samples * p.channels * p.width ≤ 4294967295 := by decide +kernel

theorem all_answer {s : State} (h : s.platform.noAnswer = []) (a n : Nat) : AllAnswer s.platform a n :=
  fun y _ _ => by simp [Platform.memOK, h]

/-- Bytes that answer one by one. -/
theorem answers {p : Platform} {a n : Nat} (h : (List.range n).all (fun k => p.memOK (a + k)) = true) :
    AllAnswer p a n := by
  intro y h1 h2
  have := List.all_eq_true.1 h (y - a) (List.mem_range.2 (by omega))
  rwa [Nat.add_sub_cancel' h1] at this

/-- The byte k of a transfer, the first that does not answer. -/
theorem silent_at {p : Platform} {a n : Nat} (k : Nat)
    (h : ((List.range k).all (fun j => p.memOK (a + j)) && !p.memOK (a + k) && decide (k < n)) = true) :
    FirstSilent p a n (a + k) := by
  simp only [Bool.and_eq_true, Bool.not_eq_true', decide_eq_true_eq] at h
  exact ⟨by omega, by omega, h.1.2, fun y h1 h2 => answers h.1.1 y h1 h2⟩

/-- The samples before number m have their level. -/
theorem levels {s : State} {C P m i c : Nat}
    (h : (List.range m).all (fun j => (chanLevel s (j % C) ((j / C * P : Nat) : Int)).isOk) = true)
    (hc : c < C) (hj : i * C + c < m) : ∃ v, chanLevel s c ((i * P : Nat) : Int) = .ok v := by
  have h := List.all_eq_true.1 h (i * C + c) (List.mem_range.2 hj)
  rw [Nat.mul_comm i, Nat.mul_add_mod, Nat.mod_eq_of_lt hc, Nat.mul_add_div (by omega),
    Nat.div_eq_of_lt hc, Nat.add_zero] at h
  revert h
  cases chanLevel s c ((i * P : Nat) : Int) with
  | ok v => exact fun _ => ⟨v, rfl⟩
  | error x => exact fun h => by cases h

theorem wit_EncodeWritesStream :
    checkEncode enc2 = none ∧ enc2.defined (encodeTouched enc2 (encodeParams enc2).total) ∧
    RegionsAnswer enc2.platform enc2.encodeRegions := by
  refine ⟨by decide +kernel, ?_, fun _ _ => all_answer rfl _ _⟩
  show State.hazard _ = false; decide +kernel

/-- The first byte of the stream, with the buffer silent too; and the last byte. -/
theorem wit_EncodeStopsAtSilentOutput :
    (let s := silent enc2 [⟨0x1000, 1⟩, ⟨0x2000, 4⟩]
     checkEncode s = none ∧ s.defined (encodeTouched s (0x1000 - s.cfg.outBase.toNat)) ∧
      FirstSilent s.platform s.cfg.outBase.toNat (encodeParams s).total 0x1000 ∧
      ∀ i c, ¬(44 + (i * (encodeParams s).channels + c) * (encodeParams s).width ≤
        0x1000 - s.cfg.outBase.toNat)) ∧
    (let s := silent enc2 [⟨0x1033, 1⟩]
     checkEncode s = none ∧ s.defined (encodeTouched s (0x1033 - s.cfg.outBase.toNat)) ∧
      FirstSilent s.platform s.cfg.outBase.toNat (encodeParams s).total 0x1033 ∧
      ∀ i c, c < (encodeParams s).channels →
        44 + (i * (encodeParams s).channels + c) * (encodeParams s).width ≤ 0x1033 - s.cfg.outBase.toNat →
        ∃ v, chanLevel s c ((i * (encodeParams s).period : Nat) : Int) = .ok v) := by
  refine ⟨⟨by decide +kernel, ?_, silent_at 0 (by decide +kernel), fun i c h => ?_⟩,
    ⟨by decide +kernel, ?_, silent_at 0x33 (by decide +kernel), fun i c hc h => ?_⟩⟩
  · show State.hazard _ = false; decide +kernel
  · have : 44 + _ ≤ 0 := h
    omega
  · show State.hazard _ = false; decide +kernel
  · have : 44 + (i * 2 + c) * 2 ≤ 0x33 := h
    exact levels (m := 4) (by decide +kernel) hc (show i * 2 + c < 4 by omega)

/-- The last sample of the stream, i = 1 and c = 1, reads the silent byte, and its output does not answer
either. -/
theorem wit_EncodeStopsAtSilentBuffer :
    let s := silent enc2 [⟨0x2002, 1⟩, ⟨0x1032, 1⟩]
    checkEncode s = none ∧ 44 + (1 * (encodeParams s).channels + 1) * (encodeParams s).width = 50 ∧
      s.defined (encodeTouched s 50) ∧ AllAnswer s.platform s.cfg.outBase.toNat 50 ∧
      1 < (encodeParams s).samples ∧ 1 < (encodeParams s).channels ∧
      chanLevel s 1 ((1 * (encodeParams s).period : Nat) : Int) = .error 0x2002 ∧
      (∀ i' c', c' < (encodeParams s).channels →
        i' * (encodeParams s).channels + c' < 1 * (encodeParams s).channels + 1 →
        ∃ v, chanLevel s c' ((i' * (encodeParams s).period : Nat) : Int) = .ok v) := by
  refine ⟨by decide +kernel, by decide +kernel, ?_, answers (by decide +kernel), by decide +kernel,
    by decide +kernel, by decide +kernel, fun i' c' hc h => levels (m := 3) (by decide +kernel) hc h⟩
  show State.hazard _ = false; decide +kernel

theorem wit_EncodeIgnoresUnusedChannels :
    ∀ c, c < (encodeParams enc1).channels →
      ({ enc1 with chan := enc1.chan.set 1 ⟨7, 7, 7, 7, 7, 7, 7⟩ } : State).ch c = enc1.ch c := by decide

/-- The last sample of the buffer, the first after it, and the last before it. -/
theorem wit_ShortcutCopiesBytes :
    (enc2.ch 1).src = 6 ∧ (enc2.ch 1).bufWidth.toNat = 2 ∧ 2 ∈ Config.widths ∧ 0 < 1 ∧
    (enc2.ch 1).bufPeriod.toInt = 1 ∧ (1 : Int) ∣ (enc2.ch 1).delay.toInt ∧
    -2 ^ 63 ≤ (1 * 1 : Int) - (enc2.ch 1).delay.toInt ∧ (2 * 1 : Int) - (enc2.ch 1).delay.toInt < 2 ^ 63 ∧
    AllAnswer enc2.platform (enc2.ch 1).bufBase.toNat (enc2.ch 1).bufLen.toNat ∧
    (0 ≤ (1 : Int) - (enc2.ch 1).delay.toInt / 1 ∧
      (1 : Int) - (enc2.ch 1).delay.toInt / 1 < (enc2.ch 1).bufLen.toNat / 2) ∧
    ¬((2 : Int) - (enc2.ch 1).delay.toInt / 1 < (enc2.ch 1).bufLen.toNat / 2) ∧
    ¬(0 ≤ (0 : Int) - (⟨6, 0, 1, 0x2000, 4, 2, 1⟩ : Channel).delay.toInt / 1) := by
  refine ⟨by decide, by decide, by decide, by decide, by decide, one_dvd _, by decide +kernel,
    by decide +kernel, all_answer rfl _ _, by decide +kernel, by decide +kernel, by decide +kernel⟩

theorem parse_dec1 : checkDecode dec1 = none ∧ parseStream dec1 = .ok plan1 := by decide +kernel

theorem defined_dec1 : dec1.defined (decodeTouched dec1 plan1) := by
  show State.hazard _ = false
  decide +kernel

theorem wit_DecodeCopiesChannels :
    checkDecode dec1 = none ∧ parseStream dec1 = .ok plan1 ∧ dec1.defined (decodeTouched dec1 plan1) ∧
    AllAnswer dec1.platform (dec1.cfg.inBase.toNat + plan1.dataOff) plan1.need ∧
    AllAnswer dec1.platform dec1.cfg.scrBase.toNat plan1.need :=
  ⟨parse_dec1.1, parse_dec1.2, defined_dec1, all_answer (by decide +kernel) _ _,
    all_answer (by decide +kernel) _ _⟩

/-- The state after program 1, with its stream as the input of DECODE. -/
def again : State :=
  { encodeRun enc1 with cfg := { enc1.cfg with
    inBase := 0x1000, inLen := 49, scrBase := 0x2000, scrLen := 5 } }

theorem wit_EncodeDecodeRoundTrip :
    checkEncode enc1 = none ∧ enc1.defined (encodeTouched enc1 (encodeParams enc1).total) ∧
    RegionsAnswer enc1.platform enc1.encodeRegions ∧ exec .encode enc1 = .next (encodeRun enc1) ∧
    (let p := encodeParams enc1
     let t := encodeRun enc1
     let u : State := { t with cfg := { t.cfg with
       inBase := t.cfg.outBase, inLen := BitVec.ofNat 64 p.total, scrBase := 0x2000, scrLen := 5 } }
     u = again ∧ checkDecode again = none ∧ again.defined [inRegion again, scrRegion again] ∧
       p.dataLen ≤ (5 : Word).toNat ∧ AllAnswer again.platform (0x2000 : Word).toNat p.dataLen) := by
  refine ⟨by decide +kernel, ?_, fun _ _ => all_answer rfl _ _, rfl, by decide +kernel, by decide +kernel, ?_,
    by decide +kernel, all_answer (by decide +kernel) _ _⟩
  · show State.hazard _ = false; decide +kernel
  · show State.hazard _ = false; decide +kernel

/-- Regions that do not fit, a stream that is too short, a silent last byte of the data, and that byte with
the scratch byte of the sample before it silent too, which is the fault that comes first. -/
theorem wit_DecodeFailureFrames :
    checkDecode { dec1 with cfg := { dec1.cfg with inBase := -1, inLen := 2 } } =
      some (badParameter .inLen 2) ∧
    (checkDecode State.reset = none ∧
      parseStream State.reset = .error (streamError .malformedHeader 0 0)) ∧
    (let s := silent dec1 [⟨0x1030, 1⟩]
     checkDecode s = none ∧ parseStream s = .ok plan1 ∧ s.defined (decodeTouched s plan1) ∧
      FirstSilent s.platform (s.cfg.inBase.toNat + plan1.dataOff) plan1.need 0x1030 ∧
      AllAnswer s.platform (s.cfg.inBase.toNat + plan1.dataOff) 4 ∧
      AllAnswer s.platform s.cfg.scrBase.toNat 4 ∧
      FirstSilent s.platform (s.cfg.inBase.toNat + (plan1.dataOff + (4 * 1 + 0) * 1)) 1 0x1030) ∧
    (let s := silent dec1 [⟨0x1030, 1⟩, ⟨0x2003, 1⟩]
     checkDecode s = none ∧ parseStream s = .ok plan1 ∧ s.defined (decodeTouched s plan1) ∧
      AllAnswer s.platform (s.cfg.inBase.toNat + plan1.dataOff) 4 ∧
      AllAnswer s.platform s.cfg.scrBase.toNat 3 ∧
      FirstSilent s.platform s.cfg.scrBase.toNat plan1.need 0x2003 ∧
      FirstSilent s.platform (s.cfg.scrBase.toNat + 0 * 5 * 1 + 3 * 1) 1 (0x2003 + 0)) := by
  refine ⟨by decide +kernel, by decide +kernel,
    ⟨by decide +kernel, by decide +kernel, ?_, silent_at 4 (by decide +kernel), answers (by decide +kernel),
      answers (by decide +kernel), silent_at 0 (by decide +kernel)⟩,
    ⟨by decide +kernel, by decide +kernel, ?_, answers (by decide +kernel), answers (by decide +kernel),
      silent_at 3 (by decide +kernel), silent_at 0 (by decide +kernel)⟩⟩
  · show State.hazard _ = false; decide +kernel
  · show State.hazard _ = false; decide +kernel

/-- The first and the last byte of the input. -/
theorem wit_DecodeKeepsInput : exec .decode dec1 = .next (decodeRun dec1) ∧
    (inRegion dec1).has 0x1000 = true ∧ (inRegion dec1).has 0x1030 = true := ⟨rfl, by decide +kernel⟩

theorem wit_ChunkSearchSkips : 49 ≤ inLen dec1 ∧ 41 ≤ inLen dec1 ∧ inLen dec1 = 49 := by decide +kernel

/-- Stream 1 with its byte k changed. -/
def poke (k : Nat) (b : Byte) : State := dec1.writeByte (0x1000 + k) b

/-- Stream 1 with other sizes of its regions. -/
def sized (n m : Word) : State := { dec1 with cfg := { dec1.cfg with inLen := n, scrLen := m } }

/-- An n-byte field of the input stream. -/
def num (s : State) (k n : Nat) : Nat := uLE ((List.range n).map (fun i => s.readByte (0x1000 + k + i)))

/-- The regions are sound, the RIFF header is, and the search for "fmt " finds a body of this length. -/
def riffFmt (s : State) (flen : Nat) : Bool :=
  checkDecode s == none && decide (12 ≤ inLen s) && num s 0 4 == 0x46464952 && num s 8 4 == 0x45564157 &&
    findChunk s asciiFmt (chunkFuel s) 12 == .ok (20, flen)

/-- So is the fmt chunk, with this channel count, one byte a sample, and the search for "data" finds five
bytes. -/
def fmtData (s : State) (ch : Nat) : Bool :=
  riffFmt s 16 && decide (36 ≤ inLen s) && num s 20 2 == 1 && num s 22 2 == ch && num s 34 2 == 8 &&
    num s 24 4 == 4 && findChunk s asciiData (chunkFuel s) 36 == .ok (44, 5)

/-- What DECODE can find wrong up to the RIFF header and the search for "fmt ", with what stands before it
sound, most at the first value refused. -/
theorem wit_DecodeErrorsInOrder :
    FirstSilent (silent dec1 [⟨0x100B, 1⟩]).platform 0x1000 12 0x100B ∧
    (let s : State := { dec1 with cfg := { dec1.cfg with scrBase := -1, scrLen := 2 } }
     (inRegion s).fits = true ∧ (scrRegion s).fits = false) ∧
    (let s : State := { dec1 with cfg := { dec1.cfg with scrBase := 0x1030 } }
     (inRegion s).fits = true ∧ (scrRegion s).fits = true ∧ (inRegion s).overlaps (scrRegion s) = true) ∧
    (checkDecode (sized 11 5) = none ∧ inLen (sized 11 5) = 11 ∧ inLen (sized 12 5) = 12) ∧
    num (poke 3 0x58) 0 4 ≠ 0x46464952 ∧
    (num (poke 11 0x58) 0 4 = 0x46464952 ∧ num (poke 11 0x58) 8 4 ≠ 0x45564157) ∧
    findChunk (sized 12 5) asciiFmt (chunkFuel (sized 12 5)) 12 =
      .error (streamError .malformedHeader 12 0) :=
  ⟨silent_at 11 (by decide +kernel), by decide +kernel⟩

/-- The same for the fmt chunk, found at offset 20 (44_decode.md R220 to R222). -/
theorem wit_DecodeErrorsInOrder_fmt :
    FirstSilent (silent dec1 [⟨0x1023, 1⟩]).platform (0x1000 + 20) 16 0x1023 ∧
    riffFmt (silent dec1 [⟨0x1023, 1⟩]) 16 = true ∧
    riffFmt (poke 16 15) 15 = true ∧ (riffFmt (sized 35 5) 16 = true ∧ 35 - 20 < 16) ∧
    (riffFmt (poke 20 2) 16 = true ∧ num (poke 20 2) 20 2 = 2) ∧
    (riffFmt (poke 22 9) 16 = true ∧ num (poke 22 9) 20 2 = 1 ∧ num (poke 22 9) 22 2 = 9) ∧
    (riffFmt (poke 34 40) 16 = true ∧ num (poke 34 40) 22 2 = 1 ∧ num (poke 34 40) 34 2 = 40) ∧
    (riffFmt (poke 24 0) 16 = true ∧ num (poke 24 0) 34 2 = 8 ∧ num (poke 24 0) 24 4 = 0) ∧
    (riffFmt (poke 16 30) 30 = true ∧ num (poke 16 30) 24 4 = 4 ∧ 49 - 36 < 30 - 16) :=
  ⟨silent_at 15 (by decide +kernel), by decide +kernel⟩

/-- The same for the data chunk, and the stream with nothing wrong (44_decode.md R223 to R227). -/
theorem wit_DecodeErrorsInOrder_data :
    (riffFmt (sized 43 5) 16 = true ∧ findChunk (sized 43 5) asciiData (chunkFuel (sized 43 5)) 36 =
      .error (streamError .malformedHeader 36 7)) ∧
    (fmtData (poke 22 2) 2 = true ∧ 5 % 2 ≠ 0) ∧
    (fmtData (sized 49 4) 1 = true ∧ (4 : Word).toNat < 5) ∧
    (fmtData (sized 48 5) 1 = true ∧ 48 - 44 < 5) ∧ fmtData dec1 1 = true := by decide +kernel

theorem other_bytes (s : State) (a b c x : Nat) (u v w : Byte) (h : x ≠ a ∧ x ≠ b ∧ x ≠ c) :
    ({ s with mem := (((s.writeByte a u).writeByte b v).writeByte c w).mem } : State).readByte x =
      s.readByte x := by
  show (((s.writeByte a u).writeByte b v).writeByte c w).readByte x = _
  rw [readByte_writeByte, if_neg h.2.2, readByte_writeByte, if_neg h.2.1, readByte_writeByte, if_neg h.1]

/-- Stream 1 with other bytes in its RIFF size, byte rate and block align. -/
theorem wit_UncheckedFieldsIgnored :
    let m := (((dec1.writeByte 0x1004 0xAA).writeByte 0x101C 0xBB).writeByte 0x1021 0xCC).mem
    let f : Fmt := ⟨20, 16, 1, 1, 4, 8⟩
    readFmt dec1 = .ok f ∧ dec1.cfg.inBase.toNat + inLen dec1 ≤ 2 ^ 64 ∧
    (∀ k, ¬(4 ≤ k ∧ k < 8) → ¬(f.body + 8 ≤ k ∧ k < f.body + 14) →
      ({ dec1 with mem := m } : State).readByte (dec1.cfg.inBase.toNat + k) =
        dec1.readByte (dec1.cfg.inBase.toNat + k)) := by
  refine ⟨by decide +kernel, by decide +kernel, fun k h1 h2 => ?_⟩
  have hb : dec1.cfg.inBase.toNat = 0x1000 := by decide +kernel
  have h3 : ¬(28 ≤ k ∧ k < 34) := h2
  exact other_bytes dec1 _ _ _ _ _ _ _ (by omega)

theorem wit_GenEvalGivesLevel :
    let s := withCh State.reset 7 ⟨5, 1, 0, 0, 0, 0, 0⟩
    (7 : BitVec 8).toNat < 8 ∧ (8 : BitVec 4).toNat ∈ [1, 2, 3, 4, 6, 8] ∧ checkChannel 7 (s.ch 7) = none ∧
    s.defined (evalTouched s 7) ∧ chanLevel s 7 s.cfg.evalTime.toInt = .ok 9223372036854775807 := by
  refine ⟨by decide, by decide, by decide +kernel, ?_, by decide +kernel⟩
  show State.hazard _ = false
  decide +kernel

theorem wit_GenEvalErrorsInOrder :
    ¬((8 : BitVec 8).toNat < 8) ∧ (7 : BitVec 8).toNat < 8 ∧ (0 : BitVec 4).toNat ∉ [1, 2, 3, 4, 6, 8] ∧
    (2 : BitVec 4).toNat ∈ [1, 2, 3, 4, 6, 8] ∧
    checkChannel 7 ⟨7, 0, 0, 0, 0, 0, 0⟩ = some (badParameter (.ch 7 .src) 7) ∧
    checkChannel 1 ((silent enc2 [⟨0x2000, 1⟩]).ch 1) = none ∧
    chanLevel (silent enc2 [⟨0x2000, 1⟩]) 1 (silent enc2 [⟨0x2000, 1⟩]).cfg.evalTime.toInt = .error 0x2000 := by
  decide +kernel

theorem wit_QuantiseOfDequantise :
    8 ∈ Config.widths ∧ ([0, 0, 0, 0, 0, 0, 0, 0x80] : List Byte).length = 8 ∧ 1 ∈ Config.widths ∧
    ([0] : List Byte).length = 1 := by decide

theorem wit_DequantiseOfQuantise :
    1 ∈ Config.widths ∧ -2 ^ 63 ≤ (-2 ^ 63 : Int) ∧ (2 ^ 63 - 1 : Int) < 2 ^ 63 := by decide

theorem wit_SineTable : 4095 < 4096 ∧ 2047 < 2048 ∧ 2048 ≤ 2048 ∧ (0 : Int) < 1 ∧ 15 < 16 := by decide

theorem wit_PeriodicSources_and_Ramps : (1 : Int) ≤ 1 ∧ (-1 : Int) ≤ 0 := by decide

/-- Each kind with the least parameter its check passes. -/
theorem wit_SourceLevelFormulas :
    checkChannel 0 ⟨0, 0, 0, 0, 0, 0, 0⟩ = none ∧ checkChannel 0 ⟨1, 1, 0, 0, 0, 0, 0⟩ = none ∧
    checkChannel 0 ⟨2, 0, 0, 0, 0, 0, 0⟩ = none ∧ checkChannel 0 ⟨3, 1, 0, 0, 0, 0, 0⟩ = none ∧
    checkChannel 0 ⟨4, 1, 0, 0, 0, 0, 0⟩ = none ∧ checkChannel 0 ⟨5, 1, 0, 0, 0, 0, 0⟩ = none := by decide

/-- The last sample that answers, a sample with a silent byte, and the times around the buffer. -/
theorem wit_BufferLevels :
    checkChannel 1 (enc2.ch 1) = none ∧ (enc2.ch 1).src = 6 ∧
    (0 ≤ (1 : Int) / (enc2.ch 1).bufPeriod.toInt ∧
      (1 : Int) / (enc2.ch 1).bufPeriod.toInt < ((enc2.ch 1).bufLen.toNat / (enc2.ch 1).bufWidth.toNat : Nat)) ∧
    AllAnswer enc2.platform ((enc2.ch 1).bufBase.toNat + 1 * (enc2.ch 1).bufWidth.toNat) 2 ∧
    FirstSilent (silent enc2 [⟨0x2003, 1⟩]).platform 0x2002 2 0x2003 ∧
    ¬(0 ≤ (-1 : Int) / (enc2.ch 1).bufPeriod.toInt) ∧
    ¬((2 : Int) / (enc2.ch 1).bufPeriod.toInt < ((enc2.ch 1).bufLen.toNat / (enc2.ch 1).bufWidth.toNat : Nat)) := by
  refine ⟨by decide +kernel, by decide, by decide +kernel, all_answer rfl _ _,
    silent_at 1 (by decide +kernel), by decide +kernel, by decide +kernel⟩

theorem wit_LevelsInRange : checkChannel 0 ⟨5, 1, 0, 0, 0, 0, 0⟩ = none ∧
    srcLevel State.reset ⟨5, 1, 0, 0, 0, 0, 0⟩ 0 = .ok 9223372036854775807 := by decide +kernel

theorem wit_DelayWraps : -2 ^ 63 ≤ (-2 ^ 63 : Int) - (0 : Word).toInt ∧
    (2 ^ 63 - 1 : Int) - (0 : Word).toInt < 2 ^ 63 := by decide +kernel

theorem wit_SourceKindsSelect : State.reset.phase = .idle ∧ 7 < 8 := by decide

theorem wit_SourceKindsTurnedAway : selectedSource (.srcSine 7) = some (7, .sine) ∧
    (running enc1 0).phase = .running 0 ∧ selectedSource (.srcSine 8) = some (8, .sine) := by decide

theorem wit_SoftResetRestoresBlock : (running dec1 2).dest = some ⟨0x2000, 5⟩ ∧
    (⟨0x2000, 5⟩ : Region).has 0x2000 = true ∧ (⟨0x2000, 5⟩ : Region).has 0x2005 = false := by decide +kernel

theorem wit_HardResetRestoresBlock :
    (input (running dec1 2) (.host .hardReset)).inputs = .host .hardReset :: [] ∧
    (0x2F8 : BitVec 12).toNat % 8 = 0 ∧ regAt 0x2F8 = none ∧ regAt 0x2F0 = some (.ch 7 .bufPeriod) := by decide

/-- The last descriptor's first and last slot, the first offset past the file, the last of the window, and
one that is no multiple of 8. -/
theorem wit_RegisterMapExact :
    regAt 0x0F8 = some .evalQuant ∧ regAt 0x2C0 = some (.ch 7 .src) ∧ regAt 0x2F8 = none ∧
    0x300 ≤ (0x300 : BitVec 12).toNat ∧ 0x300 ≤ (0xFF8 : BitVec 12).toNat ∧
    (0x084 : BitVec 12).toNat % 8 ≠ 0 := by decide

theorem wit_ConfigWriteStores :
    (input dec1 (.host (hostWrite 0x2F0 5))).phase = .idle ∧ regAt 0x2F0 = some (.ch 7 .bufPeriod) ∧
    Reg.isConfig (.ch 7 .bufPeriod) = true ∧
    (input dec1 (.host (hostWrite 0x2F0 5))).inputs = .host (hostWrite 0x2F0 5) :: [] := by decide

theorem wit_BusyConfigWriteDropped :
    (running (input dec1 (.host (hostWrite 0x100 1))) 2).phase = .running 2 ∧
    regAt 0x100 = some (.ch 0 .src) ∧ Reg.isConfig (.ch 0 .src) = true ∧
    (running (input dec1 (.host (hostWrite 0x100 1))) 2).inputs = .host (hostWrite 0x100 1) :: [] := by decide

theorem wit_IgnoredAndRefusedAccesses :
    (0x2F8 : BitVec 12).toNat % 8 = 0 ∧ regAt 0x2F8 = none ∧ regAt 0x0F8 = some .evalQuant ∧
    Reg.isResult .evalQuant = true ∧ (2 : Word).getLsbD 0 = false ∧
    (input dec1 (.host (hostWrite 0x0F8 5))).inputs = .host (hostWrite 0x0F8 5) :: [] ∧
    (0x024 : BitVec 12).toNat % 8 ≠ 0 ∧ (4 : Nat) ≠ 8 := by decide

theorem wit_StatusAndEnableWrites :
    (input dec1 (.host (hostWrite 0x020 15))).inputs = .host (hostWrite 0x020 15) :: [] ∧
    (input dec1 (.host (hostWrite 0x028 15))).inputs = .host (hostWrite 0x028 15) :: [] := by decide

/-- A register of an idle block, one that is no result while DECODE runs, a reserved offset, a result while
DECODE runs; the two bytes of which the first is scratch's last, while DECODE runs and idle; and the
destination of an ENCODE and of a DECODE. -/
theorem wit_HostReads :
    ((input dec1 (.host (hostRead 0x0B0))).phase = .idle ∧ regAt 0x0B0 = some .decChannels ∧
      (input dec1 (.host (hostRead 0x0B0))).inputs = .host (hostRead 0x0B0) :: []) ∧
    (regAt 0x2F0 = some (.ch 7 .bufPeriod) ∧ Reg.isResult (.ch 7 .bufPeriod) = false ∧
      (running (input dec1 (.host (hostRead 0x2F0))) 2).inputs = .host (hostRead 0x2F0) :: []) ∧
    ((0x300 : BitVec 12).toNat % 8 = 0 ∧ regAt 0x300 = none ∧
      (input dec1 (.host (hostRead 0x300))).inputs = .host (hostRead 0x300) :: []) ∧
    (let s := running (input dec1 (.host (hostRead 0x0B0))) 2
     s.phase = .running 2 ∧ regAt 0x0B0 = some .decChannels ∧ Reg.isResult .decChannels = true ∧
      s.inputs = .host (hostRead 0x0B0) :: [] ∧
      engineTurn { s with inputs := [] } = .next (decodeRun { s with inputs := [] })) ∧
    (let s := running (input dec1 (.host (.memRead 0x2004 2))) 2
     s.inputs = .host (.memRead 0x2004 2) :: [] ∧ (0x2004 : Word).toNat + 2 ≤ 2 ^ 64 ∧
      s.dest = some ⟨0x2000, 5⟩ ∧ (⟨0x2000, 5⟩ : Region).has (0x2004 + 0) = true ∧
      (⟨0x2000, 5⟩ : Region).has (0x2004 + 1) = false ∧ (input dec1 .engine).phase = .idle) ∧
    (decodeCmd 1 = .ok .encode ∧ decodeCmd 2 = .ok .decode ∧ decodeCmd 0 = .ok .nop ∧
      (running enc1 1).dest = some ⟨0x1000, 49⟩ ∧ 0 ≤ enc1.cfg.encLength.toInt) := by
  refine ⟨by decide, by decide, by decide, ⟨rfl, by decide, rfl, rfl, rfl⟩, by decide +kernel⟩

/-- The last byte of the space. -/
theorem wit_HostMemoryReadsBack :
    let s : State := { State.reset with inputs := [.host (.memWrite (-1) [7]), .host (.memRead (-1) 1)] }
    s.phase = .idle ∧ (-1 : Word).toNat + ([7] : List Byte).length ≤ 2 ^ 64 ∧
    s.inputs = .host (.memWrite (-1) [7]) :: .host (.memRead (-1) ([7] : List Byte).length) :: [] := by
  decide +kernel

theorem reset_inv : State.reset.Inv :=
  ⟨rfl, fun v hv => (by cases hv), by decide, fun _ => rfl, fun h => (by cases h), fun h => (by cases h)⟩

theorem wit_StepKeepsInvariant : State.reset.Inv ∧ step State.reset = .next State.reset := ⟨reset_inv, rfl⟩

/-- A run starts, completes, and is reset. -/
theorem wit_PhaseChanges :
    (next (step (input State.reset (.host (hostWrite 0x030 0)))) (fun t => t.phase == .running 0)) = true ∧
    (next (step (running State.reset 0)) (fun t => t.phase == .idle && t.status.done)) = true ∧
    (next (step (running (input State.reset (.host .hardReset)) 0))
      (fun t => t.phase == .idle && !t.status.done)) = true := by decide +kernel

theorem wit_EveryCommandCompletes :
    (running (input { State.reset with hazard := true } .engine) (-1)).phase = .running (-1) ∧
    (running (input { State.reset with hazard := true } .engine) (-1)).inputs = .engine :: [] ∧
    (running (input { State.reset with hazard := true } .engine) (-1)).hazard = true ∧
    (running State.reset (-1)).inputs = [] := by decide

theorem wit_ErrorsOfCommands : exec .nop enc1 = .next (complete none enc1) ∧
    exec .encode enc1 = .next (encodeRun enc1) ∧ exec .decode enc1 = .next (decodeRun enc1) ∧
    exec (.genEval 0 1) enc1 = .next (genEvalRun 0 1 enc1) := ⟨rfl, rfl, rfl, rfl⟩

theorem wit_AccessBeforeCompletion :
    (running (input enc1 (.both (hostWrite 0x020 15))) 1).phase = .running 1 ∧
    (running (input enc1 (.both (hostWrite 0x020 15))) 1).inputs = .both (hostWrite 0x020 15) :: [] ∧
    (running (input enc1 (.both (hostWrite 0x030 1))) 1).inputs = .both (hostWrite 0x030 1) :: [] ∧
    regAt 0x050 = some .encChannels ∧ Reg.isConfig .encChannels = true ∧
    (running (input enc1 (.both (hostWrite 0x050 2))) 1).inputs = .both (hostWrite 0x050 2) :: [] ∧
    (running (input enc1 (.both (hostWrite 0x018 1))) 1).inputs = .both (hostWrite 0x018 1) :: [] := by decide

/-- A platform with one more device. -/
def withDevice (s : State) (r : Region) : State := { s with platform := { s.platform with devices := [r] } }

/-- The last byte of DECODE's input and the byte after it; the last byte of an output region longer than its
stream, which only another master may not write; and a platform in which the last byte of the input falls
silent, or the last byte of scratch becomes a device's. -/
theorem wit_OutsideAccessSetsHazard :
    ((running (input dec1 (.host (.memWrite 0x1030 [0]))) 2).inputs = .host (.memWrite 0x1030 [0]) :: [] ∧
      (0x1030 : Word).toNat + ([0] : List Byte).length ≤ 2 ^ 64 ∧
      (running dec1 2).guarded = [⟨0x2000, 5⟩, ⟨0x1000, 49⟩] ∧ (⟨0x1000, 49⟩ : Region).has 0x1030 = true ∧
      (⟨0x1000, 49⟩ : Region).has 0x1031 = false ∧ (⟨0x2000, 5⟩ : Region).has 0x1031 = false) ∧
    ((running (input enc1 (.host (.masterWrite 0x103F [0]))) 1).inputs = .host (.masterWrite 0x103F [0]) :: [] ∧
      (running enc1 1).guarded = [⟨0x1000, 49⟩] ∧ (running enc1 1).named = [⟨0x1000, 64⟩] ∧
      (⟨0x1000, 64⟩ : Region).has 0x103F = true ∧ (⟨0x1000, 49⟩ : Region).has 0x103F = false) ∧
    (let s := running (input dec1 (.host (.platformChange (silent dec1 [⟨0x1030, 1⟩]).platform))) 2
     s.inputs = .host (.platformChange (silent dec1 [⟨0x1030, 1⟩]).platform) :: [] ∧
      s.named = [⟨0x1000, 49⟩, ⟨0x2000, 5⟩] ∧
      (silent dec1 [⟨0x1030, 1⟩]).platform.memOK 0x1030 ≠ s.platform.memOK 0x1030 ∧
      (withDevice dec1 ⟨0x2004, 1⟩).platform.coversDevice ⟨0x2000, 5⟩ = true ∧
      s.platform.coversDevice ⟨0x2000, 5⟩ = false) := by decide +kernel

/-- A device in the unused end of the output region, in a buffer ENCODE and GEN_EVAL read, in scratch; and a
device in scratch when the stream does not parse, and in a buffer at a time outside it. -/
theorem wit_DeviceAccessSetsHazard :
    (next (exec .encode (withDevice enc1 ⟨0x103F, 1⟩)) (fun t => t.hazard) = true ∧
      next (exec .encode (withDevice enc1 ⟨0x1040, 1⟩)) (fun t => !t.hazard) = true) ∧
    next (exec .encode (withDevice enc2 ⟨0x2003, 1⟩)) (fun t => t.hazard) = true ∧
    (next (exec .decode (withDevice dec1 ⟨0x2004, 1⟩)) (fun t => t.hazard) = true ∧
      next (exec .decode (withDevice (poke 20 2) ⟨0x2004, 1⟩)) (fun t => !t.hazard) = true) ∧
    (let s := fun t => withDevice { enc2 with cfg := { enc2.cfg with evalTime := t } } ⟨0x2000, 1⟩
     next (exec (.genEval 1 2) (s 1)) (fun t => t.hazard) = true ∧
      next (exec (.genEval 1 2) (s 2)) (fun t => !t.hazard) = true) ∧
    (let s : State := input { State.reset with hazard := true } (.host (hostWrite 0x018 1))
     s.hazard = true ∧ next (step s) (fun t => t.hazard) = true ∧
      s.inputs = .host (hostWrite 0x018 1) :: []) := by decide +kernel

/-! ### How a program comes to run (log entry 2) -/

theorem test_fetch_command : next (step (State.reset.withFetchWord 64 0x10003))
    (fun t => t.eval == ⟨0, 0x80⟩ && t.inputs == [] && statusWord t == 2) = true := by decide +kernel

theorem test_fetch_source : next (step (State.reset.withFetchWord 64 5))
    (fun t => (t.ch 0).src == 5 && t.inputs == []) = true := by decide +kernel

end Sys2Proof.Tests
end

/-! PROOFS. The decoder on command words, and the worked words of 30_encoding.md R111. -/

namespace Sys2Proof

/-- A word written to CMD is read as a command word (30_encoding.md R97). -/
theorem decode_cmdOffset (w : Word) : decode cmdOffset w = decodeCmd w := by
  have hcmd : carrierAt cmdOffset = some .cmd := by decide
  simp only [decode, hcmd, decodeIn]

section GenEvalFields
open BitVec

/-! The four fields of GEN_EVAL's word: each extract skips the fields below its own (30_encoding.md R97). -/

theorem cmdOp_genEvalWord (ch : BitVec 8) (w : BitVec 4) : cmdOp (genEvalWord ch w) = 3 :=
  extractLsb'_append_eq_right

theorem cmdCh_genEvalWord (ch : BitVec 8) (w : BitVec 4) : cmdCh (genEvalWord ch w) = ch :=
  (extractLsb'_append_eq_of_le (by decide)).trans extractLsb'_append_eq_right

theorem cmdW_genEvalWord (ch : BitVec 8) (w : BitVec 4) : cmdW (genEvalWord ch w) = w :=
  (extractLsb'_append_eq_of_le (by decide)).trans <|
    (extractLsb'_append_eq_of_le (by decide)).trans extractLsb'_append_eq_right

theorem cmdRes_genEvalWord (ch : BitVec 8) (w : BitVec 4) : cmdRes (genEvalWord ch w) = 0 :=
  (extractLsb'_append_eq_of_le (by decide)).trans <|
    (extractLsb'_append_eq_of_le (by decide)).trans extractLsb'_append_eq_left

end GenEvalFields

/-- GEN_EVAL is read back from its command word, whatever its fields hold (30_encoding.md R99). -/
theorem decodeCmd_genEvalWord (ch : BitVec 8) (w : BitVec 4) :
    decodeCmd (genEvalWord ch w) = .ok (.genEval ch w) := by
  simp [decodeCmd, cmdOp_genEvalWord, cmdCh_genEvalWord, cmdW_genEvalWord, cmdRes_genEvalWord]

/-- The word of an instruction other than GEN_EVAL is its OP alone, so a set CH or W makes the word illegal, as
a set RES or a reserved OP does (30_encoding.md R102 (a)). -/
theorem decodeCmd_illegal {w : Word}
    (h : cmdRes w ≠ 0 ∨ 4 ≤ (cmdOp w).toNat ∨ ((cmdOp w).toNat ≤ 2 ∧ (cmdCh w ≠ 0 ∨ cmdW w ≠ 0))) :
    decodeCmd w = .error (.illegalCommand w) := by
  unfold decodeCmd
  rcases h with hres | hop | ⟨hop, hoperand⟩
  · exact if_pos hres
  · have hne (k : BitVec 8) (hk : k.toNat < 4) : cmdOp w ≠ k := by rintro rfl; omega
    simp only [hne 0 (by decide), hne 1 (by decide), hne 2 (by decide), hne 3 (by decide), false_and, if_false,
      ite_self]
  · have hne : cmdOp w ≠ 3 := by rintro h3; simp [h3] at hop
    have hset : ¬ (cmdCh w = 0 ∧ cmdW w = 0) := not_and_or.mpr hoperand
    simp only [hset, hne, and_false, if_false, ite_self]

/-- Settles O4. The GEN_EVAL words are `genEvalWord` of their fields, and each illegal word has one cause: the
operand of ENCODE, a bit of RES, a reserved OP. -/
theorem workedCommandWords : Obligations.WorkedCommandWords := by
  unfold Obligations.WorkedCommandWords
  have hcmd (w : Word) : decode 0x030 w = decodeCmd w := decode_cmdOffset w
  have hword23 : (0x0000000000030203 : Word) = genEvalWord 2 3 := by decide
  have hword08 : (0x0000000000080003 : Word) = genEvalWord 0 8 := by decide
  simp only [hcmd]
  refine ⟨rfl, ?encode, ?genEval23, ?genEval08, ?encodeCh, ?resBit, ?reservedOp⟩
  case encode => decide
  case genEval23 => rw [hword23, decodeCmd_genEvalWord]
  case genEval08 => rw [hword08, decodeCmd_genEvalWord]
  case encodeCh => exact decodeCmd_illegal (.inr (.inr (by decide)))
  case resBit => exact decodeCmd_illegal (.inl (by decide))
  case reservedOp => exact decodeCmd_illegal (.inr (.inl (by decide)))

end Sys2Proof

/-! PROOFS. Q and Dq undo each other up to the bits the shift drops (40_numeric.md R126 to R131): a sample is
the shifted level in excess-128 form in one byte and in two's complement in W bytes otherwise, and each form is
one to one on the values that fit it. -/

namespace Sys2Proof.Machine

/-! ### Q and Dq, one equation for each form of a sample -/

theorem quantise_one (v : Int) : quantise v 1 = [BitVec.ofInt 8 (fdiv v (2 ^ shiftAmount 1) + 128)] := rfl

theorem quantise_of_ne_one (v : Int) {W : Nat} (hW : W ≠ 1) :
    quantise v W = le W (fdiv v (2 ^ shiftAmount W)) := if_neg hW

theorem dequantise_one (b : Byte) : dequantise [b] 1 = ((b.toNat : Int) - 128) * 2 ^ shiftAmount 1 := rfl

theorem dequantise_of_ne_one (bs : List Byte) {W : Nat} (hW : W ≠ 1) :
    dequantise bs W = sext (8 * W) (uLE bs) * 2 ^ shiftAmount W := if_neg hW

/-! ### The rescaling shift -/

/-- Q's shift takes back Dq's. -/
theorem fdiv_mul_shift (s : Int) (k : Nat) : fdiv (s * 2 ^ k) (2 ^ k) = s := by
  have hk : (0 : Int) < 2 ^ k := by positivity
  rw [fdiv_eq_ediv _ hk.le, Int.mul_ediv_cancel s hk.ne']

/-- Dq's shift takes back Q's up to the bits below it. -/
theorem fdiv_shift_mul (v : Int) (k : Nat) : fdiv v (2 ^ k) * 2 ^ k = v - v % 2 ^ k := by
  rw [fdiv_eq_ediv v (by positivity), Int.emod_def, mul_comm]
  omega

/-- A 64-bit level is shifted into the range of 8W bits. -/
theorem fdiv_shift_fits {W : Nat} {v : Int} (hW : W ∈ Config.widths) (hlo : -2 ^ 63 ≤ v) (hhi : v < 2 ^ 63) :
    -2 ^ (8 * W - 1) ≤ fdiv v (2 ^ shiftAmount W) ∧ fdiv v (2 ^ shiftAmount W) < 2 ^ (8 * W - 1) := by
  have hk : (0 : Int) < 2 ^ shiftAmount W := by positivity
  have hsplit : (2 : Int) ^ (8 * W - 1) * 2 ^ shiftAmount W = 2 ^ 63 := by
    have hexp : 8 * W - 1 + shiftAmount W = 63 := by
      rw [mem_widths] at hW; simp only [shiftAmount, Config.levelBits]; omega
    rw [← pow_add, hexp]
  rw [fdiv_eq_ediv v hk.le]
  exact ⟨Int.le_ediv_of_mul_le hk (by rw [neg_mul, hsplit]; exact hlo),
    Int.ediv_lt_of_lt_mul hk (by rw [hsplit]; exact hhi)⟩

/-! ### Excess-128, the one-byte form -/

theorem ofInt_excess_toNat (b : Byte) : BitVec.ofInt 8 ((b.toNat : Int) - 128 + 128) = b := by
  rw [sub_add_cancel, BitVec.ofInt_natCast, BitVec.ofNat_toNat, BitVec.setWidth_eq]

theorem toNat_excess_ofInt {s : Int} (hlo : -128 ≤ s) (hhi : s < 128) :
    ((BitVec.ofInt 8 (s + 128)).toNat : Int) - 128 = s := by
  rw [BitVec.toNat_ofInt]; omega

/-! ### Two's complement, the form of every other width -/

/-- `sext` is the balanced remainder. -/
theorem sext_eq_bmod {n v : Nat} (hv : v < 2 ^ n) : sext n v = (v : Int).bmod (2 ^ n) := by
  have hmod : (v : Int) % (2 ^ n : Nat) = v := Int.emod_eq_of_lt (by omega) (by exact_mod_cast hv)
  have hhalf : 2 * v < 2 ^ n ↔ (v : Int) < ((2 ^ n : Nat) + 1) / 2 := by omega
  rw [Int.bmod, hmod, sext]
  exact if_congr hhalf rfl (by push_cast; rfl)

theorem sext_uLE (bs : List Byte) :
    sext (8 * bs.length) (uLE bs) = (uLE bs : Int).bmod (256 ^ bs.length) := by
  have hpow : 2 ^ (8 * bs.length) = 256 ^ bs.length := pow_mul 2 8 bs.length
  rw [← hpow]
  exact sext_eq_bmod (hpow ▸ uLE_lt bs)

/-- Laying out the signed value of bytes gives the bytes back: `le` looks at the residue only. -/
theorem le_sext_uLE (bs : List Byte) : le bs.length (sext (8 * bs.length) (uLE bs)) = bs := by
  have hres : (uLE bs : Int).bmod (256 ^ bs.length) % 256 ^ bs.length = (uLE bs : Int) % 256 ^ bs.length := by
    exact_mod_cast Int.bmod_emod
  rw [sext_uLE, ← le_emod, hres, le_emod, le_uLE]

/-- The signed value of the bytes of a value that fits them is the value. -/
theorem sext_uLE_le {n : Nat} {v : Int} (hn : 0 < n) (hlo : -2 ^ (8 * n - 1) ≤ v) (hhi : v < 2 ^ (8 * n - 1)) :
    sext (8 * n) (uLE (le n v)) = v := by
  have hpow : 256 ^ n = 2 * 2 ^ (8 * n - 1) := by
    rw [← pow_succ', Nat.sub_add_cancel (by omega), pow_mul]; rfl
  have hres : ((uLE (le n v) : Nat) : Int).bmod (256 ^ n) = v.bmod (256 ^ n) := by
    rw [uLE_le]; exact_mod_cast Int.emod_bmod v (256 ^ n)
  have hsext := sext_uLE (le n v)
  rw [le_length] at hsext
  rw [hsext, hres, hpow]
  exact Int.bmod_eq_of_le (by push_cast; omega) (by push_cast; omega)

/-! ### The two round trips -/

/-- Settles O30. The shifts cancel, and laying out the value of a sample gives its bytes back. -/
theorem quantiseOfDequantise : Obligations.QuantiseOfDequantise := by
  unfold Obligations.QuantiseOfDequantise
  rintro W bs - hlen
  by_cases hW : W = 1
  · subst hW
    obtain ⟨b, rfl⟩ := List.length_eq_one_iff.mp hlen
    rw [dequantise_one, quantise_one, fdiv_mul_shift, ofInt_excess_toNat]
  · subst hlen
    rw [dequantise_of_ne_one bs hW, quantise_of_ne_one _ hW, fdiv_mul_shift, le_sext_uLE]

/-- A sample holds the whole of the shifted level: only the shift loses bits (40_numeric.md R131). -/
theorem dequantise_quantise {W : Nat} {v : Int} (hW : W ∈ Config.widths) (hlo : -2 ^ 63 ≤ v) (hhi : v < 2 ^ 63) :
    dequantise (quantise v W) W = fdiv v (2 ^ shiftAmount W) * 2 ^ shiftAmount W := by
  obtain ⟨hlo', hhi'⟩ := fdiv_shift_fits hW hlo hhi
  by_cases h1 : W = 1
  · subst h1
    rw [quantise_one, dequantise_one, toNat_excess_ofInt hlo' hhi']
  · rw [quantise_of_ne_one v h1, dequantise_of_ne_one _ h1, sext_uLE_le (width_pos hW) hlo' hhi']

/-- Settles O31. The loss is the remainder of the shift, which is never negative and below 2^k(W). -/
theorem dequantiseOfQuantise : Obligations.DequantiseOfQuantise := by
  unfold Obligations.DequantiseOfQuantise
  intro W v hW hlo hhi
  have hk : (0 : Int) < 2 ^ (64 - 8 * W) := by positivity
  have hvalue : dequantise (quantise v W) W = v - v % 2 ^ (64 - 8 * W) :=
    (dequantise_quantise hW hlo hhi).trans (fdiv_shift_mul v (shiftAmount W))
  rw [hvalue, sub_sub_cancel]
  exact ⟨rfl, Int.emod_nonneg v hk.ne', Int.emod_lt_of_pos v hk⟩

end Sys2Proof.Machine

/-! PROOFS. Periodic sources and the channel delay (41_generators.md R144, R147): SINE and SQUARE see the source
time through its phase only, and the delay's subtraction keeps the residue modulo 2^64. -/

namespace Sys2Proof.Machine

/-! ### The phase (R144) -/

theorem emod_add_mul_period (τ m : Int) {P : Int} (hP : 0 < P) : emod (τ + m * P) P = emod τ P := by
  rw [emod_eq_emod _ hP.le, emod_eq_emod _ hP.le, Int.add_mul_emod_self_right]

theorem sineLevel_eq_of_phase_eq {P σ τ : Int} (h : emod σ P = emod τ P) : sineLevel P σ = sineLevel P τ := by
  simp only [sineLevel, h]

theorem squareLevel_eq_of_phase_eq {P σ τ : Int} (h : emod σ P = emod τ P) :
    squareLevel P σ = squareLevel P τ := by
  simp only [squareLevel, h]

/-- Settles O34. Both levels are functions of the phase, which whole periods do not move. -/
theorem periodicSources : Obligations.PeriodicSources := by
  unfold Obligations.PeriodicSources
  intro P τ m hP
  have hpos : 0 < P := by omega
  have hphase : emod (τ + m * P) P = emod τ P := emod_add_mul_period τ m hpos
  exact ⟨emod_nonneg τ hpos, emod_lt τ hpos, sineLevel_eq_of_phase_eq hphase, squareLevel_eq_of_phase_eq hphase⟩

/-! ### The channel delay (R147) -/

/-- A register holds a value up to multiples of 2^64 (00_scope.md R10). -/
theorem dvd_sub_s64_u64 (v : Int) : (2 ^ 64 : Int) ∣ v - s64 (u64 v) := by
  rw [s64_u64]
  exact_mod_cast Int.dvd_self_sub_bmod (x := v) (m := 2 ^ 64)

/-- Settles O39. The time is `sourceTime`, a register's signed value: one in range, congruent to the exact
difference, and the difference itself where that is in range. -/
theorem delayWraps : Obligations.DelayWraps := by
  unfold Obligations.DelayWraps
  intro s c t
  exact ⟨sourceTime (s.ch c) t, rfl, neg_le_s64 _, s64_lt _, dvd_sub_s64_u64 _, s64_u64_of_fits⟩

end Sys2Proof.Machine

/-! PROOFS. The BUFFER source (42_pcm_buffer.md R172, R174, R175): the sample a source time selects, and what
reading it gives. -/

namespace Sys2Proof.Machine

/-! ### A channel whose kind is BUFFER -/

theorem srcLevel_buffer (s : State) {d : Channel} (hkind : kindOf d.src = some .buffer) (τ : Int) :
    srcLevel s d τ = bufferLevel s d τ := by
  simp only [srcLevel, hkind]

/-- What the channel's check asks of a BUFFER channel (41_generators.md R148). -/
theorem checkChannel_buffer_iff (c : Nat) {d : Channel} (hkind : kindOf d.src = some .buffer) :
    checkChannel c d = none ↔
      d.bufWidth.toNat ∈ Config.widths ∧ 1 ≤ s64 d.bufPeriod ∧ d.bufRegion.fits = true := by
  simp only [checkChannel, hkind]
  split_ifs with hwidth hperiod hfits
  · simp [hperiod.not_ge]
  · rw [Bool.not_eq_true'] at hfits
    simp [hfits, -Region.fits_iff]
  · exact iff_of_true rfl ⟨hwidth, not_lt.mp hperiod, by simpa using hfits⟩
  · simp [hwidth]

/-! ### The sample a source time selects (R172, R174) -/

/-- The index is the quotient that rounds down, also for a source time below 0. -/
theorem bufferSample_of_inside {d : Channel} {τ : Int} (hBP : 0 ≤ d.bufPeriod.toInt)
    (h0 : 0 ≤ τ / d.bufPeriod.toInt)
    (hn : τ / d.bufPeriod.toInt < (d.bufLen.toNat / d.bufWidth.toNat : Nat)) :
    bufferSample d τ =
      some (d.bufBase.toNat + (τ / d.bufPeriod.toInt).toNat * d.bufWidth.toNat) := by
  simp only [bufferSample, s64, fdiv_eq_ediv τ hBP]
  exact if_pos ⟨h0, hn⟩

theorem bufferSample_of_outside {d : Channel} {τ : Int} (hBP : 0 ≤ d.bufPeriod.toInt)
    (h : ¬(0 ≤ τ / d.bufPeriod.toInt ∧
      τ / d.bufPeriod.toInt < (d.bufLen.toNat / d.bufWidth.toNat : Nat))) :
    bufferSample d τ = none := by
  simp only [bufferSample, s64, fdiv_eq_ediv τ hBP]
  exact if_neg h

/-! ### The level of the selected sample (R172, R175) -/

section
variable {s : State} {d : Channel} {τ : Int} {a : Nat}

theorem bufferLevel_of_answer (ha : bufferSample d τ = some a)
    (h : AllAnswer s.platform a d.bufWidth.toNat) :
    bufferLevel s d τ = .ok (dequantise ((List.range d.bufWidth.toNat).map (fun k => s.readByte (a + k)))
      d.bufWidth.toNat) := by
  simp only [bufferLevel, ha, dmaRead_ok h]

theorem bufferLevel_of_silent {x : Nat} (ha : bufferSample d τ = some a)
    (h : FirstSilent s.platform a d.bufWidth.toNat x) : bufferLevel s d τ = .error x := by
  simp only [bufferLevel, ha, dmaRead_silent h]

/-- Outside the buffer no byte is read: the level is 0 whatever answers. -/
theorem bufferLevel_of_none (s : State) (ha : bufferSample d τ = none) : bufferLevel s d τ = .ok 0 := by
  simp only [bufferLevel, ha]

end

/-- Settles O37. The check makes the period positive, so that the index is a plain quotient; then the level
follows the read of the selected sample. -/
theorem bufferLevels : Obligations.BufferLevels := by
  unfold Obligations.BufferLevels
  intro s c d τ hcheck hsrc
  have hkind : kindOf d.src = some .buffer := hsrc ▸ kindOf_code .buffer
  obtain ⟨-, hperiod, -⟩ := (checkChannel_buffer_iff c hkind).mp hcheck
  have hBP : 0 ≤ d.bufPeriod.toInt := zero_le_one.trans hperiod
  rw [srcLevel_buffer s hkind]
  refine ⟨?answer, ?silent, ?outside⟩
  case answer => exact fun h0 hn => bufferLevel_of_answer (bufferSample_of_inside hBP h0 hn)
  case silent => exact fun _ h0 hn => bufferLevel_of_silent (bufferSample_of_inside hBP h0 hn)
  case outside => exact fun h => bufferLevel_of_none s (bufferSample_of_outside hBP h)

end Sys2Proof.Machine

/-! PROOFS. The WAV header (43_encode.md R190 to R193) as a sequence of parts: the k-th stands after the lengths of
the parts before it, and a number laid out in n bytes is read back when it is below 256^n. -/

namespace Sys2Proof.Machine

/-! ### Fields of a byte sequence (00_scope.md R12) -/

theorem uLE_le_of_lt {n v : Nat} (hv : v < 256 ^ n) : uLE (le n v) = v := by
  have hmod : (uLE (le n v) : Int) = (v % 256 ^ n : Nat) := by exact_mod_cast uLE_le n v
  rw [Nat.mod_eq_of_lt hv] at hmod
  exact_mod_cast hmod

theorem field_of_slice_le {bs : List Byte} {i n v : Nat} (hslice : (bs.drop i).take n = le n v)
    (hv : v < 256 ^ n) : field bs i n = v := by
  rw [field, hslice, uLE_le_of_lt hv]

/-- Where the k-th part of a joined list stands. -/
theorem slice_flatten {α : Type} (parts : List (List α)) (k : Nat) (hk : k < parts.length) :
    (parts.flatten.drop ((parts.map List.length).take k).sum).take parts[k].length = parts[k] := by
  rw [List.drop_sum_flatten, List.drop_eq_getElem_cons hk, List.flatten_cons, List.take_left]

/-! ### The parts of the header (R193) -/

/-- The header's parts in the order of the rows of R193. -/
def headerParts (p : EncodeParams) : List (List Byte) :=
  [asciiRIFF, le 4 (36 + p.dataLen : Nat), asciiWAVE, asciiFmt, le 4 16, le 2 1, le 2 p.channels,
    le 4 p.rate, le 4 (p.rate * p.channels * p.width : Nat), le 2 (p.channels * p.width : Nat),
    le 2 (8 * p.width : Nat), asciiData, le 4 p.dataLen]

/-- The lengths of the header's parts, whose partial sums are the offsets of R193. -/
def headerLengths : List Nat := [4, 4, 4, 4, 4, 2, 2, 4, 4, 2, 2, 4, 4]

theorem wavHeader_eq_flatten (p : EncodeParams) : wavHeader p = (headerParts p).flatten := by
  simp only [wavHeader, headerParts, List.flatten_cons, List.flatten_nil, List.append_nil,
    List.append_assoc]

theorem headerParts_lengths (p : EncodeParams) : (headerParts p).map List.length = headerLengths := by
  simp [headerParts, headerLengths, asciiRIFF, asciiWAVE, asciiFmt, asciiData]

theorem wavHeader_slice (p : EncodeParams) (k : Fin 13) :
    ((wavHeader p).drop (headerLengths.take k).sum).take headerLengths[k] = (headerParts p)[k] := by
  have hlen : headerLengths[k] = ((headerParts p)[k]).length := by
    simp only [← headerParts_lengths p, Fin.getElem_fin, List.getElem_map]
  rw [hlen, ← headerParts_lengths p, wavHeader_eq_flatten]
  exact slice_flatten (headerParts p) k k.isLt

/-! ### The numbers of a legal configuration fit their fields -/

theorem width_le_eight {W : Nat} (h : W ∈ Config.widths) : W ≤ 8 := by
  rw [mem_widths] at h; omega

/-- The block align of a legal configuration is at most 64. -/
theorem channels_mul_width_le {C W : Nat} (hC : C ≤ 8) (hW : W ∈ Config.widths) : C * W ≤ 64 :=
  Nat.mul_le_mul hC (width_le_eight hW)

/-- The rate is bounded by the byte rate, since a legal frame has at least one byte. -/
theorem rate_le_byteRate (rate : Nat) {C W : Nat} (hC : 1 ≤ C) (hW : W ∈ Config.widths) :
    rate ≤ rate * C * W :=
  (Nat.le_mul_of_pos_right rate hC).trans (Nat.le_mul_of_pos_right _ (width_pos hW))

/-- Settles O15. Each row of R193 is a part of the header; the bounds of a legal configuration make every
number fit its field. -/
theorem headerFields : Obligations.HeaderFields := by
  unfold Obligations.HeaderFields
  intro p hW hC hC8 hbyteRate hriff
  have hrate := rate_le_byteRate p.rate hC hW
  have halign := channels_mul_width_le hC8 hW
  have hwidth := width_le_eight hW
  have part := wavHeader_slice p
  refine ⟨wavHeader_length p, part 0, ?riffSize, part 2, part 3, ?fmtLength, ?format, ?channels, ?rate,
    ?byteRate, ?blockAlign, ?bits, part 11, ?dataLength⟩
  case riffSize => exact field_of_slice_le (part 1) (by omega)
  case fmtLength => exact field_of_slice_le (part 4) (by omega)
  case format => exact field_of_slice_le (part 5) (by omega)
  case channels => exact field_of_slice_le (part 6) (by omega)
  case rate => exact field_of_slice_le (part 7) (by omega)
  case byteRate => exact field_of_slice_le (part 8) (by omega)
  case blockAlign => exact field_of_slice_le (part 9) (by omega)
  case bits => exact field_of_slice_le (part 10) (by omega)
  case dataLength => exact field_of_slice_le (part 12) (by omega)

end Sys2Proof.Machine

/-! PROOFS. The host's write of CMD (45_control.md R251, R253): an aligned write reaches the register it names,
and a busy block drops the command. -/

namespace Sys2Proof.Machine

/-- The step of an aligned host write is the write, with the access taken off the inputs (10_state.md R24). -/
theorem step_hostWrite {s : State} {off : BitVec 12} {w : Word} {es : List Event}
    (hin : s.inputs = .host (hostWrite off w) :: es) (halign : off.toNat % 8 = 0) :
    step s = csrWrite off w { s with inputs := es } := by
  simp [step, hin, hostWrite, hostAccess, halign]

theorem csrWrite_cmd (w : Word) (s : State) :
    csrWrite cmdOffset w s = .next (writeCmd w { s with resp := .written }) := by
  rw [csrWrite, if_pos rfl]

theorem writeCmd_of_busy (w : Word) {s : State} (hbusy : s.busy = true) : writeCmd w s = s.dropWrite :=
  if_pos hbusy

/-- Settles O9. The write reaches CMD, and a running command makes the block busy, so that all the write does is
what `dropWrite` does. -/
theorem busyCommandDropped : Obligations.BusyCommandDropped := by
  unfold Obligations.BusyCommandDropped
  intro s v w es hphase hin
  have hbusy : s.busy = true := (busy_iff s).mpr ⟨v, hphase⟩
  calc step s
      = csrWrite cmdOffset w { s with inputs := es } := step_hostWrite hin (by decide)
    _ = .next (writeCmd w { s with inputs := es, resp := .written }) := csrWrite_cmd w _
    _ = .next ({ s with inputs := es, resp := .written } : State).dropWrite :=
      congrArg _ (writeCmd_of_busy w hbusy)

end Sys2Proof.Machine

/-! PROOFS. The IRQ line (60_exceptions.md R280): STATUS shows each event flag at its place, and IRQ_EN reads
back as it is stored, so that the words the host reads determine the line. -/

namespace Sys2Proof.Machine

theorem statusWord_done (s : State) : (statusWord s).getLsbD 1 = s.status.done := statusWord_bit s 1

theorem statusWord_err (s : State) : (statusWord s).getLsbD 2 = s.status.err := statusWord_bit s 2

theorem statusWord_ovr (s : State) : (statusWord s).getLsbD 3 = s.status.ovr := statusWord_bit s 3

/-- Settles O50. With each bit the host reads replaced by the flag or the enable it shows, the two sides are the
expression of R280. -/
theorem interruptLine : Obligations.InterruptLine := by
  unfold Obligations.InterruptLine
  intro s
  rw [statusWord_done, statusWord_err, statusWord_ovr, irqEn_bit, irqEn_bit, irqEn_bit, State.irq]

end Sys2Proof.Machine

/-! PROOFS. The commands on the reset state (70_reset_and_hazards.md R304): the host's write of CMD and the
engine's turn run the command in the state its acceptance gives, whose operands stand at reset. -/

namespace Sys2Proof.Machine

/-! ### A command written to an idle block and run (45_control.md R251, R252) -/

theorem writeCmd_of_idle (w : Word) {s : State} (hidle : s.phase = .idle) : writeCmd w s = accept w s := by
  rw [writeCmd, (not_busy_iff s).mpr hidle, if_neg Bool.false_ne_true]

theorem step_hostWrite_cmd {s : State} {w : Word} {es : List Event} (hidle : s.phase = .idle)
    (hin : s.inputs = .host (hostWrite cmdOffset w) :: es) :
    step s = .next (accept w { s with inputs := es, resp := .written }) :=
  calc step s
    _ = csrWrite cmdOffset w { s with inputs := es } := step_hostWrite hin (by decide)
    _ = .next (writeCmd w { s with inputs := es, resp := .written }) := csrWrite_cmd w _
    _ = .next (accept w { s with inputs := es, resp := .written }) := congrArg _ (writeCmd_of_idle w hidle)

theorem core_run_succ (k : Nat) {s t : State} (h : step s = .next t) :
    Host.Core.run Sys2Proof.core (k + 1) s = Host.Core.run Sys2Proof.core k t := by
  have hstep : Sys2Proof.core.step s = .next t := h
  simp only [Host.Core.run, hstep]

/-- The engine's turn runs the accepted command. -/
theorem step_engine_of_running {s : State} {w : Word} {i : Instr} {es : List Event}
    (hin : s.inputs = .engine :: es) (hrun : s.phase = .running w) (hdec : decodeCmd w = .ok i) :
    step s = exec i { s with inputs := es } := by
  simp only [step, hin, engineTurn, hrun, hdec]

/-- Acceptance does not look at the accesses still to come. -/
theorem accept_withInputs (w : Word) (s : State) (es : List Event) :
    ({ accept w s with inputs := es } : State) = accept w { s with inputs := es } := by
  unfold accept clearResults
  split <;> rfl

theorem accept_ch (w : Word) (s : State) (c : Nat) : (accept w s).ch c = s.ch c := by
  rw [State.ch, accept_chan, State.ch]

/-- What the engine finds when a command written to the block at reset gets its turn. -/
def acceptedAtReset (w : Word) : State := accept w { State.reset with resp := .written }

theorem acceptedAtReset_cfg (w : Word) : (acceptedAtReset w).cfg = ConfigRegs.reset := accept_cfg w _

theorem acceptedAtReset_ch (w : Word) (c : Nat) : (acceptedAtReset w).ch c = Channel.reset :=
  (accept_ch w _ c).trans (reset_ch c)

theorem acceptedAtReset_ovr (w : Word) : (acceptedAtReset w).status.ovr = false := rfl

theorem run_command_at_reset {w : Word} {i : Instr} {t : State} (hdec : decodeCmd w = .ok i)
    (hexec : exec i (acceptedAtReset w) = .next t) :
    Host.Core.run Sys2Proof.core 2
      ({ State.reset with inputs := [.host (hostWrite cmdOffset w), .engine] } : State) = .next t := by
  have haccept : step { State.reset with inputs := [.host (hostWrite cmdOffset w), .engine] } =
      .next (accept w { State.reset with inputs := [.engine], resp := .written }) := step_hostWrite_cmd rfl rfl
  have hturn : step (accept w { State.reset with inputs := [.engine], resp := .written }) = .next t := by
    rw [step_engine_of_running (accept_inputs w _) (accept_phase w _) hdec, accept_withInputs]
    exact hexec
  exact (core_run_succ 1 haccept).trans (core_run_succ 0 hturn)

/-! ### What each command finds at reset (R304) -/

/-- The width is the first thing ENCODE checks (43_encode.md R187). -/
theorem checkEncode_of_bad_width {s : State} (h : s.cfg.encWidth.toNat ∉ Config.widths) :
    checkEncode s = some ⟨.unsupportedSampleWidth, Reg.encWidth.offWord, s.cfg.encWidth⟩ :=
  if_pos h

/-- Empty regions pass every region check, wherever they stand (44_decode.md R216). -/
theorem checkDecode_of_empty {s : State} (hin : s.cfg.inLen = 0) (hscr : s.cfg.scrLen = 0) :
    checkDecode s = none := by
  have hfits {r : Region} (hbase : r.base < 2 ^ 64) (hlen : r.len = 0) : r.fits = true :=
    (Region.fits_iff r).mpr (by rw [hlen]; exact hbase.le)
  have hinLen : (inRegion s).len = 0 := congrArg BitVec.toNat hin
  have hscrLen : (scrRegion s).len = 0 := congrArg BitVec.toNat hscr
  have hinFits : (inRegion s).fits = true := hfits s.cfg.inBase.isLt hinLen
  have hscrFits : (scrRegion s).fits = true := hfits s.cfg.scrBase.isLt hscrLen
  have hapart : (inRegion s).overlaps (scrRegion s) = false := by simp [Region.overlaps, hinLen]
  simp only [checkDecode, hinFits, hscrFits, hapart, Bool.not_true, Bool.false_eq_true, if_false]

/-- A stream too short for the RIFF header is refused before any byte is read (44_decode.md R218). -/
theorem parseStream_of_short {s : State} (h : inLen s < 12) :
    parseStream s = .error (streamError .malformedHeader 0 (inLen s)) := by
  have hriff : readRiff s = .error (streamError .malformedHeader 0 (inLen s)) := if_pos h
  simp only [parseStream, hriff]

/-- A NONE channel passes its check, reads no buffer and has level 0 (41_generators.md R149, R150). -/
theorem genEvalRun_of_none_source {s : State} {ch : BitVec 8} {w : BitVec 4} (hch : ch.toNat < Config.nCh)
    (hw : w.toNat ∈ Config.widths) (hnone : kindOf (s.ch ch.toNat).src = some .none) :
    genEvalRun ch w s = complete none (s.setEval ⟨u64 0, BitVec.ofNat 64 (uLE (quantise 0 w.toNat))⟩) := by
  have hcheck : checkChannel ch.toNat (s.ch ch.toNat) = none := by simp only [checkChannel, hnone]
  have hmark : s.markRegions (evalTouched s ch.toNat) = s := by
    simp [evalTouched, Channel.readsAt, hnone, State.markRegions]
  have hlevel (t : Int) : chanLevel s ch.toNat t = .ok 0 := by simp only [chanLevel, srcLevel, hnone]
  simp only [genEvalRun, hch.not_ge, hw, not_true_eq_false, if_false, hcheck, hmark, hlevel]

theorem statusWord_complete_none {s : State} (hovr : s.status.ovr = false) :
    statusWord (complete none s) = 0x2 := by
  simp only [statusWord, complete_status, complete_busy, hovr]
  decide

/-- Settles O44. Each command runs in `acceptedAtReset`, where the width and the lengths are 0 and every channel
is NONE. -/
theorem commandsOnReset : Obligations.CommandsOnReset := by
  unfold Obligations.CommandsOnReset
  refine ⟨⟨_, run_command_at_reset (i := .encode) (by decide) rfl, ?encode⟩,
    ⟨_, run_command_at_reset (i := .decode) (by decide) rfl, ?decode⟩,
    ⟨_, run_command_at_reset (i := .genEval 0 1) (by decide) rfl, ?genEval⟩,
    ⟨_, run_command_at_reset (i := .nop) (by decide) rfl, ?nop⟩⟩
  case encode =>
    have hcfg := acceptedAtReset_cfg 1
    have hwidth : (acceptedAtReset 1).cfg.encWidth.toNat ∉ Config.widths := by rw [hcfg]; decide
    rw [encodeRun_of_error (checkEncode_of_bad_width hwidth), complete_error, hcfg]
    rfl
  case decode =>
    have hcfg := acceptedAtReset_cfg 2
    have hin : (acceptedAtReset 2).cfg.inLen = 0 := by rw [hcfg]; rfl
    have hscr : (acceptedAtReset 2).cfg.scrLen = 0 := by rw [hcfg]; rfl
    have hlen : inLen (acceptedAtReset 2) = 0 := congrArg BitVec.toNat hin
    have hparse := parseStream_of_short (s := acceptedAtReset 2) (by omega)
    rw [decodeRun_of_parse_error (checkDecode_of_empty hin hscr) hparse, complete_error, hlen]
    rfl
  case genEval =>
    have hnone : kindOf ((acceptedAtReset 0x10003).ch 0).src = some .none := by
      rw [acceptedAtReset_ch]; rfl
    rw [genEvalRun_of_none_source (by decide) (by decide) hnone]
    exact ⟨rfl, by rw [complete_eval, setEval_eval]; decide⟩
  case nop => exact statusWord_complete_none (acceptedAtReset_ovr 0)

end Sys2Proof.Machine

/-! PROOFS. The decoder and the encoder (30_encoding.md R97 to R102, 10_state.md R24, R30): the carrier gives the
format, and in each format a word is its fields side by side. -/

namespace Sys2Proof

/-! ### The carriers -/

theorem carrierAt_sourceOffset {c : Nat} (hc : c < Config.nCh) :
    carrierAt (sourceOffset c) = some (.source c) := by
  have h8 : c < 8 := hc
  interval_cases c <;> decide

/-- A word written to CH_SRC(c) is read as a source kind (30_encoding.md R101). -/
theorem decode_sourceOffset {c : Nat} (hc : c < Config.nCh) (w : Word) :
    decode (sourceOffset c) w = decodeSource c w := by
  simp only [decode, carrierAt_sourceOffset hc, decodeIn]

/-- A word written to CTRL is read by its bit 0 (10_state.md R30). -/
theorem decode_ctrlOffset (w : Word) : decode ctrlOffset w = decodeCtrl w := by
  have hctrl : carrierAt ctrlOffset = some .ctrl := by decide
  simp only [decode, hctrl, decodeIn]

/-- The offset of a source's carrier is that of CH_SRC(c). -/
theorem eq_sourceOffset_of_carrierAt {off : BitVec 12} {c : Nat} (h : carrierAt off = some (.source c)) :
    c < Config.nCh ∧ off = sourceOffset c := by
  obtain ⟨-, hc, hreg⟩ := Machine.carrierAt_spec h
  exact ⟨hc, Machine.regAt_inj hreg (Machine.carrierAt_spec (carrierAt_sourceOffset hc)).2.2⟩

/-! ### The bytes of a word (10_state.md R24) -/

theorem decodeBytes_le (off : BitVec 12) (w : Word) : decodeBytes off (Machine.le 8 w.toNat) = decode off w := by
  have hword : BitVec.ofNat 64 (Machine.uLE (Machine.le 8 w.toNat)) = w := by
    rw [Machine.uLE_le_of_lt w.isLt, BitVec.ofNat_toNat, BitVec.setWidth_eq]
  rw [decodeBytes, if_pos (Machine.le_length 8 _), hword]

/-! ### Decoding after encoding -/

theorem decode_encode {i : Instr} (hwf : i.wf = true) :
    decode (Sys2Proof.encode i).1 (Sys2Proof.encode i).2 = .ok i := by
  cases i with
  | nop | encode | decode => exact (decode_cmdOffset _).trans (by decide)
  | genEval ch w => exact (decode_cmdOffset _).trans (decodeCmd_genEvalWord ch w)
  | srcNone c | srcSine c | srcPulse c | srcSquare c | srcRampUp c | srcRampDown c | srcBuffer c =>
    exact (decode_sourceOffset (of_decide_eq_true hwf) _).trans rfl
  | srst => exact (decode_ctrlOffset 1).trans (by decide)

/-- Settles O1. Each carrier reads back the word of its format, and the bytes of a word are the word. -/
theorem decodeEncodeAgree : Obligations.DecodeEncodeAgree := by
  unfold Obligations.DecodeEncodeAgree
  intro i hwf
  exact ⟨decode_encode hwf, (decodeBytes_le _ _).trans (decode_encode hwf)⟩

/-! ### Encoding after decoding -/

/-- A command word is its four fields side by side (30_encoding.md R97). -/
theorem cmdWord_eq_fields (w : Word) : w = cmdRes w ++ cmdW w ++ cmdCh w ++ cmdOp w := by
  apply BitVec.eq_of_getLsbD_eq
  intro k hk
  simp only [cmdRes, cmdW, cmdCh, cmdOp, BitVec.getLsbD_append, BitVec.getLsbD_extractLsb']
  split_ifs <;> grind

/-- The word of a command is the one it is decoded from (30_encoding.md R99). -/
theorem encode_of_decodeCmd {w : Word} {i : Instr} (h : decodeCmd w = .ok i) :
    i.wf = true ∧ Sys2Proof.encode i = (cmdOffset, w) := by
  have hw := cmdWord_eq_fields w
  unfold decodeCmd at h
  split_ifs at h with hres hnop henc hdec hgen
  all_goals
    cases h
    rw [not_not] at hres
    refine ⟨rfl, Prod.ext rfl ?_⟩
  case pos => obtain ⟨hop, hch, hwd⟩ := hnop; rw [hw, hres, hop, hch, hwd]; rfl
  case pos => obtain ⟨hop, hch, hwd⟩ := henc; rw [hw, hres, hop, hch, hwd]; rfl
  case pos => obtain ⟨hop, hch, hwd⟩ := hdec; rw [hw, hres, hop, hch, hwd]; rfl
  case pos =>
    show genEvalWord (cmdCh w) (cmdW w) = w
    rw [genEvalWord, ← hgen, ← hres]
    exact hw.symm

/-- The word of a source kind is the one it is decoded from (30_encoding.md R101). -/
theorem encode_of_decodeSource {c : Nat} {w : Word} {i : Instr} (hc : c < Config.nCh)
    (h : decodeSource c w = .ok i) : i.wf = true ∧ Sys2Proof.encode i = (sourceOffset c, w) := by
  unfold decodeSource at h
  split_ifs at h <;> cases h <;> subst_vars <;> exact ⟨decide_eq_true hc, rfl⟩

/-- Settles O2, by the carrier at the offset. -/
theorem encodeDecodeAgree : Obligations.EncodeDecodeAgree := by
  unfold Obligations.EncodeDecodeAgree
  intro off w i h
  unfold decode at h
  split at h
  case h_2 => cases h
  case h_1 r hr =>
    cases r with
    | cmd =>
      obtain ⟨hwf, henc⟩ := encode_of_decodeCmd h
      have hoff : off = cmdOffset := (Machine.carrierAt_spec hr).2
      exact ⟨hwf, by rw [henc, hoff], .inl (by rw [henc])⟩
    | source c =>
      obtain ⟨hc, hoff⟩ := eq_sourceOffset_of_carrierAt hr
      obtain ⟨hwf, henc⟩ := encode_of_decodeSource hc h
      exact ⟨hwf, by rw [henc, hoff], .inl (by rw [henc])⟩
    | ctrl =>
      have hoff : off = ctrlOffset := (Machine.carrierAt_spec hr).2
      simp only [decodeIn, decodeCtrl] at h
      split_ifs at h with hbit
      cases h
      exact ⟨rfl, hoff.symm, .inr ⟨rfl, hbit⟩⟩

/-! ### Illegal command words -/

/-- Settles O3. `decodeCmd_illegal` is one direction; a word with none of the three causes has one of the four
opcodes, and no operand where the opcode takes none. -/
theorem illegalCommandWords : Obligations.IllegalCommandWords := by
  unfold Obligations.IllegalCommandWords
  intro w
  refine ⟨fun ⟨e, herr⟩ => ?_, fun h => ⟨_, decodeCmd_illegal h⟩⟩
  by_contra hlegal
  obtain ⟨hres, hop, hoperand⟩ : cmdRes w = 0 ∧ (cmdOp w).toNat < 4 ∧
      ((cmdOp w).toNat ≤ 2 → cmdCh w = 0 ∧ cmdW w = 0) := by
    simpa only [not_or, not_and, not_not, not_le, ne_eq] using hlegal
  have hopcodes : cmdOp w = 0 ∨ cmdOp w = 1 ∨ cmdOp w = 2 ∨ cmdOp w = 3 := by
    simp only [← BitVec.toNat_inj]
    show (cmdOp w).toNat = 0 ∨ (cmdOp w).toNat = 1 ∨ (cmdOp w).toNat = 2 ∨ (cmdOp w).toNat = 3
    omega
  rcases hopcodes with h0 | h1 | h2 | h3
  · simp [decodeCmd, hres, h0, hoperand (by simp [h0])] at herr
  · simp [decodeCmd, hres, h1, hoperand (by simp [h1])] at herr
  · simp [decodeCmd, hres, h2, hoperand (by simp [h2])] at herr
  · simp [decodeCmd, hres, h3] at herr

/-- Settles O5. Each word is decoded as its register's format has it. -/
theorem workedSourceAndResetWords : Obligations.WorkedSourceAndResetWords := by
  unfold Obligations.WorkedSourceAndResetWords
  have hsource (c : Nat) (hc : c < Config.nCh) (w : Word) : decode (sourceOffset c) w = decodeSource c w :=
    decode_sourceOffset hc w
  have hctrl (w : Word) : decode 0x018 w = decodeCtrl w := decode_ctrlOffset w
  refine ⟨hsource 0 (by decide) 0, hsource 1 (by decide) 1, hsource 2 (by decide) 2, hsource 3 (by decide) 3,
    hsource 4 (by decide) 4, hsource 5 (by decide) 5, hsource 7 (by decide) 6, hsource 0 (by decide) 7, ?_⟩
  simp only [hctrl]
  exact ⟨(hsource 0 (by decide) _).trans (by decide), by decide, by decide, by decide⟩

end Sys2Proof

/-! PROOFS. What every step keeps and how the phase moves (10_state.md R56, R60, 60_exceptions.md R275 to R279): the
turns of the machine are an access, a completion, or the one after the other. -/

namespace Sys2Proof.Machine

/-! ### The invariant across the accesses -/

/-- The invariant looks at memory, the draws, the record, the status and the phase. -/
theorem State.Inv.of_eq {s t : State} (hs : s.Inv) (hmem : t.mem = s.mem) (hvoids : t.voids = s.voids)
    (hdraws : s.draws ≤ t.draws) (herror : t.error = s.error) (hphase : t.phase = s.phase)
    (hdone : t.status.done = true → s.status.done = true) (herr : t.status.err = true → s.status.err = true) :
    t.Inv := by
  obtain ⟨hwf, hfresh, hcode, hnone, herrc, hrun⟩ := hs
  have hbusy : t.busy = s.busy := by simp only [State.busy, hphase]
  refine ⟨hmem ▸ hwf, fun v hv => (hfresh v (hvoids ▸ hv)).trans_le hdraws, herror ▸ hcode, herror ▸ hnone,
    fun h => herror ▸ herrc (herr h), fun h => ?_⟩
  obtain ⟨hd, he, hr⟩ := hrun (hbusy ▸ h)
  exact ⟨Bool.eq_false_iff.mpr fun h => Bool.eq_false_iff.mp hd (hdone h),
    Bool.eq_false_iff.mpr fun h => Bool.eq_false_iff.mp he (herr h), herror.trans hr⟩

/-- The registers at reset meet what the invariant asks of them; memory and the draws are the rest. -/
theorem inv_of_reset {s : State} (hphase : s.phase = .idle) (hstatus : s.status = StatusBits.reset)
    (herror : s.error = ErrorRecord.none) (hwf : Memory.wf s.mem = true)
    (hfresh : ∀ v ∈ s.voids, v.draw < s.draws) : s.Inv := by
  have hbusy : s.busy = false := (not_busy_iff s).mpr hphase
  refine ⟨hwf, hfresh, by rw [herror]; decide, fun _ => herror, fun h => ?_, fun h => ?_⟩
  · rw [hstatus] at h; cases h
  · rw [hbusy] at h; cases h

/-- Settles O54. Nothing is listed, nothing is drawn, and the record and the status are clear. -/
theorem resetHasInvariant : Obligations.ResetHasInvariant :=
  inv_of_reset rfl rfl rfl rfl (fun _ h => by cases h)

theorem inv_accept {s : State} (hs : s.Inv) (w : Word) : (accept w s).Inv := by
  obtain ⟨hwf, hfresh, -⟩ := hs
  refine ⟨by rwa [accept_mem], by rwa [accept_voids, accept_draws], by rw [accept_error]; decide,
    fun _ => accept_error w s, fun h => ?_, fun _ => ⟨rfl, rfl, accept_error w s⟩⟩
  rw [accept_status] at h; cases h

theorem inv_writeCmd {s : State} (hs : s.Inv) (w : Word) : (writeCmd w s).Inv := by
  cases hbusy : s.busy with
  | true =>
    rw [writeCmd_of_busy w hbusy]
    exact hs.of_eq rfl rfl le_rfl rfl rfl id id
  | false =>
    rw [writeCmd_of_idle w ((not_busy_iff s).mp hbusy)]
    exact inv_accept hs w

theorem inv_resetBlock_abandonDest {s : State} (hs : s.Inv) : (resetBlock s.abandonDest).Inv := by
  obtain ⟨m, v, d, heq, hmem, hdraws⟩ := abandonDest_spec s
  obtain ⟨hwf, hfresh, -⟩ := hs
  rw [heq]
  exact inv_of_reset rfl rfl rfl (hmem hwf) (hdraws hfresh)

theorem inv_hardReset {s : State} (hs : s.Inv) : (hardReset s).Inv := by
  obtain ⟨hwf, hfresh, -⟩ := hs
  refine inv_of_reset rfl rfl rfl (wf_filter _ hwf) (fun v hv => ?_)
  rcases List.mem_cons.mp hv with rfl | hv
  · exact Nat.lt_succ_self s.draws
  · exact (hfresh v hv).trans (Nat.lt_succ_self s.draws)

theorem inv_csrWrite {s t : State} {off : BitVec 12} {w : Word} (hs : s.Inv) (h : csrWrite off w s = .next t) :
    t.Inv := by
  have hs0 : ({ s with resp := .written } : State).Inv := hs
  rcases csrWrite_cases off w s with ⟨-, heq⟩ | ⟨-, -, heq⟩ | ⟨st, ie, cf, cs, heq, hdone, herr⟩ <;>
    rw [heq] at h <;> cases h
  · exact inv_writeCmd hs0 w
  · exact inv_resetBlock_abandonDest hs0
  · exact hs.of_eq rfl rfl le_rfl rfl rfl hdone herr

/-- Bytes written from outside keep memory canonical where they stay in the space. -/
theorem inv_outsideWrite {s : State} {a : Nat} {bs : List Byte} (hs : s.Inv) (rs : List Region)
    (hfit : a + bs.length ≤ Config.addrSpace) : (outsideWrite rs a bs s).Inv := by
  obtain ⟨m, hm⟩ := writeBytes_frame s a bs
  have hwf : Memory.wf m = true := by
    have := wf_writeBytes s a bs hs.1 hfit
    rwa [hm] at this
  obtain ⟨-, hrest⟩ := hs
  simp only [outsideWrite, hm]
  exact ⟨hwf, hrest⟩

theorem inv_hostAccess {s t : State} {a : Access} (hs : s.Inv) (h : hostAccess a s = .next t) : t.Inv := by
  cases a with
  | csr dir size off data =>
    simp only [hostAccess] at h
    split at h
    · cases h; exact hs
    · cases dir with
      | read =>
        obtain ⟨r, d, hd, heq⟩ := csrRead_spec off s
        cases h
        rw [heq]
        exact hs.of_eq rfl rfl hd rfl rfl id id
      | write => exact inv_csrWrite hs h
  | memWrite a bs =>
    simp only [hostAccess] at h
    split at h <;> cases h
    exact inv_outsideWrite hs s.guarded ‹_›
  | masterWrite a bs =>
    simp only [hostAccess] at h
    split at h <;> cases h
    exact inv_outsideWrite hs _ ‹_›
  | memRead a n =>
    simp only [hostAccess] at h
    split at h <;> cases h
    exact hs.of_eq rfl rfl (Nat.le_succ _) rfl rfl id id
  | hardReset => cases h; exact inv_hardReset hs
  | platformChange p => cases h; exact hs

theorem inv_engineTurn {s t : State} (hs : s.Inv) (h : engineTurn s = .next t) : t.Inv := by
  cases hphase : s.phase with
  | idle => simp only [engineTurn, hphase] at h; cases h; exact hs
  | running w =>
    obtain ⟨t', e, heq, hran⟩ := engineTurn_ran hphase
    rw [heq] at h; cases h
    exact hran.inv hs

/-! ### The turns -/

/-- Everything one step can be: an access, an engine turn, or an access with the completion after it. -/
theorem step_cases {s t : State} (h : step s = .next t) :
    (∃ es, (s.inputs = .engine :: es ∨ (s.inputs = [] ∧ es = [])) ∧ engineTurn { s with inputs := es } = .next t) ∨
    (∃ a es, (s.inputs = .host a :: es ∨ s.inputs = .both a :: es) ∧
      hostAccess a { s with inputs := es } = .next t) ∨
    ∃ a es u, s.inputs = .both a :: es ∧ hostAccess a { s with inputs := es } = .next u ∧ s.busy = true ∧
      u.busy = true ∧ engineTurn u = .next t := by
  unfold step at h
  split at h
  case h_1 hin => exact .inl ⟨[], .inr ⟨hin, rfl⟩, by rwa [← hin]⟩
  case h_2 a es hin => exact .inr (.inl ⟨a, es, .inl hin, h⟩)
  case h_3 es hin => exact .inl ⟨es, .inl hin, h⟩
  case h_4 a es hin =>
    unfold bothTurn at h
    split at h
    case h_1 u hu =>
      split at h
      case isTrue hbusy =>
        obtain ⟨hs, hubusy⟩ := Bool.and_eq_true_iff.mp hbusy
        exact .inr (.inr ⟨a, es, u, hin, hu, hs, hubusy, h⟩)
      case isFalse => cases h; exact .inr (.inl ⟨a, es, .inr hin, hu⟩)
    case h_2 => cases h
    case h_3 => cases h

/-- Settles O53, turn by turn: accesses and completions keep the invariant. -/
theorem stepKeepsInvariant : Obligations.StepKeepsInvariant := by
  unfold Obligations.StepKeepsInvariant
  intro s t hs h
  have hs' (es : List Event) : ({ s with inputs := es } : State).Inv := hs
  rcases step_cases h with ⟨es, -, hturn⟩ | ⟨a, es, -, haccess⟩ | ⟨a, es, u, -, haccess, -, -, hturn⟩
  · exact inv_engineTurn (hs' es) hturn
  · exact inv_hostAccess (hs' es) haccess
  · exact inv_engineTurn (inv_hostAccess (hs' es) haccess) hturn

/-! ### The phase (R56) -/

theorem writeCmd_phase (w : Word) (s : State) :
    (writeCmd w s).phase = s.phase ∨ (s.phase = .idle ∧ (writeCmd w s).phase = .running w) := by
  cases hbusy : s.busy with
  | true => rw [writeCmd_of_busy w hbusy]; exact .inl rfl
  | false =>
    have hidle := (not_busy_iff s).mp hbusy
    rw [writeCmd_of_idle w hidle]; exact .inr ⟨hidle, rfl⟩

/-- What an access can do to the phase: a CMD write starts a command on an idle block, a reset ends one, and no
other access touches it. -/
theorem hostAccess_phase {s t : State} {a : Access} (h : hostAccess a s = .next t) :
    t.phase = s.phase ∨ (∃ w, a = hostWrite 0x030 w ∧ s.phase = .idle ∧ t.phase = .running w) ∨
      (t.phase = .idle ∧ (a = .hardReset ∨ ∃ w, a = hostWrite 0x018 w ∧ w.getLsbD 0 = true)) := by
  have hwrite (rs : List Region) (a : Nat) (bs : List Byte) : (outsideWrite rs a bs s).phase = s.phase := by
    obtain ⟨m, hm⟩ := writeBytes_frame s a bs
    simp only [outsideWrite, hm]
  cases a with
  | csr dir size off data =>
    simp only [hostAccess] at h
    split at h
    case isTrue => cases h; exact .inl rfl
    case isFalse hsize =>
      obtain ⟨rfl, -⟩ : size = 8 ∧ off.toNat % 8 = 0 := by omega
      cases dir with
      | read =>
        obtain ⟨r, d, -, heq⟩ := csrRead_spec off s
        cases h; rw [heq]; exact .inl rfl
      | write =>
        rcases csrWrite_cases off data s with ⟨rfl, heq⟩ | ⟨rfl, hbit, heq⟩ | ⟨st, ie, cf, cs, heq, -, -⟩ <;>
          simp only [heq] at h <;> cases h
        · rcases writeCmd_phase data { s with resp := .written } with hsame | ⟨hidle, hrun⟩
          · exact .inl hsame
          · exact .inr (.inl ⟨data, rfl, hidle, hrun⟩)
        · exact .inr (.inr ⟨rfl, .inr ⟨data, rfl, hbit⟩⟩)
        · exact .inl rfl
  | memWrite a bs =>
    simp only [hostAccess] at h
    split at h <;> cases h
    exact .inl (hwrite s.guarded _ _)
  | masterWrite a bs =>
    simp only [hostAccess] at h
    split at h <;> cases h
    exact .inl (hwrite _ _ _)
  | memRead a n =>
    simp only [hostAccess] at h
    split at h <;> cases h
    exact .inl rfl
  | hardReset => cases h; exact .inr (.inr ⟨rfl, .inl rfl⟩)
  | platformChange p => cases h; exact .inl rfl

/-- An engine turn leaves an idle block alone and completes a running command. -/
theorem engineTurn_phase {s t : State} (h : engineTurn s = .next t) :
    t.phase = .idle ∧ (∀ w, s.phase = .running w → t.status.done = true) := by
  cases hphase : s.phase with
  | idle => simp only [engineTurn, hphase] at h; cases h; exact ⟨hphase, fun w hw => by cases hw⟩
  | running w =>
    obtain ⟨t', e, heq, hran⟩ := engineTurn_ran hphase
    rw [heq] at h; cases h
    exact ⟨hran.phase, fun _ _ => by rw [hran.status]⟩

/-- Settles O55, turn by turn. -/
theorem phaseChanges : Obligations.PhaseChanges := by
  unfold Obligations.PhaseChanges
  intro s t h
  rcases step_cases h with ⟨es, -, hturn⟩ | ⟨a, es, hin, haccess⟩ | ⟨a, es, u, hin, haccess, hbusy, hubusy, hturn⟩
  case inl =>
    obtain ⟨hidle, hdone⟩ := engineTurn_phase hturn
    refine ⟨fun w _ hw => ?_, fun v hv => .inr ⟨hidle, .inl (hdone v hv)⟩⟩
    rw [hidle] at hw; cases hw
  case inr.inl =>
    rcases hostAccess_phase haccess with hsame | ⟨w, rfl, hidle, hrun⟩ | ⟨hidle, hreset⟩
    · have hsame : t.phase = s.phase := hsame
      refine ⟨fun w hs ht => ?_, fun v hv => .inl (hsame.trans hv)⟩
      rw [hsame, hs] at ht; cases ht
    · have hidle : s.phase = .idle := hidle
      refine ⟨fun w' _ hw' => ?_, fun v hv => ?_⟩
      · rw [hrun] at hw'; cases hw'; exact ⟨es, hin⟩
      · rw [hidle] at hv; cases hv
    · refine ⟨fun w _ hw => ?_, fun v _ => .inr ⟨hidle, .inr ⟨a, es, hin, hreset⟩⟩⟩
      rw [hidle] at hw; cases hw
  case inr.inr =>
    obtain ⟨hidle, hdone⟩ := engineTurn_phase hturn
    obtain ⟨w, hw⟩ := (busy_iff u).mp hubusy
    refine ⟨fun w hs _ => ?_, fun v _ => .inr ⟨hidle, .inl (hdone w hw)⟩⟩
    rw [(not_busy_iff s).mpr hs] at hbusy; cases hbusy

/-! ### Completion (60_exceptions.md R275 to R279) -/

/-- With no input left it is the engine's turn (log entry 17). -/
theorem step_of_no_inputs {s : State} (h : s.inputs = []) : step s = engineTurn s := by
  simp only [step, h]

theorem step_of_engine {s : State} {es : List Event} (h : s.inputs = .engine :: es) :
    step s = engineTurn { s with inputs := es } := by
  simp only [step, h]

/-- Settles O56. Either way the step is the engine's turn, which is a completion. -/
theorem everyCommandCompletes : Obligations.EveryCommandCompletes := by
  unfold Obligations.EveryCommandCompletes
  intro s w hphase
  have hrun (es : List Event) : ∃ t, engineTurn { s with inputs := es } = .next t ∧ t.phase = .idle ∧
      t.status.done = true ∧ (t.status.err = true ↔ t.error.code ≠ 0) ∧ t.status.ovr = s.status.ovr ∧
      keepsSetup { s with inputs := es } t ∧ (s.hazard = true → t.hazard = true) := by
    obtain ⟨t, e, heq, hran⟩ := engineTurn_ran (s := { s with inputs := es }) hphase
    exact ⟨t, heq, hran.phase, by rw [hran.status], hran.err_iff, by rw [hran.status], hran.setup, hran.hazard⟩
  refine ⟨fun es hin => ?_, fun hin => ?_⟩
  · rw [step_of_engine hin]; exact hrun es
  · rw [step_of_no_inputs hin]
    have := hrun []
    rwa [← hin] at this ⊢

end Sys2Proof.Machine

/-! PROOFS. Instructions by the step (45_control.md R251 to R259, 30_encoding.md R101): the engine's turn runs the
accepted word, a CMD write starts it, and a write to CH_SRC(c) or CTRL runs the instruction it carries. -/

namespace Sys2Proof.Machine

/-! ### The engine's turn -/

theorem engineTurn_of_decode {s : State} {w : Word} {i : Instr} (hrun : s.phase = .running w)
    (hdec : decodeCmd w = .ok i) : engineTurn s = exec i s := by
  simp only [engineTurn, hrun, hdec]

theorem engineTurn_of_illegal {s : State} {w : Word} {e : DecodeError} (hrun : s.phase = .running w)
    (hdec : decodeCmd w = .error e) : engineTurn s = .next (illegalRun w s) := by
  simp only [engineTurn, hrun, hdec]

/-- Settles O6. Either way the step is the engine's turn. -/
theorem stepRunsAcceptedCommand : Obligations.StepRunsAcceptedCommand := by
  unfold Obligations.StepRunsAcceptedCommand
  intro s w i hrun hdec
  exact ⟨fun es hin => step_engine_of_running hin hrun hdec,
    fun hin => (step_of_no_inputs hin).trans (engineTurn_of_decode hrun hdec)⟩

/-- Settles O10. The engine's turn completes the word with ILLEGAL_COMMAND. -/
theorem illegalWordCompletes : Obligations.IllegalWordCompletes := by
  unfold Obligations.IllegalWordCompletes
  intro s w e hrun hdec
  exact ⟨fun es hin => (step_of_engine hin).trans (engineTurn_of_illegal (s := { s with inputs := es }) hrun hdec),
    fun hin => (step_of_no_inputs hin).trans (engineTurn_of_illegal hrun hdec)⟩

/-- Settles O11. NOP is its completion. -/
theorem nopCompletes : Obligations.NopCompletes := fun _ => rfl

/-! ### The host's instructions -/

theorem csrWrite_of_decode {off : BitVec 12} {w : Word} {i : Instr} (hoff : off ≠ cmdOffset)
    (hdec : decode off w = .ok i) (s : State) : csrWrite off w s = exec i { s with resp := .written } := by
  simp only [csrWrite, if_neg hoff, hdec]

/-- Instructions are carried by aligned registers only. -/
theorem aligned_of_decode {off : BitVec 12} {w : Word} {i : Instr} (hdec : decode off w = .ok i) :
    off.toNat % 8 = 0 := by
  unfold decode at hdec
  split at hdec
  case h_1 r hr => exact (carrierAt_spec hr).1
  case h_2 => cases hdec

/-- Settles O7. The write is aligned, and it is not CMD's, so that it runs what it decodes to. -/
theorem stepRunsHostInstruction : Obligations.StepRunsHostInstruction := by
  unfold Obligations.StepRunsHostInstruction
  intro s off w i es hin hdec hoff
  rw [step_hostWrite hin (aligned_of_decode hdec), csrWrite_of_decode hoff hdec]

/-! ### Acceptance (R251) -/

theorem clearResults_enc (w : Word) (s : State) :
    (clearResults w s).enc = if decodeCmd w = .ok .encode then EncResults.cleared else s.enc := by
  unfold clearResults
  split <;> simp_all [State.setEnc, State.setDec, State.setEval]

theorem clearResults_dec (w : Word) (s : State) :
    (clearResults w s).dec = if decodeCmd w = .ok .decode then DecResults.cleared else s.dec := by
  unfold clearResults
  split <;> simp_all [State.setEnc, State.setDec, State.setEval]

theorem clearResults_eval_of_genEval {w : Word} {ch : BitVec 8} {n : BitVec 4}
    (h : decodeCmd w = .ok (.genEval ch n)) (s : State) : (clearResults w s).eval = EvalResults.cleared := by
  simp only [clearResults, h, setEval_eval]

theorem clearResults_eval_of_not_genEval {w : Word} (h : ∀ ch n, decodeCmd w ≠ .ok (.genEval ch n))
    (s : State) : (clearResults w s).eval = s.eval := by
  unfold clearResults
  split
  case h_3 ch n hdec => exact absurd hdec (h ch n)
  all_goals rfl

/-- Settles O8. The step is `accept`, and each field of it is a rule about `accept` or `clearResults`. -/
theorem stepAcceptsCommand : Obligations.StepAcceptsCommand := by
  unfold Obligations.StepAcceptsCommand
  intro s w es hidle hin
  refine ⟨_, step_hostWrite_cmd hidle hin, accept_phase w _, accept_status w _, accept_error w _, ?_, ?_, ?_, ?_,
    ?_, ?_, accept_cfg w _, accept_chan w _, accept_irqEn w _, accept_hazard w _, accept_mem w _,
    accept_voids w _, accept_draws w _, accept_platform w _, accept_inputs w _, accept_resp w _⟩
  · exact fun h => (clearResults_enc w _).trans (if_pos h)
  · exact fun h => (clearResults_enc w _).trans (if_neg h)
  · exact fun h => (clearResults_dec w _).trans (if_pos h)
  · exact fun h => (clearResults_dec w _).trans (if_neg h)
  · exact fun ⟨_, _, h⟩ => clearResults_eval_of_genEval h _
  · exact fun h => clearResults_eval_of_not_genEval h _

/-! ### Source kinds (10_state.md R47, R53) -/

theorem selectSource_of_idle {s : State} {c : Nat} (hidle : s.phase = .idle) (hc : c < Config.nCh)
    (k : SourceKind) : selectSource c k s = s.setCh c .src k.code := by
  rw [selectSource, if_pos hc, writeConfig, (not_busy_iff s).mpr hidle]
  rfl

theorem selectSource_of_busy {s : State} {c : Nat} (hbusy : s.busy = true) (hc : c < Config.nCh)
    (k : SourceKind) : selectSource c k s = s.dropWrite := by
  rw [selectSource, if_pos hc, writeConfig, hbusy, if_pos rfl]

/-- What every source-kind instruction does on an idle block. -/
theorem selects_of_idle {s : State} {i : Instr} {c : Nat} {k : SourceKind} (hi : selectedSource i = some (c, k))
    (hidle : s.phase = .idle) (hc : c < 8) : selects i c k s := by
  have hch (d : Nat) : (s.setCh c .src k.code).ch d = if d = c then (s.ch c).set .src k.code else s.ch d :=
    ch_setCh s hc .src k.code d
  refine ⟨s.setCh c .src k.code, ?_, ?_, fun r hr => ?_, fun d hd => ?_, rfl⟩
  · rw [exec_source hi, selectSource_of_idle hidle hc]
  · rw [hch, if_pos rfl]; rfl
  · rw [hch, if_pos rfl, get_set, if_neg hr]
  · rw [hch, if_neg hd]

/-- Settles O40. The seven instructions are one write, `selects_of_idle`. -/
theorem sourceKindsSelect : Obligations.SourceKindsSelect := by
  unfold Obligations.SourceKindsSelect
  intro s c hidle hc
  exact ⟨selects_of_idle rfl hidle hc, selects_of_idle rfl hidle hc, selects_of_idle rfl hidle hc,
    selects_of_idle rfl hidle hc, selects_of_idle rfl hidle hc, selects_of_idle rfl hidle hc,
    selects_of_idle rfl hidle hc⟩

/-- Settles O41. A busy block drops the write, and beyond the file there is none. -/
theorem sourceKindsTurnedAway : Obligations.SourceKindsTurnedAway := by
  unfold Obligations.SourceKindsTurnedAway
  intro s i c k hi
  rw [exec_source hi]
  refine ⟨fun v hrun hc => ?_, fun hc => ?_⟩
  · rw [selectSource_of_busy ((busy_iff s).mpr ⟨v, hrun⟩) hc]; rfl
  · exact congrArg _ (if_neg (Nat.not_lt.mpr hc))

end Sys2Proof.Machine

/-! PROOFS. The resets (45_control.md R262, R263, 70_reset_and_hazards.md R301, R302). -/

namespace Sys2Proof.Machine

/-- After a reset of the block every register reads its reset value. -/
theorem regRead_resetBlock (s : State) (r : Reg) : regRead (resetBlock s) r = regRead State.reset r := by
  cases r <;> rfl

/-- An abort touches memory and the draws only. -/
theorem abandonDest_frame (s : State) :
    s.abandonDest.hazard = s.hazard ∧ s.abandonDest.platform = s.platform ∧
      s.abandonDest.inputs = s.inputs ∧ s.abandonDest.resp = s.resp := by
  obtain ⟨m, v, d, heq, -⟩ := abandonDest_spec s
  rw [heq]
  exact ⟨rfl, rfl, rfl, rfl⟩

/-- An abort frees the bytes of the destination and no others (R263). -/
theorem readByte_abandonDest (s : State) (x : Nat) : s.abandonDest.readByte x =
    if s.dest.any (fun r => r.has x) then Config.freeByte s.draws x else s.readByte x := by
  unfold State.abandonDest
  cases s.dest with
  | none => rfl
  | some r => exact readByte_forget s r x

/-- Settles O42. SRST is the abort and then the reset of the block. -/
theorem softResetRestoresBlock : Obligations.SoftResetRestoresBlock := by
  unfold Obligations.SoftResetRestoresBlock
  intro s
  obtain ⟨hhazard, hplatform, hinputs, hresp⟩ := abandonDest_frame s
  have hread (x : Nat) : (resetBlock s.abandonDest).readByte x =
      if s.dest.any (fun r => r.has x) then Config.freeByte s.draws x else s.readByte x :=
    readByte_abandonDest s x
  refine ⟨resetBlock s.abandonDest, rfl, rfl, regRead_resetBlock _, hhazard, hplatform, hinputs, hresp,
    fun x hx => ?_, fun r x hr hx => ?_⟩
  · rw [hread, if_neg]
    cases hd : s.dest with
    | none => exact Bool.false_ne_true
    | some r => rw [Option.any_some, hx r hd]; exact Bool.false_ne_true
  · rw [hread, if_pos (by rw [hr, Option.any_some, hx])]

/-! ### The registers at reset (R301) -/

/-- The inputs are no register. -/
theorem regRead_withInputs (s : State) (es : List Event) (r : Reg) :
    regRead { s with inputs := es } r = regRead s r := by
  cases r <;> rfl

/-- Every register but the three constants is 0 at reset. -/
theorem regRead_reset (r : Reg) : regRead State.reset r =
    if r.offset = 0x000 then 0x000000074D435053 else if r.offset = 0x008 then 0x0000015E40400C08
    else if r.offset = 0x010 then 0x000000003B9ACA00 else 0 := by
  cases r with
  | ch c q =>
    have hoff : 256 ≤ (Reg.ch c q).offset := by simp only [Reg.offset, Reg.slot]; omega
    rw [if_neg (by omega), if_neg (by omega), if_neg (by omega), regRead, reset_ch]
    cases q <;> rfl
  | _ => decide

/-- Offsets are compared as numbers. -/
theorem offset_eq_iff {off : BitVec 12} {r : Reg} (h : regAt off = some r) {k : Nat} (hk : k < 4096) :
    r.offset = k ↔ off = BitVec.ofNat 12 k := by
  rw [(regAt_spec h).1, ← BitVec.toNat_inj, BitVec.toNat_ofNat, Nat.mod_eq_of_lt hk]

theorem step_hostRead {s : State} {off : BitVec 12} {es : List Event}
    (hin : s.inputs = .host (hostRead off) :: es) (halign : off.toNat % 8 = 0) :
    step s = .next (csrRead off { s with inputs := es }) := by
  simp [step, hin, hostRead, hostAccess, halign]

theorem csrRead_of_none {off : BitVec 12} (h : regAt off = none) (s : State) :
    csrRead off s = { s with resp := .value 0 } := by
  simp only [csrRead, h]

/-- A read that is not of a running command's result shows the register. -/
theorem csrRead_of_some {off : BitVec 12} {r : Reg} {s : State} (h : regAt off = some r)
    (hopen : s.phase = .idle ∨ r.isResult = false) : csrRead off s = { s with resp := .value (regRead s r) } := by
  have hbusy : (s.busy && r.isResult) = false := by
    rcases hopen with hidle | hres
    · rw [(not_busy_iff s).mpr hidle, Bool.false_and]
    · rw [hres, Bool.and_false]
  simp only [csrRead, h, hbusy, Bool.false_eq_true, if_false]

/-- Settles O43. An idle block shows its registers, which `regRead_reset` gives; and the hard reset puts every
register there. -/
theorem hardResetRestoresBlock : Obligations.HardResetRestoresBlock := by
  unfold Obligations.HardResetRestoresBlock
  refine ⟨fun off es halign => ⟨_, step_hostRead rfl halign, ?_⟩, rfl, rfl, rfl, fun s es hin => ?_⟩
  · cases hreg : regAt off with
    | none =>
      have hne (k : BitVec 12) (hk : regAt k ≠ none) : off ≠ k := by rintro rfl; exact hk hreg
      rw [csrRead_of_none hreg, if_neg (hne _ (by decide)), if_neg (hne _ (by decide)),
        if_neg (hne _ (by decide))]
    | some r =>
      rw [csrRead_of_some hreg (.inl rfl)]
      simp only [regRead_withInputs, regRead_reset, offset_eq_iff hreg (k := 0x000) (by decide),
        offset_eq_iff hreg (k := 0x008) (by decide), offset_eq_iff hreg (k := 0x010) (by decide)]
      rfl
  · refine ⟨hardReset { s with inputs := es }, by simp only [step, hin, hostAccess], rfl, fun r => ?_, rfl, rfl, rfl⟩
    cases r <;> rfl

end Sys2Proof.Machine

/-! PROOFS. The register map and the host's writes (10_state.md R24 to R54). -/

namespace Sys2Proof.Machine

/-! ### The map (R25) -/

theorem regAt_channel {c : Nat} (hc : c < 8) (q : ChReg) (k : Nat) (hk : k = 0x100 + 8 * q.slot) :
    regAt (BitVec.ofNat 12 (k + 0x40 * c)) = some (.ch c q) := by
  have hoff : (Reg.ch c q).offset = k + 0x40 * c := by simp only [Reg.offset, Reg.slot]; omega
  rw [← hoff]
  exact regAt_offset (.ch c q) (fun c' q' h => by cases h; exact hc)

/-- Settles O45. The fixed part is the list of the table; the channel part is `regAt_channel`; the content of each
register is the equation of `regRead`. -/
theorem registerMapExact : Obligations.RegisterMapExact := by
  unfold Obligations.RegisterMapExact
  iterate 32 refine ⟨by decide, ?_⟩
  refine ⟨fun c hc => ?channels, fun off hoff => ?outside, fun off r h => (regAt_spec h).1, regAt_offset, fun s => ?_⟩
  case channels =>
    exact ⟨regAt_channel hc .src _ rfl, regAt_channel hc .param _ rfl, regAt_channel hc .delay _ rfl,
      regAt_channel hc .bufBase _ rfl, regAt_channel hc .bufLen _ rfl, regAt_channel hc .bufWidth _ rfl,
      regAt_channel hc .bufPeriod _ rfl, by interval_cases c <;> decide⟩
  case outside =>
    rw [Option.eq_none_iff_forall_ne_some]
    intro r h
    obtain ⟨halign, hbound⟩ := regAt_bound h
    omega
  refine ⟨rfl, by rw [regRead]; decide, rfl, rfl, rfl, fun k => ?status, irqEn_bit s, rfl, rfl, rfl, rfl, rfl, rfl, rfl,
    rfl, rfl, rfl, rfl, rfl, rfl, rfl, rfl, rfl, rfl, rfl, rfl, rfl, rfl, rfl, rfl, rfl, rfl,
    fun c => ⟨rfl, rfl, rfl, rfl, rfl, rfl, rfl⟩⟩
  case status =>
    have hbusy : s.busy = decide (s.phase ≠ .idle) := by
      rw [Bool.eq_iff_iff, decide_eq_true_iff, ne_eq, ← not_busy_iff, Bool.not_eq_false]
    rw [regRead, statusWord_bit, hbusy]
    split_ifs with h0 h1 h2 h3 <;> simp [*]

/-! ### Configuration writes (R53) -/

theorem step_configWrite {s : State} {off : BitVec 12} {r : Reg} {w : Word} {es : List Event}
    (hreg : regAt off = some r) (hconfig : r.isConfig = true) (hin : s.inputs = .host (hostWrite off w) :: es) :
    step s = .next (writeConfig { s with inputs := es, resp := .written } r w) := by
  rw [step_hostWrite hin (regAt_bound hreg).1, csrWrite_config hreg hconfig]

/-- What the host sees in the registers is not touched by the inputs or the response. -/
theorem regRead_answered (s : State) (es : List Event) (v : Response) (r : Reg) :
    regRead { s with inputs := es, resp := v } r = regRead s r := by
  cases r <;> rfl

/-- Settles O46. An idle block stores the word, and `storeConfig` is a write of one register. -/
theorem configWriteStores : Obligations.ConfigWriteStores := by
  unfold Obligations.ConfigWriteStores
  intro s off r w es hidle hreg hconfig hin
  set s0 : State := { s with inputs := es, resp := .written } with hs0
  have hstore : writeConfig s0 r w = storeConfig s0 r w := by
    rw [writeConfig, (not_busy_iff s0).mpr hidle]; rfl
  have hread := regRead_storeConfig s0 w hconfig (regAt_spec hreg).2
  obtain ⟨hmem, hvoids, hdraws, hhazard, hphase, -, -, hplatform, hinputs, hresp, -⟩ := storeConfig_mem s0 r w
  refine ⟨storeConfig s0 r w, (step_configWrite hreg hconfig hin).trans (congrArg _ hstore), ?_, fun q hq => ?_,
    hphase.trans hidle, hmem, hhazard, ⟨hvoids, hdraws⟩, hplatform, hinputs, hresp⟩
  · rw [hread, if_pos rfl]
  · rw [hread, if_neg hq, hs0, regRead_answered]

theorem writeConfig_of_busy {s : State} (hbusy : s.busy = true) (r : Reg) (w : Word) :
    writeConfig s r w = s.dropWrite := by
  rw [writeConfig, hbusy, if_pos rfl]

/-- Settles O47. A busy block drops the write. -/
theorem busyConfigWriteDropped : Obligations.BusyConfigWriteDropped := by
  unfold Obligations.BusyConfigWriteDropped
  intro s v off r w es hrun hreg hconfig hin
  have hbusy : ({ s with inputs := es, resp := .written } : State).busy = true := (busy_iff _).mpr ⟨v, hrun⟩
  rw [step_configWrite hreg hconfig hin, writeConfig_of_busy hbusy]
  rfl

/-! ### Ignored writes and refused accesses (R24, R30, R54) -/

/-- The registers the host cannot write. -/
def Reg.readOnly (r : Reg) : Prop :=
  r = .id ∨ r = .cap ∨ r = .unitt ∨ r = .errCode ∨ r = .errInfo0 ∨ r = .errInfo1 ∨ r.isResult = true

/-- A read-only register is none of those `writeReg` writes. -/
theorem Reg.readOnly.notWritten {r : Reg} (h : r.readOnly) : r.isConfig = false ∧ r ≠ .status ∧ r ≠ .irqEn := by
  cases r <;> simp [Reg.readOnly, Reg.isResult, Reg.isConfig] at h ⊢

theorem writeReg_of_readOnly {r : Reg} (h : r.readOnly) (s : State) (w : Word) : writeReg s r w = s := by
  obtain ⟨hconfig, hstatus, hirqEn⟩ := h.notWritten
  rw [writeReg.eq_def, hconfig, if_neg Bool.false_ne_true]
  split
  · exact absurd rfl hstatus
  · exact absurd rfl hirqEn
  · rfl

theorem csrWrite_ignored {off : BitVec 12} (h : regAt off = none ∨ ∃ r, regAt off = some r ∧ r.readOnly)
    (w : Word) (s : State) : csrWrite off w s = .next { s with resp := .written } := by
  have hne {k : BitVec 12} {q : Reg} (hk : regAt k = some q) (hq : ¬q.readOnly) : off ≠ k := by
    rintro rfl
    rcases h with h | ⟨r, h, hr⟩ <;> rw [hk] at h <;> cases h
    exact hq hr
  have hcmd : off ≠ cmdOffset := hne (q := .cmd) (by decide) (by simp [Reg.readOnly, Reg.isResult])
  have hctrl : off ≠ ctrlOffset := hne (q := .ctrl) (by decide) (by simp [Reg.readOnly, Reg.isResult])
  rcases h with h | ⟨r, h, hr⟩
  · rw [csrWrite_other hcmd hctrl (by simp [h]), h]
  · have hconfig (r' : Reg) (h' : regAt off = some r') : r'.isConfig = false := by
      rw [h] at h'; cases h'; exact hr.notWritten.1
    simp only [csrWrite_other hcmd hctrl hconfig, h, writeReg_of_readOnly hr]

/-- Settles O48. -/
theorem ignoredAndRefusedAccesses : Obligations.IgnoredAndRefusedAccesses := by
  unfold Obligations.IgnoredAndRefusedAccesses
  refine ⟨fun s off w es halign hreg hin => ?_, fun s k hk => ?_, fun s k hk => ?_, fun s => ⟨rfl, rfl⟩,
    fun s w es hbit hin => ?_, fun s dir size off w es hin hbad => ?_⟩
  · rw [step_hostWrite hin halign, csrWrite_ignored hreg]
  · rw [regRead, statusWord_bit]
    repeat' rw [if_neg (by omega)]
  · rw [irqEn_bit, BitVec.getLsbD_of_ge _ _ hk]
  · rw [step_hostWrite hin (by decide)]
    exact (csrWrite_ctrl w _).trans (by rw [hbit]; rfl)
  · simp only [step, hin, hostAccess, if_pos hbad]

/-! ### STATUS and IRQ_EN (R29, R31) -/

theorem csrWrite_status (w : Word) (s : State) :
    csrWrite 0x020 w s = .next { s with resp := .written, status := s.status.clear w } := by
  have hreg : regAt 0x020 = some .status := by decide
  rw [csrWrite_other (by decide) (by decide) (by rw [hreg]; rintro r h; cases h; rfl), hreg]
  rfl

theorem csrWrite_irqEn (w : Word) (s : State) :
    csrWrite 0x028 w s = .next { s with resp := .written, irqEn := w.truncate 3 } := by
  have hreg : regAt 0x028 = some .irqEn := by decide
  rw [csrWrite_other (by decide) (by decide) (by rw [hreg]; rintro r h; cases h; rfl), hreg]
  rfl

/-- Settles O49. STATUS loses the bits whose data bit is 1, IRQ_EN takes the three low bits. -/
theorem statusAndEnableWrites : Obligations.StatusAndEnableWrites := by
  unfold Obligations.StatusAndEnableWrites
  refine ⟨fun s w es hin => ⟨_, (step_hostWrite hin (by decide)).trans (csrWrite_status w _), fun k _ => ?_, rfl⟩,
    fun s w es hin => ⟨_, (step_hostWrite hin (by decide)).trans (csrWrite_irqEn w _), ?_, rfl⟩⟩
  · simp only [statusWord_bit, StatusBits.clear]
    split_ifs with h0 h1 h2 h3
    · subst h0; exact (Bool.and_true _).symm
    · subst h1; simp
    · subst h2; simp
    · subst h3; simp
    · simp
  · apply BitVec.eq_of_getLsbD_eq
    intro k hk
    have hmask : (7 : Word).getLsbD k = decide (k < 3) := by
      interval_cases k <;> decide
    rw [irqEn_bit, BitVec.getLsbD_and, hmask, BitVec.truncate_eq_setWidth, BitVec.getLsbD_setWidth, Bool.and_comm]

end Sys2Proof.Machine

/-! PROOFS. The host's accesses to memory and registers while the block is idle and while a command runs
(20_memory.md R83, R84, 60_exceptions.md R279, 70_reset_and_hazards.md R310 to R317). -/

namespace Sys2Proof.Machine

/-! ### Reads (R311, R317) -/

/-- A result read while a command runs shows 0 or what the command completes with. -/
theorem csrRead_of_result {off : BitVec 12} {r : Reg} {s t : State} (h : regAt off = some r) (hbusy : s.busy = true)
    (hres : r.isResult = true) (hturn : engineTurn s = .next t) :
    csrRead off s = { s with
      resp := .value (if Config.showsFinal s.draws then regRead t r else 0), draws := s.draws + 1 } := by
  simp only [csrRead, h, hbusy, hres, Bool.and_self, if_true, finalState, hturn]

theorem step_memRead {s : State} {a : Word} {n : Nat} {es : List Event} (hfit : a.toNat + n ≤ Config.addrSpace)
    (hin : s.inputs = .host (.memRead a n) :: es) : step s = .next (memRead a.toNat n { s with inputs := es }) := by
  simp only [step, hin, hostAccess, if_pos hfit]

theorem hostByte_of_dest {s : State} {d : Region} {a : Nat} (hd : s.dest = some d) (ha : d.has a = true) :
    hostByte s a = Config.freeByte s.draws a := by
  rw [hostByte, hd, Option.any_some, if_pos ha]

theorem hostByte_of_not_dest {s : State} {a : Nat} (h : ∀ d, s.dest = some d → d.has a = false) :
    hostByte s a = s.readByte a := by
  rw [hostByte, if_neg]
  cases hd : s.dest with
  | none => exact Bool.false_ne_true
  | some d => rw [Option.any_some, h d hd]; exact Bool.false_ne_true

theorem dest_of_idle {s : State} (h : s.phase = .idle) : s.dest = none := by
  simp only [State.dest, h]

theorem dest_of_running {s : State} {w : Word} {i : Instr} (hrun : s.phase = .running w)
    (hdec : decodeCmd w = .ok i) : s.dest =
      match i with
      | .encode => encodeDest s
      | .decode => some (scrRegion s)
      | _ => none := by
  simp only [State.dest, hrun, destOf, hdec]
  cases i <;> rfl

/-- Settles O51. Registers by the two equations of `csrRead`, memory byte by byte by those of `hostByte`. -/
theorem hostReads : Obligations.HostReads := by
  unfold Obligations.HostReads
  refine ⟨fun s off es hin => ⟨fun r hreg hopen => ?_, fun halign hreg => ?_⟩,
    fun s t v off r es hrun hreg hres hin hturn => ?_, fun s a n es hfit hin => ?_, fun s w i hrun hdec => ?_⟩
  · rw [step_hostRead hin (regAt_bound hreg).1, csrRead_of_some (s := { s with inputs := es }) hreg hopen,
      regRead_withInputs]
  · rw [step_hostRead hin halign, csrRead_of_none hreg]
  · have hbusy : ({ s with inputs := es } : State).busy = true := (busy_iff _).mpr ⟨v, hrun⟩
    refine ⟨_, step_hostRead hin (regAt_bound hreg).1, ?_, ?_⟩ <;> rw [csrRead_of_result hreg hbusy hres hturn]
    cases hshow : Config.showsFinal s.draws with
    | true => exact .inr (by simp only [if_true])
    | false => exact .inl (by simp only [Bool.false_eq_true, if_false])
  · have hbyte {k : Nat} (hk : k < n) :
        ((List.range n).map (fun k => hostByte { s with inputs := es } (a.toNat + k)))[k]? =
          some (hostByte { s with inputs := es } (a.toNat + k)) := by
      rw [List.getElem?_map, List.getElem?_range hk, Option.map_some]
    refine ⟨_, _, step_memRead hfit hin, rfl, by rw [List.length_map, List.length_range], rfl,
      fun k hk => ⟨fun h => ?_, fun d hd hx => ?_⟩⟩
    · refine (hbyte hk).trans (congrArg some (hostByte_of_not_dest fun d hd => ?_))
      rcases h with hidle | hout
      · rw [dest_of_idle (s := { s with inputs := es }) hidle] at hd; cases hd
      · exact hout d hd
    · exact (hbyte hk).trans (congrArg some (hostByte_of_dest (s := { s with inputs := es }) hd hx))
  · have hdest := dest_of_running hrun hdec
    refine ⟨fun hi hrate hrate' hlength => ?_, fun hi => ?_, fun hne hnd => ?_⟩
    · subst hi
      exact hdest.trans (if_pos ⟨hrate, hrate', hlength⟩)
    · subst hi; exact hdest
    · cases i with
      | encode => exact absurd rfl hne
      | decode => exact absurd rfl hnd
      | _ => exact hdest

/-! ### Writes from outside (R310, R312, R313) -/

theorem outsideWrite_readByte (rs : List Region) (a : Nat) (bs : List Byte) (s : State) (x : Nat) :
    (outsideWrite rs a bs s).readByte x =
      if a ≤ x ∧ x < a + bs.length then bs.getD (x - a) 0 else s.readByte x :=
  readByte_writeBytes s a bs x

/-- An outside write changes memory and the mark, and nothing else. -/
theorem outsideWrite_frame (rs : List Region) (a : Nat) (bs : List Byte) (s : State) :
    ∃ m h, outsideWrite rs a bs s = { s with mem := m, hazard := h } := by
  obtain ⟨m, hm⟩ := writeBytes_frame s a bs
  exact ⟨m, _, by rw [outsideWrite, hm]⟩

/-- The mark rises exactly when a byte written lies in one of the regions. -/
theorem outsideWrite_hazard_iff (rs : List Region) (a : Nat) (bs : List Byte) (s : State) :
    (outsideWrite rs a bs s).hazard = true ↔ s.hazard = true ∨
      ∃ r x, r ∈ rs ∧ r.has x = true ∧ a ≤ x ∧ x < a + bs.length := by
  simp only [outsideWrite, Bool.or_eq_true, List.any_eq_true, Region.overlaps_iff_common, Region.has_iff ⟨a, _⟩]
  simp only [exists_and_left]

theorem guarded_of_idle {s : State} (h : s.phase = .idle) : s.guarded = [] := by
  simp only [State.guarded, h]

theorem step_memWrite {s : State} {a : Word} {bs : List Byte} {es : List Event}
    (hfit : a.toNat + bs.length ≤ Config.addrSpace) (hin : s.inputs = .host (.memWrite a bs) :: es) :
    step s = .next (memWrite a.toNat bs { s with inputs := es }) := by
  simp only [step, hin, hostAccess, if_pos hfit]

theorem step_masterWrite {s : State} {a : Word} {bs : List Byte} {es : List Event}
    (hfit : a.toNat + bs.length ≤ Config.addrSpace) (hin : s.inputs = .host (.masterWrite a bs) :: es) :
    step s = .next (masterWrite a.toNat bs { s with inputs := es }) := by
  simp only [step, hin, hostAccess, if_pos hfit]

/-- Settles O52. The write is `writeBytes`, which an idle block's read gives back byte by byte. -/
theorem hostMemoryReadsBack : Obligations.HostMemoryReadsBack := by
  unfold Obligations.HostMemoryReadsBack
  intro s a bs es hidle hfit hin
  set s1 : State := { s with inputs := .host (.memRead a bs.length) :: es } with hs1
  have hwrite : step s = .next (memWrite a.toNat bs s1) := step_memWrite hfit hin
  obtain ⟨m, h, hframe⟩ := outsideWrite_frame s1.guarded a.toNat bs s1
  have hmem (x : Nat) : ({ s1 with mem := m, hazard := h } : State).readByte x =
      if a.toNat ≤ x ∧ x < a.toNat + bs.length then bs.getD (x - a.toNat) 0 else s.readByte x := by
    rw [← hframe, outsideWrite_readByte]; rfl
  have hhazard : h = s.hazard := by
    have hh : (outsideWrite s1.guarded a.toNat bs s1).hazard = (s.hazard || List.any [] _) :=
      congrArg (fun rs : List Region => (outsideWrite rs a.toNat bs s1).hazard) (guarded_of_idle hidle)
    rw [hframe, List.any_nil, Bool.or_false] at hh
    exact hh
  rw [memWrite, hframe] at hwrite
  have hread := step_memRead (s := { s1 with mem := m, hazard := h, resp := .written }) hfit rfl
  refine ⟨_, _, hwrite, hread, ?_, fun x hx => ?_, fun r => ?_, rfl, hhazard⟩
  · refine congrArg Response.bytes (List.ext_getElem (by simp) fun k hk hk' => ?_)
    rw [List.length_map, List.length_range] at hk
    rw [List.getElem_map, List.getElem_range,
      hostByte_of_not_dest (fun d hd => by rw [dest_of_idle (by exact hidle)] at hd; cases hd)]
    refine (hmem _).trans ?_
    rw [if_pos (by omega), Nat.add_sub_cancel_left, List.getD_eq_getElem _ _ hk']
  · exact (hmem x).trans (if_neg (by omega))
  · cases r <;> rfl

/-- Settles O59. Both writes are `outsideWrite`, of the guarded regions or of these and the named ones, and a
platform is compared on the named regions by `sameOn`. -/
theorem outsideAccessSetsHazard : Obligations.OutsideAccessSetsHazard := by
  unfold Obligations.OutsideAccessSetsHazard
  refine ⟨fun s a bs es other hin hfit => ?_, fun s p es hin => ?_⟩
  · have hphase (rs : List Region) : (outsideWrite rs a.toNat bs { s with inputs := es }).phase = s.phase := by
      obtain ⟨m, h, heq⟩ := outsideWrite_frame rs a.toNat bs { s with inputs := es }
      rw [heq]
    have houtside (rs : List Region) (x : Nat) (hx : x < a.toNat ∨ a.toNat + bs.length ≤ x) :
        (outsideWrite rs a.toNat bs { s with inputs := es }).readByte x = s.readByte x :=
      (outsideWrite_readByte _ _ _ _ _).trans (if_neg (by omega))
    cases other with
    | false =>
      refine ⟨_, step_memWrite hfit hin, hphase s.guarded, houtside s.guarded, ?_⟩
      · refine (outsideWrite_hazard_iff s.guarded _ _ { s with inputs := es }).trans ?_
        simp only [Bool.false_eq_true, false_and, or_false]
    | true =>
      refine ⟨_, step_masterWrite hfit hin, hphase (s.guarded ++ s.named), houtside (s.guarded ++ s.named), ?_⟩
      · refine (outsideWrite_hazard_iff (s.guarded ++ s.named) _ _ { s with inputs := es }).trans ?_
        simp only [List.mem_append, true_and]
  · refine ⟨platformChange p { s with inputs := es }, by simp only [step, hin, hostAccess], rfl, ?_, rfl⟩
    have hchanged (r : Region) : (!s.platform.sameOn p r) = true ↔
        (∃ x, r.has x = true ∧ p.memOK x ≠ s.platform.memOK x) ∨ ¬(p.CoversDevice r ↔ s.platform.CoversDevice r) := by
      rw [Bool.not_eq_true', ← Bool.not_eq_true, Platform.sameOn_iff, not_and_or, iff_comm (a := p.CoversDevice r)]
      simp only [not_forall, exists_prop, ne_eq, eq_comm]
    show (s.hazard || s.named.any fun r => !s.platform.sameOn p r) = true ↔ _
    simp only [Bool.or_eq_true, List.any_eq_true, hchanged]

/-! ### An access and the completion in one step (60_exceptions.md R279) -/

section
variable {s u : State} {a : Access} {es : List Event}

theorem step_both_of_busy (hin : s.inputs = .both a :: es) (hacc : hostAccess a { s with inputs := es } = .next u)
    (hs : s.busy = true) (hu : u.busy = true) : step s = engineTurn u := by
  have hs' : ({ s with inputs := es } : State).busy = true := hs
  simp only [step, hin, bothTurn, hacc, hs', hu, Bool.and_self, if_true]

theorem step_both_of_not_busy (hin : s.inputs = .both a :: es)
    (hacc : hostAccess a { s with inputs := es } = .next u) (hu : u.busy = false) : step s = .next u := by
  simp only [step, hin, bothTurn, hacc, hu, Bool.and_false, Bool.false_eq_true, if_false]

/-- An access that leaves the command running is followed by its completion. -/
theorem step_both_ran {v : Word} (hin : s.inputs = .both a :: es)
    (hacc : hostAccess a { s with inputs := es } = .next u) (hs : s.phase = .running v)
    (hu : u.phase = .running v) : ∃ t e, step s = .next t ∧ Ran u t e := by
  rw [step_both_of_busy hin hacc ((busy_iff s).mpr ⟨v, hs⟩) ((busy_iff u).mpr ⟨v, hu⟩)]
  exact engineTurn_ran hu

end

theorem hostAccess_hostWrite {off : BitVec 12} (halign : off.toNat % 8 = 0) (w : Word) (s : State) :
    hostAccess (hostWrite off w) s = csrWrite off w s := by
  simp [hostAccess, hostWrite, halign]

/-- The configuration registers are the fields `cfg` and `chan`. -/
theorem regRead_config_congr {s t : State} (hcfg : t.cfg = s.cfg) (hchan : t.chan = s.chan) {r : Reg}
    (hr : r.isConfig = true) : regRead t r = regRead s r := by
  have hch (c : Nat) : t.ch c = s.ch c := by rw [State.ch, hchan, State.ch]
  cases r <;> simp only [regRead, hcfg, hch] <;> cases hr

/-- Settles O58. What the access leaves is running but after the soft reset, and is then completed. -/
theorem accessBeforeCompletion : Obligations.AccessBeforeCompletion := by
  unfold Obligations.AccessBeforeCompletion
  intro s v w es hrun
  set s1 : State := { s with inputs := es } with hs1
  have hbusy : ({ s1 with resp := .written } : State).busy = true := (busy_iff _).mpr ⟨v, hrun⟩
  refine ⟨fun hin => ?_, fun hin => ?_, fun off r hreg hconfig hin => ?_, fun hin => ?_⟩
  · have hacc := (hostAccess_hostWrite (by decide) w s1).trans (csrWrite_status w s1)
    obtain ⟨t, e, hstep, hran⟩ := step_both_ran hin hacc hrun hrun
    exact ⟨t, hstep, hran.phase, by rw [hran.status], hran.err_iff⟩
  · have hacc := (hostAccess_hostWrite (by decide) w s1).trans (csrWrite_cmd w s1)
    rw [writeCmd_of_busy w hbusy] at hacc
    obtain ⟨t, e, hstep, hran⟩ := step_both_ran hin hacc hrun hrun
    exact ⟨t, hstep, hran.phase, by rw [hran.status], by rw [hran.status]; rfl⟩
  · have hacc := (hostAccess_hostWrite (regAt_bound hreg).1 w s1).trans (csrWrite_config hreg hconfig w s1)
    rw [writeConfig_of_busy hbusy] at hacc
    obtain ⟨t, e, hstep, hran⟩ := step_both_ran hin hacc hrun hrun
    obtain ⟨hcfg, hchan, -⟩ := hran.setup
    exact ⟨t, hstep, hran.phase, by rw [hran.status], by rw [hran.status]; rfl,
      regRead_config_congr (s := s) hcfg hchan hconfig⟩
  · have hacc := (hostAccess_hostWrite (by decide) 1 s1).trans (csrWrite_ctrl 1 s1)
    exact ⟨_, step_both_of_not_busy hin hacc rfl, rfl, rfl, rfl⟩

end Sys2Proof.Machine

/-! PROOFS. The sine table (10_state.md R55, 41_generators.md R151, R154). Its first quarter is held against the
real sine by a walk round the quarter in steps of θ = π/2048: cosine and sine of θ are enclosed by halving angles
from π/2, each further angle by the addition theorem, and each entry by its angle's enclosure. -/

namespace Sys2Proof.Machine

/-! ### Enclosures -/

/-- The denominator of the enclosures. -/
def sineScale : Nat := 2 ^ 112

/-- x lies between lo and hi, in units of 1 / `sineScale`. -/
def Encloses (lo hi : Nat) (x : ℝ) : Prop := (lo : ℝ) ≤ sineScale * x ∧ sineScale * x ≤ hi

theorem sineScale_pos : (0 : ℝ) < sineScale := by norm_num [sineScale]

theorem Encloses.nonneg {lo hi : Nat} {x : ℝ} (h : Encloses lo hi x) : 0 ≤ x :=
  nonneg_of_mul_nonneg_right ((Nat.cast_nonneg lo).trans h.1) sineScale_pos

/-- A number is enclosed when its square is, both of them doubled as the half-angle formulas have them. -/
theorem encloses_of_sq {x c : ℝ} {a b lo hi : Nat} (hx : 0 ≤ x) (hsq : 2 * x ^ 2 = c) (hc : Encloses a b c)
    (hlo : 2 * lo ^ 2 ≤ sineScale * a) (hhi : sineScale * b ≤ 2 * hi ^ 2) : Encloses lo hi x := by
  obtain ⟨hac, hcb⟩ := hc
  have hS := sineScale_pos
  have hlo' : 2 * (lo : ℝ) ^ 2 ≤ sineScale * a := by exact_mod_cast hlo
  have hhi' : (sineScale : ℝ) * b ≤ 2 * hi ^ 2 := by exact_mod_cast hhi
  have hsq' : 2 * (sineScale * x) ^ 2 = sineScale * (sineScale * c) := by rw [← hsq]; ring
  have hac' : (sineScale : ℝ) * a ≤ sineScale * (sineScale * c) := mul_le_mul_of_nonneg_left hac hS.le
  have hcb' : sineScale * (sineScale * c) ≤ sineScale * b := mul_le_mul_of_nonneg_left hcb hS.le
  constructor
  · exact le_of_sq_le_sq (by linarith) (by positivity)
  · exact le_of_sq_le_sq (by linarith) (by positivity)

/-! ### Halving from π/2 to θ = π/2048 -/

/-- Lower ends for the cosines of π/2, π/4, …, π/2048; each upper end is 2 above. -/
def cosLows : List Nat := [
  0, 3671508318603584465714016303674698, 4797056794322979372802252899200029,
  5092528330334893499663482485865770, 5167294529961888975722311568967462, 5186042509572976623270498248863577,
  5190733035797279377081459888318102, 5191905888130764378229010796618143, 5192199115013814735636633363128031,
  5192272422597074317181079137386188, 5192290749546795540957039408040786]

theorem cos_pi_div_pow_nonneg (n : Nat) : 0 ≤ Real.cos (Real.pi / 2 ^ (n + 1)) := by
  have hpi := Real.pi_pos
  have hpow : (2 : ℝ) ≤ 2 ^ (n + 1) := by
    simpa using pow_le_pow_right₀ (one_le_two (α := ℝ)) (Nat.le_add_left 1 n)
  refine Real.cos_nonneg_of_neg_pi_div_two_le_of_le ?_ (div_le_div_of_nonneg_left hpi.le two_pos hpow)
  have : 0 ≤ Real.pi / 2 ^ (n + 1) := by positivity
  linarith

theorem cos_double_pi_div_pow (n : Nat) :
    Real.cos (2 * (Real.pi / 2 ^ (n + 2))) = Real.cos (Real.pi / 2 ^ (n + 1)) := by
  congr 1
  rw [pow_succ 2 (n + 1)]
  field_simp

theorem cosLows_halve : ∀ n < 10, 2 * cosLows.getD (n + 1) 0 ^ 2 ≤ sineScale * (sineScale + cosLows.getD n 0) ∧
    sineScale * (sineScale + (cosLows.getD n 0 + 2)) ≤ 2 * (cosLows.getD (n + 1) 0 + 2) ^ 2 := by
  decide

/-- The cosines of the halved angles, by 2 cos² x = 1 + cos 2x. -/
theorem cosLows_enclose (n : Nat) (hn : n ≤ 10) :
    Encloses (cosLows.getD n 0) (cosLows.getD n 0 + 2) (Real.cos (Real.pi / 2 ^ (n + 1))) := by
  induction n with
  | zero => simp [cosLows, Encloses]
  | succ n ih =>
    obtain ⟨hlo, hhi⟩ := cosLows_halve n (by omega)
    obtain ⟨ihlo, ihhi⟩ := ih (by omega)
    refine encloses_of_sq (c := 1 + Real.cos (Real.pi / 2 ^ (n + 1))) (cos_pi_div_pow_nonneg (n + 1)) ?_
      ⟨?_, ?_⟩ hlo hhi
    · rw [← cos_double_pi_div_pow n, Real.cos_two_mul]; ring
    · push_cast; linarith
    · push_cast at ihhi ⊢; linarith

/-! ### The walk -/

/-- An enclosure of the cosine and the sine of one angle. -/
structure Turn where
  cosLo : Nat
  cosHi : Nat
  sinLo : Nat
  sinHi : Nat

def Turn.At (t : Turn) (x : ℝ) : Prop :=
  Encloses t.cosLo t.cosHi (Real.cos x) ∧ Encloses t.sinLo t.sinHi (Real.sin x)

/-- The angle 0. -/
def Turn.zero : Turn := ⟨sineScale, sineScale, 0, 0⟩

/-- The angle θ. -/
def Turn.unit : Turn := ⟨5192290749546795540957039408040786, 5192290749546795540957039408040788,
  7964880502301058167274383037776, 7964880502301058167274383038103⟩

/-- The addition theorem, rounded outwards. -/
def Turn.add (t u : Turn) : Turn where
  cosLo := (t.cosLo * u.cosLo - t.sinHi * u.sinHi) / sineScale
  cosHi := (t.cosHi * u.cosHi - t.sinLo * u.sinLo) / sineScale + 1
  sinLo := (t.sinLo * u.cosLo + t.cosLo * u.sinLo) / sineScale
  sinHi := (t.sinHi * u.cosHi + t.cosHi * u.sinHi) / sineScale + 1

theorem Turn.zero_at : Turn.zero.At 0 := by
  simp [Turn.At, Turn.zero, Encloses]

theorem Turn.unit_at : Turn.unit.At (Real.pi / 2048) := by
  have hpow : (2048 : ℝ) = 2 ^ (9 + 2) := by norm_num
  have hcos : Encloses Turn.unit.cosLo Turn.unit.cosHi (Real.cos (Real.pi / 2 ^ (9 + 2))) := cosLows_enclose 10 le_rfl
  obtain ⟨hlo, hhi⟩ := cosLows_enclose 9 (by decide)
  have hpi := Real.pi_pos
  rw [hpow]
  refine ⟨hcos, encloses_of_sq (a := sineScale - (cosLows.getD 9 0 + 2)) (b := sineScale - cosLows.getD 9 0)
    (c := 1 - Real.cos (Real.pi / 2 ^ (9 + 1))) ?_ ?_ ⟨?_, ?_⟩ (by decide) (by decide)⟩
  · refine Real.sin_nonneg_of_nonneg_of_le_pi (by positivity) (div_le_self hpi.le ?_)
    norm_num
  · rw [← cos_double_pi_div_pow 9, Real.cos_two_mul, ← Real.sin_sq_add_cos_sq (Real.pi / 2 ^ (9 + 2))]; ring
  · rw [Nat.cast_sub (by decide)]; push_cast at hhi ⊢; linarith
  · rw [Nat.cast_sub (by decide)]; linarith

/-- A product of enclosed numbers, in units of 1 / `sineScale`². -/
theorem Encloses.mul {a b c d : Nat} {x y : ℝ} (hx : Encloses a b x) (hy : Encloses c d y) :
    (a * c : ℝ) ≤ sineScale * (sineScale * (x * y)) ∧ sineScale * (sineScale * (x * y)) ≤ b * d := by
  have hx0 : 0 ≤ sineScale * x := mul_nonneg sineScale_pos.le hx.nonneg
  have hy0 : 0 ≤ sineScale * y := mul_nonneg sineScale_pos.le hy.nonneg
  have heq : sineScale * (sineScale * (x * y)) = (sineScale * x) * (sineScale * y) := by ring
  rw [heq]
  exact ⟨mul_le_mul hx.1 hy.1 (Nat.cast_nonneg c) hx0, mul_le_mul hx.2 hy.2 hy0 (Nat.cast_nonneg b)⟩

/-- Rounding down a lower end, up an upper end. -/
theorem encloses_of_scaled {a b : Nat} {x : ℝ} (ha : (a : ℝ) ≤ sineScale * (sineScale * x))
    (hb : sineScale * (sineScale * x) ≤ b) : Encloses (a / sineScale) (b / sineScale + 1) x := by
  have hS := sineScale_pos
  have hdown : ((a / sineScale : Nat) : ℝ) * sineScale ≤ a := by exact_mod_cast Nat.div_mul_le_self a sineScale
  have hup : (b : ℝ) ≤ ((b / sineScale + 1 : Nat) : ℝ) * sineScale := by
    have := Nat.lt_div_mul_add (a := b) (b := sineScale) (by decide)
    exact_mod_cast (by rw [Nat.add_mul]; omega : b ≤ (b / sineScale + 1) * sineScale)
  exact ⟨le_of_mul_le_mul_right (by linarith) hS, le_of_mul_le_mul_right (by linarith) hS⟩

/-- A difference of naturals is the difference where that is not negative, and 0 otherwise. -/
theorem cast_sub_le_of_nonneg {a b : Nat} {x : ℝ} (hx : 0 ≤ x) (h : (a : ℝ) - b ≤ x) : ((a - b : Nat) : ℝ) ≤ x := by
  rcases le_total b a with hab | hab
  · rw [Nat.cast_sub hab]; exact h
  · rw [Nat.sub_eq_zero_of_le hab, Nat.cast_zero]; exact hx

theorem le_cast_sub {a b : Nat} {x : ℝ} (h : x ≤ (a : ℝ) - b) : x ≤ ((a - b : Nat) : ℝ) :=
  h.trans (by rw [sub_le_iff_le_add]; exact_mod_cast (le_tsub_add : a ≤ a - b + b))

/-- The sum of two angles whose cosine is not negative. -/
theorem Turn.add_at {t u : Turn} {x y : ℝ} (ht : t.At x) (hu : u.At y) (hcos : 0 ≤ Real.cos (x + y)) :
    (t.add u).At (x + y) := by
  obtain ⟨htc, hts⟩ := ht
  obtain ⟨huc, hus⟩ := hu
  obtain ⟨hcc, hcc'⟩ := htc.mul huc
  obtain ⟨hss, hss'⟩ := hts.mul hus
  obtain ⟨hsc, hsc'⟩ := hts.mul huc
  obtain ⟨hcs, hcs'⟩ := htc.mul hus
  have hS := sineScale_pos.le
  refine ⟨encloses_of_scaled (cast_sub_le_of_nonneg (by positivity) ?_) (le_cast_sub ?_),
    encloses_of_scaled ?_ ?_⟩ <;> push_cast
  · rw [Real.cos_add, mul_sub, mul_sub]; linarith
  · rw [Real.cos_add, mul_sub, mul_sub]; linarith
  · rw [Real.sin_add, mul_add, mul_add]; linarith
  · rw [Real.sin_add, mul_add, mul_add]; linarith

/-! ### The entries of the first quarter -/

/-- Entry e is within 1/2 of full scale times any sine the turn encloses. -/
def Turn.allows (t : Turn) (e : Nat) : Bool :=
  decide (2 * 9223372036854775807 * t.sinHi ≤ (2 * e + 1) * sineScale) &&
    decide (2 * e * sineScale ≤ 2 * 9223372036854775807 * t.sinLo + sineScale)

/-- The n entries from k on are allowed by the turns from t on. -/
def entriesAllowed : Nat → Nat → Turn → Bool
  | 0, _, _ => true
  | n + 1, k, t => t.allows (sineQuarter k) && entriesAllowed n (k + 1) (t.add Turn.unit)

theorem abs_sub_le_of_allows {t : Turn} {e : Nat} {x : ℝ} (ht : t.At x) (h : t.allows e = true) :
    |(e : ℝ) - 9223372036854775807 * Real.sin x| ≤ 1 / 2 := by
  obtain ⟨-, hlo, hhi⟩ := ht
  simp only [Turn.allows, Bool.and_eq_true, decide_eq_true_eq] at h
  obtain ⟨hup, hdown⟩ := h
  have hS := sineScale_pos
  have hup' : 2 * 9223372036854775807 * (t.sinHi : ℝ) ≤ (2 * e + 1) * sineScale := by exact_mod_cast hup
  have hdown' : 2 * (e : ℝ) * sineScale ≤ 2 * 9223372036854775807 * t.sinLo + sineScale := by exact_mod_cast hdown
  rw [abs_le]
  constructor
  · refine le_of_mul_le_mul_right (a := (sineScale : ℝ)) ?_ hS
    linarith
  · refine le_of_mul_le_mul_right (a := (sineScale : ℝ)) ?_ hS
    linarith

theorem cos_quarter_nonneg {k : Nat} (hk : k ≤ 1024) : 0 ≤ Real.cos (k * (Real.pi / 2048)) := by
  have hpi := Real.pi_pos
  have hk' : (k : ℝ) ≤ 1024 := by exact_mod_cast hk
  refine Real.cos_nonneg_of_neg_pi_div_two_le_of_le ?_ ?_
  · have : 0 ≤ (k : ℝ) * (Real.pi / 2048) := by positivity
    linarith
  · have := mul_le_mul_of_nonneg_right hk' (show 0 ≤ Real.pi / 2048 by positivity)
    linarith

theorem sineQuarter_near_of_allowed {n k : Nat} {t : Turn} (hn : k + n ≤ 1025)
    (ht : k ≤ 1024 → t.At (k * (Real.pi / 2048))) (h : entriesAllowed n k t = true) :
    ∀ j, k ≤ j → j < k + n → |(sineQuarter j : ℝ) - 9223372036854775807 * Real.sin (j * (Real.pi / 2048))| ≤ 1 / 2 := by
  induction n generalizing k t with
  | zero => intro j hkj hj; omega
  | succ n ih =>
    intro j hkj hj
    simp only [entriesAllowed, Bool.and_eq_true] at h
    obtain ⟨hentry, hrest⟩ := h
    rcases Nat.eq_or_lt_of_le hkj with rfl | hlt
    · exact abs_sub_le_of_allows (ht (by omega)) hentry
    · refine ih (by omega) (fun hk => ?_) hrest j hlt (by omega)
      have hsum : ((k + 1 : Nat) : ℝ) * (Real.pi / 2048) = k * (Real.pi / 2048) + Real.pi / 2048 := by
        push_cast; ring
      rw [hsum]
      refine Turn.add_at (ht (by omega)) Turn.unit_at ?_
      rw [← hsum]
      exact cos_quarter_nonneg hk

theorem entriesAllowed_all : entriesAllowed 1025 0 Turn.zero = true := by
  decide +kernel

theorem sineQuarter_near {k : Nat} (hk : k ≤ 1024) :
    |(sineQuarter k : ℝ) - 9223372036854775807 * Real.sin (k * (Real.pi / 2048))| ≤ 1 / 2 := by
  refine sineQuarter_near_of_allowed le_rfl (fun _ => ?_) entriesAllowed_all k (Nat.zero_le k) (by omega)
  rw [Nat.cast_zero, zero_mul]
  exact Turn.zero_at

/-! ### The whole period, by the symmetries of the sine -/

theorem sineHalf_near {k : Nat} (hk : k ≤ 2048) :
    |(sineHalf k : ℝ) - 9223372036854775807 * Real.sin (k * (Real.pi / 2048))| ≤ 1 / 2 := by
  by_cases h : k ≤ 1024
  · rw [sineHalf, if_pos h]; exact sineQuarter_near h
  · have hmirror : Real.sin (k * (Real.pi / 2048)) = Real.sin ((2048 - k : Nat) * (Real.pi / 2048)) := by
      rw [← Real.sin_pi_sub, Nat.cast_sub hk]
      congr 1
      push_cast; ring
    rw [sineHalf, if_neg h, hmirror]
    exact sineQuarter_near (by omega)

/-- Settles O32. The second half is the first with the other sign, on both sides. -/
theorem sineTableIsNearest : Obligations.SineTableIsNearest := by
  unfold Obligations.SineTableIsNearest
  intro k hk
  have hangle : 2 * Real.pi * k / 4096 = k * (Real.pi / 2048) := by ring
  rw [hangle]
  by_cases h : k < 2048
  · rw [sineLut, if_pos h]
    exact_mod_cast sineHalf_near h.le
  · have hshift : Real.sin (k * (Real.pi / 2048)) = -Real.sin ((k - 2048 : Nat) * (Real.pi / 2048)) := by
      rw [← Real.sin_add_pi, Nat.cast_sub (by omega)]
      congr 1
      push_cast; ring
    rw [sineLut, if_neg h, hshift, abs_sub_comm]
    have := sineHalf_near (k := k - 2048) (by omega)
    push_cast
    rwa [mul_neg, sub_neg_eq_add, neg_add_eq_sub]

end Sys2Proof.Machine

/-! PROOFS. The identities of the sine table (41_generators.md R151, R154), and the levels of the generators and of
the BUFFER source (R148 to R165, 40_numeric.md R121, 43_encode.md R198). -/

namespace Sys2Proof.Machine

/-! ### The sine table's identities and range -/

theorem sineLut_add_half {k : Nat} (hk : k < 2048) : sineLut (k + 2048) = -sineLut k := by
  rw [sineLut, if_neg (by omega), Nat.add_sub_cancel, sineLut, if_pos hk]

theorem sineHalf_mirror {k : Nat} (hk : k ≤ 2048) : sineHalf (2048 - k) = sineHalf k := by
  unfold sineHalf
  rcases lt_trichotomy k 1024 with hlt | rfl | hgt
  · rw [if_neg (by omega), if_pos hlt.le, Nat.sub_sub_self hk]
  · rfl
  · rw [if_pos (by omega), if_neg (by omega)]

theorem sineLut_zero : sineLut 0 = 0 := by decide

theorem sineLut_half : sineLut 2048 = 0 := by decide

theorem sineLut_mirror {k : Nat} (hk : k ≤ 2048) : sineLut (2048 - k) = sineLut k := by
  rcases Nat.eq_zero_or_pos k with rfl | hpos
  · exact sineLut_half.trans sineLut_zero.symm
  rcases Nat.eq_or_lt_of_le hk with rfl | hlt
  · exact sineLut_zero.trans sineLut_half.symm
  · rw [sineLut, if_pos (by omega), sineLut, if_pos hlt, sineHalf_mirror hk]

theorem sineBlocks_le : ∀ b ∈ sineBlocks, ∀ e ∈ b, e ≤ 9223372036854775807 := by decide +kernel

/-- No entry, nor the 0 beside the list, is above full scale. -/
theorem sineQuarter_le (k : Nat) : sineQuarter k ≤ 9223372036854775807 := by
  unfold sineQuarter
  rw [List.getD_eq_getElem?_getD]
  cases he : (sineBlocks.getD (k / 64) [])[k % 64]? with
  | none => exact Nat.zero_le _
  | some e =>
    rw [List.getD_eq_getElem?_getD] at he
    cases hb : sineBlocks[k / 64]? with
    | none => simp [hb] at he
    | some b =>
      rw [hb] at he
      exact sineBlocks_le b (List.mem_of_getElem? hb) e (List.mem_of_getElem? he)

theorem sineLut_range (k : Nat) : -9223372036854775807 ≤ sineLut k ∧ sineLut k ≤ 9223372036854775807 := by
  have hhalf (k : Nat) : sineHalf k ≤ 9223372036854775807 := by
    unfold sineHalf; split <;> exact sineQuarter_le _
  have h1 := hhalf k
  have h2 := hhalf (k - 2048)
  unfold sineLut
  split <;> omega

/-- SINE by the quotients of the integers (R152). -/
theorem sineLevel_eq {P : Int} (hP : 0 < P) (τ : Int) : sineLevel P τ = sineLut (τ % P * 4096 / P).toNat := by
  simp only [sineLevel, emod_eq_emod τ hP.le, fdiv_eq_ediv _ hP.le]
  rfl

/-- The sixteen points of a period that is a multiple of 16 (R154). -/
theorem sineLevel_sixteenth {q : Int} {m : Nat} (hq : 0 < q) (hm : m < 16) :
    sineLevel (16 * q) (m * q) = sineLut (256 * m) := by
  have hphase : (m * q : Int) % (16 * q) = m * q :=
    Int.emod_eq_of_lt (by positivity) (mul_lt_mul_of_pos_right (by exact_mod_cast hm) hq)
  have hindex : (m * q * 4096 : Int) = 256 * m * (16 * q) := by ring
  rw [sineLevel_eq (by omega), hphase, hindex, Int.mul_ediv_cancel _ (by omega)]
  congr 1

/-- Settles O33. -/
theorem sineTableIdentities : Obligations.SineTableIdentities := by
  unfold Obligations.SineTableIdentities
  exact ⟨sineLut_zero, sineLut_half, by decide, by decide, fun _ => sineLut_add_half, fun _ => sineLut_mirror,
    fun k _ => sineLut_range k, fun _ _ => sineLevel_sixteenth⟩

/-! ### The ramps (R161 to R165) -/

/-- The part of full scale a ramp has reached inside its duration. -/
theorem rampPart_range {D τ : Int} (hD : 1 ≤ D) (h0 : 0 ≤ τ) (hτ : τ ≤ D) :
    0 ≤ Config.unitLevel * τ / D ∧ Config.unitLevel * τ / D ≤ Config.unitLevel := by
  have hU : 0 ≤ Config.unitLevel := by decide
  exact ⟨Int.ediv_nonneg (mul_nonneg hU h0) (by omega),
    Int.ediv_le_of_le_mul (by omega) (mul_le_mul_of_nonneg_left hτ hU)⟩

theorem rampPart_mono {D σ τ : Int} (hD : 1 ≤ D) (h : σ ≤ τ) :
    Config.unitLevel * σ / D ≤ Config.unitLevel * τ / D :=
  Int.ediv_le_ediv (by omega) (mul_le_mul_of_nonneg_left h (by decide))

/-- RAMP_UP by the quotient of the integers (R161). -/
theorem rampUpLevel_eq {D : Int} (hD : 1 ≤ D) (τ : Int) : rampUpLevel D τ =
    if τ ≤ 0 then 0 else if D ≤ τ then Config.unitLevel else Config.unitLevel * τ / D := by
  rw [rampUpLevel, fdiv_eq_ediv _ (by omega)]

/-- RAMP_DOWN is what RAMP_UP leaves of full scale (R164). -/
theorem rampDownLevel_eq (D τ : Int) :
    rampDownLevel D τ = Config.unitLevel - rampUpLevel D τ := by
  rw [rampUpLevel, rampDownLevel]
  split_ifs <;> ring

theorem rampUpLevel_mono {D σ τ : Int} (hD : 1 ≤ D) (h : σ ≤ τ) : rampUpLevel D σ ≤ rampUpLevel D τ := by
  have hU : 0 ≤ Config.unitLevel := by decide
  rw [rampUpLevel_eq hD, rampUpLevel_eq hD]
  split_ifs with hσ hτ hτD hτ' hσD hτD' hτ0 hτD'' <;> try omega
  · exact (rampPart_range hD (by omega) (by omega)).1
  · exact (rampPart_range hD (by omega) (by omega)).2
  · exact rampPart_mono hD h

theorem rampUpLevel_range {D : Int} (hD : 1 ≤ D) (τ : Int) :
    0 ≤ rampUpLevel D τ ∧ rampUpLevel D τ ≤ Config.unitLevel := by
  have hU : 0 ≤ Config.unitLevel := by decide
  rw [rampUpLevel_eq hD]
  split_ifs with h0 hτ
  · exact ⟨le_rfl, hU⟩
  · exact ⟨hU, le_rfl⟩
  · exact rampPart_range hD (by omega) (by omega)

/-- Settles O35. RAMP_DOWN is full scale less RAMP_UP, which never falls. -/
theorem rampsComplementAndMonotone : Obligations.RampsComplementAndMonotone := by
  unfold Obligations.RampsComplementAndMonotone
  intro D σ τ hD
  rw [rampDownLevel_eq, rampDownLevel_eq]
  exact ⟨add_sub_cancel _ _, fun h => ⟨rampUpLevel_mono hD h, sub_le_sub_left (rampUpLevel_mono hD h) _⟩⟩

/-! ### The channel's check (R148, R149) -/

theorem kindOf_eq_none {w : Word} (h : 7 ≤ w.toNat) : kindOf w = none := by
  have hne (k : Word) (hk : k.toNat < 7) : w ≠ k := by rintro rfl; omega
  simp only [kindOf, hne 0 (by decide), hne 1 (by decide), hne 2 (by decide), hne 3 (by decide), hne 4 (by decide),
    hne 5 (by decide), hne 6 (by decide), if_false]

theorem kindOf_eq_buffer_iff (w : Word) : kindOf w = some .buffer ↔ w = 6 := by
  refine ⟨fun h => ?_, fun h => h ▸ kindOf_code .buffer⟩
  by_contra hw
  rw [kindOf, if_neg hw] at h
  split_ifs at h <;> cases h

section
variable {d : Channel} (c : Nat)

/-- A kind whose parameter is a period or a duration, which is positive. -/
theorem checkChannel_positive (hsrc : d.src = 1 ∨ d.src = 3 ∨ d.src = 4 ∨ d.src = 5) : checkChannel c d =
    if d.param.toInt < 1 then some (badParameter (.ch c .param) d.param) else none := by
  rcases hsrc with h | h | h | h <;> rw [checkChannel, h] <;> rfl

/-- PULSE, whose width is not negative. -/
theorem checkChannel_pulse (hsrc : d.src = 2) : checkChannel c d =
    if d.param.toInt < 0 then some (badParameter (.ch c .param) d.param) else none := by
  rw [checkChannel, hsrc]; rfl

theorem checkChannel_of_buffer (hsrc : d.src = 6) : checkChannel c d =
    if d.bufWidth.toNat ∉ [1, 2, 3, 4, 6, 8] then some (badParameter (.ch c .bufWidth) d.bufWidth)
    else if d.bufPeriod.toInt < 1 then some (badParameter (.ch c .bufPeriod) d.bufPeriod)
    else if 2 ^ 64 < d.bufBase.toNat + d.bufLen.toNat then some (badParameter (.ch c .bufLen) d.bufLen)
    else none := by
  have hfits : (!d.bufRegion.fits) = true ↔ 2 ^ 64 < d.bufBase.toNat + d.bufLen.toNat := by
    rw [Bool.not_eq_true', ← Bool.not_eq_true, Region.fits_iff]
    exact not_le
  have hkind : kindOf d.src = some .buffer := (kindOf_eq_buffer_iff d.src).mpr hsrc
  simp only [checkChannel, hkind, hfits]
  rfl

theorem checkChannel_none (hsrc : d.src = 0) : checkChannel c d = none := by
  rw [checkChannel, hsrc]; rfl

theorem checkChannel_reserved (hsrc : 7 ≤ d.src.toNat) :
    checkChannel c d = some (badParameter (.ch c .src) d.src) := by
  simp only [checkChannel, kindOf_eq_none hsrc]

end

theorem badParameter_channel (c : Nat) (q : ChReg) (v : Word) :
    badParameter (.ch c q) v = ⟨.badParameter, BitVec.ofNat 64 (0x100 + 0x40 * c + 8 * q.slot), v⟩ := by
  have hoff : (Reg.ch c q).offset = 0x100 + 0x40 * c + 8 * q.slot := by simp only [Reg.offset, Reg.slot]; omega
  rw [badParameter, Reg.offWord, hoff]

/-- Settles O14. Each kind's check is one equation, whose conditions decide it. -/
theorem channelChecksInOrder : Obligations.ChannelChecksInOrder := by
  unfold Obligations.ChannelChecksInOrder
  intro c d _
  refine ⟨fun h => ?_, fun h hp => ?_, fun h hp => ?_, fun h hw => ?_, fun h hw hp => ?_, fun h hw hp hl => ?_,
    checkChannel_none c, fun h hp => ?_, fun h hp => ?_, fun h hw hp hl => ?_⟩
  · exact (checkChannel_reserved c h).trans (congrArg some (badParameter_channel c .src d.src))
  · rw [checkChannel_positive c h, if_pos hp, badParameter_channel]; rfl
  · rw [checkChannel_pulse c h, if_pos hp, badParameter_channel]; rfl
  · rw [checkChannel_of_buffer c h, if_pos hw, badParameter_channel]; rfl
  · rw [checkChannel_of_buffer c h, if_neg (not_not.mpr hw), if_pos hp, badParameter_channel]; rfl
  · rw [checkChannel_of_buffer c h, if_neg (not_not.mpr hw), if_neg hp.not_gt, if_pos hl, badParameter_channel]; rfl
  · rw [checkChannel_positive c h, if_neg hp.not_gt]
  · rw [checkChannel_pulse c h, if_neg hp.not_gt]
  · rw [checkChannel_of_buffer c h, if_neg (not_not.mpr hw), if_neg hp.not_gt, if_neg hl.not_gt]

/-- Every error of a channel's check is BAD_PARAMETER. -/
theorem checkChannel_code {c : Nat} {d : Channel} {e : Raise} (h : checkChannel c d = some e) :
    e.code = .badParameter := by
  unfold checkChannel at h
  split at h <;> try split_ifs at h
  all_goals cases h <;> rfl

/-! ### The level of each kind (R150 to R164) -/

/-- A period or a duration that passed its check is positive. -/
theorem param_pos_of_check {c : Nat} {d : Channel} (hcheck : checkChannel c d = none)
    (hsrc : d.src = 1 ∨ d.src = 3 ∨ d.src = 4 ∨ d.src = 5) : 1 ≤ d.param.toInt := by
  rw [checkChannel_positive c hsrc] at hcheck
  split_ifs at hcheck with hp
  exact not_lt.mp hp

section
variable (s : State) {d : Channel} (τ : Int)

theorem srcLevel_none (h : d.src = 0) : srcLevel s d τ = .ok 0 := by
  rw [srcLevel, h]; rfl

theorem srcLevel_sine (h : d.src = 1) : srcLevel s d τ = .ok (sineLevel (s64 d.param) τ) := by
  rw [srcLevel, h]; rfl

theorem srcLevel_pulse (h : d.src = 2) : srcLevel s d τ = .ok (pulseLevel (s64 d.param) τ) := by
  rw [srcLevel, h]; rfl

theorem srcLevel_square (h : d.src = 3) : srcLevel s d τ = .ok (squareLevel (s64 d.param) τ) := by
  rw [srcLevel, h]; rfl

theorem srcLevel_rampUp (h : d.src = 4) : srcLevel s d τ = .ok (rampUpLevel (s64 d.param) τ) := by
  rw [srcLevel, h]; rfl

theorem srcLevel_rampDown (h : d.src = 5) : srcLevel s d τ = .ok (rampDownLevel (s64 d.param) τ) := by
  rw [srcLevel, h]; rfl

end

/-- Settles O36. A positive period makes floor division the quotient of the integers. -/
theorem sourceLevelFormulas : Obligations.SourceLevelFormulas := by
  unfold Obligations.SourceLevelFormulas
  intro s c d τ hcheck
  have hpos := param_pos_of_check hcheck
  refine ⟨srcLevel_none s τ, fun h => ?_, srcLevel_pulse s τ, fun h => ?_, fun h => ?_, fun h => ?_⟩
  · have hP := hpos (by simp [h])
    rw [srcLevel_sine s τ h, s64, sineLevel_eq (by omega)]
  · have hP := hpos (by simp [h])
    rw [srcLevel_square s τ h, s64, squareLevel, emod_eq_emod τ (by omega)]
    rfl
  · have hP := hpos (by simp [h])
    rw [srcLevel_rampUp s τ h, s64, rampUpLevel_eq hP]
    rfl
  · have hP := hpos (by simp [h])
    rw [srcLevel_rampDown s τ h, s64, rampDownLevel, fdiv_eq_ediv _ (by omega)]
    rfl

/-! ### The range of a level (40_numeric.md R121) -/

theorem sext_range {n v : Nat} (hn : 0 < n) (hv : v < 2 ^ n) :
    -2 ^ (n - 1) ≤ sext n v ∧ sext n v < 2 ^ (n - 1) := by
  obtain ⟨m, rfl⟩ : ∃ m, n = m + 1 := ⟨n - 1, by omega⟩
  rw [Nat.add_sub_cancel]
  have hv' : (v : Int) < 2 ^ m * 2 := by rw [pow_succ] at hv; exact_mod_cast hv
  rw [sext, pow_succ 2 m, pow_succ 2 m]
  split
  · next h =>
    have h' : 2 * (v : Int) < 2 ^ m * 2 := by exact_mod_cast h
    omega
  · next h =>
    have h' : ¬ 2 * (v : Int) < 2 ^ m * 2 := by exact_mod_cast h
    omega

/-- A sample of W bytes has a 64-bit level. -/
theorem dequantise_range {W : Nat} {bs : List Byte} (hW : W ∈ Config.widths) (hlen : bs.length = W) :
    -2 ^ 63 ≤ dequantise bs W ∧ dequantise bs W < 2 ^ 63 := by
  have hscale {s : Int} (h : -2 ^ (8 * W - 1) ≤ s ∧ s < 2 ^ (8 * W - 1)) :
      -2 ^ 63 ≤ s * 2 ^ shiftAmount W ∧ s * 2 ^ shiftAmount W < 2 ^ 63 := by
    have hk : (0 : Int) < 2 ^ shiftAmount W := by positivity
    have hexp : 8 * W - 1 + shiftAmount W = 63 := by
      rw [mem_widths] at hW; simp only [shiftAmount, Config.levelBits]; omega
    rw [← hexp, pow_add, ← neg_mul]
    exact ⟨mul_le_mul_of_nonneg_right h.1 hk.le, mul_lt_mul_of_pos_right h.2 hk⟩
  by_cases h1 : W = 1
  · subst h1
    obtain ⟨b, rfl⟩ := List.length_eq_one_iff.mp hlen
    have hb := b.isLt
    rw [dequantise_one]
    exact hscale ⟨by norm_num, by norm_num; omega⟩
  · rw [dequantise_of_ne_one bs h1]
    refine hscale (sext_range (by have := width_pos hW; omega) ?_)
    have := uLE_lt bs
    rwa [hlen, show 256 = 2 ^ 8 by rfl, ← pow_mul] at this

theorem bufferLevel_range {s : State} {d : Channel} {τ v : Int} (hW : d.bufWidth.toNat ∈ Config.widths)
    (h : bufferLevel s d τ = .ok v) : -2 ^ 63 ≤ v ∧ v < 2 ^ 63 := by
  unfold bufferLevel at h
  split at h
  · split at h
    · next bs hbs =>
      cases h
      exact dequantise_range hW (by rw [(dmaRead_length hbs).2, List.length_map, List.length_range])
    · cases h
  · cases h; decide

/-- The level of a kind that is not BUFFER lies within full scale. -/
theorem srcLevel_range_of_generator {s : State} {c : Nat} {d : Channel} {τ v : Int}
    (hcheck : checkChannel c d = none) (hsrc : d.src ≠ 6) (h : srcLevel s d τ = .ok v) :
    -Config.unitLevel ≤ v ∧ v ≤ Config.unitLevel := by
  have hpos := param_pos_of_check hcheck
  have hU : 0 ≤ Config.unitLevel := by decide
  have hlt : d.src.toNat < 7 := by
    by_contra hge
    rw [checkChannel_reserved c (not_lt.mp hge)] at hcheck
    cases hcheck
  have hkinds : d.src = 0 ∨ d.src = 1 ∨ d.src = 2 ∨ d.src = 3 ∨ d.src = 4 ∨ d.src = 5 := by bv_omega
  rcases hkinds with hk | hk | hk | hk | hk | hk
  · rw [srcLevel_none s τ hk] at h; cases h; decide
  · rw [srcLevel_sine s τ hk] at h; cases h
    exact sineLut_range _
  · rw [srcLevel_pulse s τ hk] at h; cases h
    unfold pulseLevel
    split <;> omega
  · rw [srcLevel_square s τ hk] at h; cases h
    unfold squareLevel
    split <;> omega
  · rw [srcLevel_rampUp s τ hk] at h; cases h
    have := rampUpLevel_range (hpos (by simp [hk])) τ
    simp only [s64]; omega
  · rw [srcLevel_rampDown s τ hk] at h; cases h
    have := rampUpLevel_range (hpos (by simp [hk])) τ
    rw [s64, rampDownLevel_eq]; omega

/-- Settles O38. A generator is within full scale, a buffer's sample within 64 bits. -/
theorem levelsInRange : Obligations.LevelsInRange := by
  unfold Obligations.LevelsInRange
  intro s c d τ v hcheck h
  by_cases hsrc : d.src = 6
  · have hkind := (kindOf_eq_buffer_iff d.src).mpr hsrc
    obtain ⟨hW, -, -⟩ := (checkChannel_buffer_iff c hkind).mp hcheck
    rw [srcLevel_buffer s hkind] at h
    have := bufferLevel_range hW h
    exact ⟨this.1, by omega, fun hne => absurd hsrc hne⟩
  · have := srcLevel_range_of_generator hcheck hsrc h
    rw [show Config.unitLevel = 2 ^ 63 - 1 by decide] at this
    exact ⟨by omega, this.2, fun _ => this.1⟩

/-! ### The copy path (43_encode.md R198) -/

theorem quantise_dequantise {W : Nat} {bs : List Byte} (hW : W ∈ Config.widths) (hlen : bs.length = W) :
    quantise (dequantise bs W) W = bs :=
  quantiseOfDequantise W bs hW hlen

/-- Settles O20. With the delay a multiple of the period, the source time of sample i selects the buffer's sample
i − d, whose bytes survive Dq and Q. -/
theorem shortcutCopiesBytes : Obligations.ShortcutCopiesBytes := by
  unfold Obligations.ShortcutCopiesBytes
  rintro s c P W i hsrc rfl hW hP hperiod ⟨q, hq⟩ hlo hhi hanswer
  have hP' : (P : Int) ≠ 0 := by exact_mod_cast hP.ne'
  have hd : (s.ch c).delay.toInt / P = q := by rw [hq, Int.mul_ediv_cancel_left _ hP']
  have htime : sourceTime (s.ch c) ((i * P : Nat) : Int) = (i - q) * P := by
    rw [sourceTime, s64_u64_of_fits] <;> push_cast <;> simp only [s64]
    · rw [hq]; ring
    · exact hlo
    · exact hhi
  have hindex : (i - q : Int) * P / (s.ch c).bufPeriod.toInt = i - q := by
    rw [hperiod, Int.mul_ediv_cancel _ hP']
  have hBP : 0 ≤ (s.ch c).bufPeriod.toInt := by rw [hperiod]; positivity
  rw [hd, chanLevel, htime, srcLevel_buffer s ((kindOf_eq_buffer_iff _).mpr hsrc)]
  by_cases hin : 0 ≤ (i - q : Int) ∧ (i - q : Int) < ((s.ch c).bufLen.toNat / (s.ch c).bufWidth.toNat : Nat)
  · have hsample := bufferSample_of_inside (d := s.ch c) (τ := (i - q) * P) hBP (by rw [hindex]; exact hin.1)
      (by rw [hindex]; exact hin.2)
    rw [hindex] at hsample
    obtain ⟨hbase, hend⟩ := bufferSample_inside hsample
    refine ⟨_, bufferLevel_of_answer hsample fun y h1 h2 => hanswer y (by omega) (by omega), fun _ => ?_,
      fun hout => absurd hin hout⟩
    exact quantise_dequantise hW (by rw [List.length_map, List.length_range])
  · have hsample := bufferSample_of_outside (d := s.ch c) (τ := (i - q) * P) hBP (by rw [hindex]; exact hin)
    exact ⟨0, bufferLevel_of_none s hsample, fun h => absurd h hin, fun _ => rfl⟩

end Sys2Proof.Machine

/-! PROOFS. GEN_EVAL whole and its errors (45_control.md R256). -/

namespace Sys2Proof.Machine

/-! ### What completion leaves (60_exceptions.md R275, R276) -/

/-- A completion without error, from a state with the status of s. -/
theorem completesWith_none {s u : State} (h : u.status = s.status) : completesWith s (complete none u) 0 0 0 :=
  ⟨rfl, by rw [complete_status, h]; rfl, rfl⟩

/-- A completion with an error, from a state with the status of s. -/
theorem completesWith_some {s u : State} (e : Raise) (h : u.status = s.status) :
    completesWith s (complete (some e) u) e.code.toWord e.info0 e.info1 :=
  ⟨rfl, by rw [complete_status, h, decide_eq_true (errorCode_range e.code).2]; rfl, rfl⟩

/-! ### GEN_EVAL -/

theorem chanLevel_mark (s : State) (rs : List Region) (c : Nat) (t : Int) :
    chanLevel (s.markRegions rs) c t = chanLevel s c t :=
  chanLevel_congr (s := s) (t := s.markRegions rs) rfl rfl (fun _ _ _ => rfl) t

section
variable {s : State} {ch : BitVec 8} {w : BitVec 4}

theorem genEvalRun_of_bad_channel (w : BitVec 4) (hch : ¬ch.toNat < 8) :
    genEvalRun ch w s = illegalRun (genEvalWord ch w) s :=
  if_pos (not_lt.mp hch)

theorem genEvalRun_of_bad_width (hch : ch.toNat < 8) (hw : w.toNat ∉ [1, 2, 3, 4, 6, 8]) :
    genEvalRun ch w s = complete (some ⟨.unsupportedSampleWidth, Reg.cmd.offWord, BitVec.ofNat 64 w.toNat⟩) s :=
  (if_neg hch.not_ge).trans (if_pos hw)

/-- Past the first two checks, what decides is the descriptor's check and then the level. -/
theorem genEvalRun_of_operands (hch : ch.toNat < 8) (hw : w.toNat ∈ [1, 2, 3, 4, 6, 8]) :
    (∀ e, checkChannel ch.toNat (s.ch ch.toNat) = some e → genEvalRun ch w s = complete (some e) s) ∧
    (checkChannel ch.toNat (s.ch ch.toNat) = none →
      (∀ x, chanLevel s ch.toNat (s64 s.cfg.evalTime) = .error x → genEvalRun ch w s =
        complete (some (busError x (x - (s.ch ch.toNat).bufBase.toNat)))
          (s.markRegions (evalTouched s ch.toNat))) ∧
      (∀ v, chanLevel s ch.toNat (s64 s.cfg.evalTime) = .ok v → genEvalRun ch w s =
        complete none ((s.markRegions (evalTouched s ch.toNat)).setEval
          ⟨u64 v, BitVec.ofNat 64 (uLE (quantise v w.toNat))⟩))) := by
  have hch' : ¬Config.nCh ≤ ch.toNat := hch.not_ge
  have hw' : w.toNat ∈ Config.widths := hw
  refine ⟨fun e he => ?_, fun hnone => ⟨fun x hx => ?_, fun v hv => ?_⟩⟩
  · simp only [genEvalRun, hch', hw', not_true_eq_false, if_false, he]
  · simp only [genEvalRun, hch', hw', not_true_eq_false, if_false, hnone, chanLevel_mark, hx]
  · simp only [genEvalRun, hch', hw', not_true_eq_false, if_false, hnone, chanLevel_mark, hv]

end

/-- The bytes of a sample as one number fit a register. -/
theorem uLE_quantise_lt (v : Int) {W : Nat} (hW : W ∈ Config.widths) : uLE (quantise v W) < 2 ^ 64 := by
  have hlt := uLE_lt (quantise v W)
  rw [quantise_length] at hlt
  exact hlt.trans_le (Nat.pow_le_pow_right (by decide) (width_le_eight hW))

/-- Settles O28. With nothing to mark, all that is written is the result. -/
theorem genEvalGivesLevel : Obligations.GenEvalGivesLevel := by
  unfold Obligations.GenEvalGivesLevel
  intro s ch w v hch hw hcheck hdefined hlevel
  have hrun := ((genEvalRun_of_operands hch hw).2 hcheck).2 v hlevel
  rw [markRegions_of_defined hdefined s rfl] at hrun
  refine ⟨_, congrArg Host.Outcome.next hrun, completesWith_none rfl, rfl, ?_, rfl, rfl, rfl, rfl, keepsSetup_refl s, rfl, rfl⟩
  exact (BitVec.toNat_ofNat _ _).trans (Nat.mod_eq_of_lt (uLE_quantise_lt v hw))

/-- GEN_EVAL's word as a number (30_encoding.md R97). -/
theorem genEvalWord_toNat (ch : BitVec 8) (w : BitVec 4) :
    (genEvalWord ch w).toNat = w.toNat * 65536 + ch.toNat * 256 + 3 := by
  have hch := ch.isLt
  simp only [genEvalWord, BitVec.toNat_append]
  rw [← Nat.shiftLeft_add_eq_or_of_lt w.isLt, ← Nat.shiftLeft_add_eq_or_of_lt hch,
    ← Nat.shiftLeft_add_eq_or_of_lt (by decide : (3 : BitVec 8).toNat < 2 ^ 8)]
  simp only [Nat.shiftLeft_eq, BitVec.ofNat_eq_ofNat, BitVec.toNat_ofNat]
  omega

/-- Settles O29. Each error's completion follows the marks, if any, and leaves the results. -/
theorem genEvalErrorsInOrder : Obligations.GenEvalErrorsInOrder := by
  unfold Obligations.GenEvalErrorsInOrder
  intro s ch w
  have stops (e : Raise) (rs : List Region) (hrun : genEvalRun ch w s = complete (some e) (s.markRegions rs)) :
      ∃ t, exec (.genEval ch w) s = .next t ∧ completesWith s t e.code.toWord e.info0 e.info1 ∧ t.eval = s.eval ∧
        t.mem = s.mem ∧ t.enc = s.enc ∧ t.dec = s.dec ∧ keepsSetup s t ∧ keepsDraws s t :=
    ⟨_, congrArg Host.Outcome.next hrun, completesWith_some e rfl, rfl, rfl, rfl, rfl, keepsSetup_refl s, rfl, rfl⟩
  have hunmarked : s.markRegions [] = s := by simp [State.markRegions]
  have hword : genEvalWord ch w = BitVec.ofNat 64 (w.toNat * 65536 + ch.toNat * 256 + 3) := by
    rw [← genEvalWord_toNat, BitVec.ofNat_toNat, BitVec.setWidth_eq]
  refine ⟨fun hch => ?_, fun hch hw => ?_, fun e hch hw he => ?_, fun x hch hw hcheck hx => ?_⟩
  · exact stops ⟨.illegalCommand, Reg.cmd.offWord, BitVec.ofNat 64 (w.toNat * 65536 + ch.toNat * 256 + 3)⟩ [] (by
      rw [hunmarked, genEvalRun_of_bad_channel w hch, illegalRun, hword])
  · exact stops ⟨.unsupportedSampleWidth, Reg.cmd.offWord, BitVec.ofNat 64 w.toNat⟩ [] (by
      rw [hunmarked, genEvalRun_of_bad_width hch hw])
  · exact stops e [] (by rw [hunmarked, (genEvalRun_of_operands hch hw).1 e he])
  · exact stops (busError x _) _ (((genEvalRun_of_operands hch hw).2 hcheck).1 x hx)

end Sys2Proof.Machine

/-! PROOFS. The checks of ENCODE (43_encode.md R187) as one equation in the order of the rules. -/

namespace Sys2Proof.Machine

/-! ### The first channel with an error -/

/-- The first index at which a search finds something. -/
theorem findSome?_range_of_first {α : Type} {f : Nat → Option α} {n c : Nat} {e : α} (hc : c < n)
    (hbefore : ∀ c', c' < c → f c' = none) (he : f c = some e) : (List.range n).findSome? f = some e := by
  induction n with
  | zero => omega
  | succ n ih =>
    rw [List.range_succ, List.findSome?_append]
    rcases Nat.eq_or_lt_of_le (Nat.le_of_lt_succ hc) with rfl | hlt
    · have hnone : (List.range c).findSome? f = none :=
        List.findSome?_eq_none_iff.mpr fun x hx => hbefore x (List.mem_range.mp hx)
      simp [hnone, he]
    · rw [ih hlt, Option.some_or]

theorem findSome?_range_eq_none_iff {α : Type} {f : Nat → Option α} {n : Nat} :
    (List.range n).findSome? f = none ↔ ∀ c, c < n → f c = none := by
  simp only [List.findSome?_eq_none_iff, List.mem_range]

/-- A used buffer meets the output, which is never empty. -/
theorem overlap_iff (p : EncodeParams) (d : Channel) :
    (kindOf d.src = some .buffer ∧ p.output.overlaps d.bufRegion = true) ↔
      (d.src = 6 ∧ 0 < d.bufLen.toNat ∧ p.outBase < d.bufBase.toNat + d.bufLen.toNat ∧
        d.bufBase.toNat < p.outBase + p.total) := by
  have hpos : 0 < p.total := by simp only [EncodeParams.total]; omega
  rw [kindOf_eq_buffer_iff, Region.overlaps_iff]
  simp only [EncodeParams.output, Channel.bufRegion, hpos, true_and]

/-! ### The checks in order -/

/-- `check_encode()`, with each condition as the rule has it. -/
theorem checkEncode_eq {s : State} {p : EncodeParams} (hp : encodeParams s = p) :
    checkEncode s =
      if ¬p.width ∈ [1, 2, 3, 4, 6, 8] then some ⟨.unsupportedSampleWidth, 0x058, s.cfg.encWidth⟩
      else if ¬(1 ≤ p.channels ∧ p.channels ≤ 8) then some ⟨.unsupportedFormat, 0x050, s.cfg.encChannels⟩
      else if ¬(1 ≤ p.rate ∧ p.rate ≤ 1000000000) then some ⟨.badParameter, 0x060, s.cfg.encRate⟩
      else if ¬0 ≤ s.cfg.encLength.toInt then some ⟨.badParameter, 0x068, s.cfg.encLength⟩
      else if ¬p.rate * p.channels * p.width ≤ 4294967295 then some ⟨.badParameter, 0x060, s.cfg.encRate⟩
      else if ¬36 + p.samples * p.channels * p.width ≤ 4294967295 then some ⟨.badParameter, 0x068, s.cfg.encLength⟩
      else (firstBadChannel s p.channels).or
        (if s.cfg.outLen.toNat < p.total then some ⟨.badParameter, 0x078, s.cfg.outLen⟩
        else if 2 ^ 64 < p.outBase + p.total then some ⟨.badParameter, 0x070, s.cfg.outBase⟩
        else firstOverlap s p.channels p.output) := by
  have hchannels : (p.channels = 0 ∨ Config.nCh < p.channels) ↔ ¬(1 ≤ p.channels ∧ p.channels ≤ 8) := by
    simp only [Config.nCh]; omega
  have hrate : (p.rate = 0 ∨ min Config.unitTime (2 ^ 32 - 1) < p.rate) ↔ ¬(1 ≤ p.rate ∧ p.rate ≤ 1000000000) := by
    simp only [Config.unitTime]; omega
  have hlength : s64 s.cfg.encLength < 0 ↔ ¬0 ≤ s.cfg.encLength.toInt := not_le.symm
  have hbyteRate : 2 ^ 32 - 1 < p.rate * p.channels * p.width ↔ ¬p.rate * p.channels * p.width ≤ 4294967295 :=
    not_le.symm
  have hdata : 2 ^ 32 - 1 < 36 + p.dataLen ↔ ¬36 + p.samples * p.channels * p.width ≤ 4294967295 := not_le.symm
  have hfits : (!p.output.fits) = true ↔ 2 ^ 64 < p.outBase + p.total := by
    rw [Bool.not_eq_true', ← Bool.not_eq_true, Region.fits_iff]; exact not_le
  simp only [checkEncode, hchannels, hrate, hlength, hbyteRate, hdata, hfits, hp]
  cases firstBadChannel s p.channels <;> rfl

theorem check_eq_none_iff {c : Prop} [Decidable c] {e : Raise} {rest : Option Raise} :
    (if c then some e else rest) = none ↔ ¬c ∧ rest = none := by
  split_ifs with h <;> simp [h]

theorem firstBadChannel_eq_none_iff (s : State) (C : Nat) :
    firstBadChannel s C = none ↔ ∀ c, c < C → checkChannel c (s.ch c) = none :=
  findSome?_range_eq_none_iff

theorem firstOverlap_eq_none_iff (s : State) (C : Nat) (out : Region) :
    firstOverlap s C out = none ↔ ∀ c, c < C → (s.ch c).src = 6 → out.overlaps (s.ch c).bufRegion = false := by
  simp only [firstOverlap, findSome?_range_eq_none_iff, check_eq_none_iff, kindOf_eq_buffer_iff, and_true, not_and,
    Bool.not_eq_true]

/-- Settles O12. The equation's conditions are the conjuncts, and a search over the channels finds nothing exactly
when no channel has anything to find. -/
theorem encodeChecksExact : Obligations.EncodeChecksExact := by
  unfold Obligations.EncodeChecksExact
  intro s
  simp only [checkEncode_eq rfl, check_eq_none_iff, not_not, Option.or_eq_none_iff, firstBadChannel_eq_none_iff,
    firstOverlap_eq_none_iff, not_lt, and_assoc]
  rfl

/-- Settles O13. The conditions of a clause decide the equation up to its check. -/
theorem encodeFirstErrors : Obligations.EncodeFirstErrors := by
  unfold Obligations.EncodeFirstErrors
  intro s p stops c1 c2 c3 c4 c5 c6 total out passes meets
  have hstops (e : Raise) (h : checkEncode s = some e) : stops e.code.toWord e.info0 e.info1 :=
    congrArg Host.Outcome.next (encodeRun_of_error h)
  have heq := checkEncode_eq (s := s) (p := p) rfl
  have hmeets (c : Nat) : (if kindOf (s.ch c).src = some .buffer ∧ p.output.overlaps (s.ch c).bufRegion = true then
      some (badParameter (.ch c .bufBase) (s.ch c).bufBase) else none) =
      if meets c then some (badParameter (.ch c .bufBase) (s.ch c).bufBase) else none :=
    if_congr (overlap_iff p (s.ch c)) rfl rfl
  refine ⟨fun h1 => ?_, fun h1 h2 => ?_, fun h1 h2 h3 => ?_, fun h1 h2 h3 h4 => ?_, fun h1 h2 h3 h4 h5 => ?_,
    fun h1 h2 h3 h4 h5 h6 => ?_, fun h1 h2 h3 h4 h5 h6 => ?_⟩
  · exact hstops ⟨.unsupportedSampleWidth, 0x058, _⟩ (heq.trans (if_pos h1))
  · rw [if_neg (not_not.mpr h1)] at heq
    exact hstops ⟨.unsupportedFormat, 0x050, _⟩ (heq.trans (if_pos h2))
  · rw [if_neg (not_not.mpr h1), if_neg (not_not.mpr h2)] at heq
    exact hstops ⟨.badParameter, 0x060, _⟩ (heq.trans (if_pos h3))
  · rw [if_neg (not_not.mpr h1), if_neg (not_not.mpr h2), if_neg (not_not.mpr h3)] at heq
    exact hstops ⟨.badParameter, 0x068, _⟩ (heq.trans (if_pos h4))
  · rw [if_neg (not_not.mpr h1), if_neg (not_not.mpr h2), if_neg (not_not.mpr h3), if_neg (not_not.mpr h4)] at heq
    exact hstops ⟨.badParameter, 0x060, _⟩ (heq.trans (if_pos h5))
  · rw [if_neg (not_not.mpr h1), if_neg (not_not.mpr h2), if_neg (not_not.mpr h3), if_neg (not_not.mpr h4),
      if_neg (not_not.mpr h5)] at heq
    exact hstops ⟨.badParameter, 0x068, _⟩ (heq.trans (if_pos h6))
  · rw [if_neg (not_not.mpr h1), if_neg (not_not.mpr h2), if_neg (not_not.mpr h3), if_neg (not_not.mpr h4),
      if_neg (not_not.mpr h5), if_neg (not_not.mpr h6)] at heq
    refine ⟨fun c e hc hbefore he => ?_, fun hpass => ?_⟩
    · have hfirst : firstBadChannel s p.channels = some e := findSome?_range_of_first hc hbefore he
      exact hstops e (by rw [heq, hfirst, Option.some_or])
    · have hnone : firstBadChannel s p.channels = none := findSome?_range_eq_none_iff.mpr hpass
      rw [hnone, Option.none_or] at heq
      refine ⟨fun hlen => ?_, fun hlen hbase => ?_, fun hlen hbase c hc hbefore hc' => ?_⟩
      · exact hstops ⟨.badParameter, 0x078, _⟩ (heq.trans (if_pos hlen))
      · rw [if_neg (by exact hlen.not_gt)] at heq
        exact hstops ⟨.badParameter, 0x070, _⟩ (heq.trans (if_pos hbase))
      · rw [if_neg (by exact hlen.not_gt), if_neg (by exact hbase.not_gt)] at heq
        have hfirst : firstOverlap s p.channels p.output = some (badParameter (.ch c .bufBase) (s.ch c).bufBase) :=
          findSome?_range_of_first hc (fun c' h => (hmeets c').trans (if_neg (hbefore c' h)))
            ((hmeets c).trans (if_pos hc'))
        rw [badParameter_channel] at hfirst
        exact hstops _ (heq.trans hfirst)

end Sys2Proof.Machine

/-! PROOFS. What ENCODE leaves (43_encode.md R189 to R201): which way its stream ends is decided by the first fault in
stream order, and every byte and level before that end is there. -/

namespace Sys2Proof.Machine

/-! ### Samples and their numbers (R196) -/

theorem sampleNumber_mod {i c C : Nat} (hc : c < C) : (i * C + c) % C = c := by
  rw [Nat.mul_comm, Nat.mul_add_mod, Nat.mod_eq_of_lt hc]

theorem sampleNumber_div {i c C : Nat} (hc : c < C) : (i * C + c) / C = i := by
  rw [Nat.mul_comm, Nat.mul_add_div (by omega), Nat.div_eq_of_lt hc, Nat.add_zero]

theorem sampleNumber_lt {i c N C : Nat} (hi : i < N) (hc : c < C) : i * C + c < N * C := by
  have := Nat.mul_le_mul_right C (show i + 1 ≤ N from hi)
  rw [Nat.add_mul, Nat.one_mul] at this
  omega

theorem sampleNumber_of_div_mod (j C : Nat) : j / C * C + j % C = j := by
  rw [Nat.mul_comm, Nat.div_add_mod]

/-- A later sample begins where an earlier one has ended, or after. -/
theorem sampleEnd_le (W : Nat) {j j' : Nat} (h : j < j') : j * W + W ≤ j' * W := by
  have := Nat.mul_le_mul_right W (show j + 1 ≤ j' from h)
  rwa [Nat.add_mul, Nat.one_mul] at this

/-! ### The levels of channels whose buffers answer -/

/-- A channel whose buffer answers, if it has one, has a level at every time. -/
theorem chanLevel_ok {s : State} {c C : Nat} (hc : c < C) (hC : C ≤ Config.nCh)
    (h : RegionsAnswer s.platform (bufferRegions s C)) (t : Int) : ∃ v, chanLevel s c t = .ok v := by
  unfold chanLevel srcLevel
  split <;> try exact ⟨_, rfl⟩
  next hkind =>
  have hbuffer : AllAnswer s.platform (s.ch c).bufBase.toNat (s.ch c).bufLen.toNat := by
    refine h (s.ch c).bufRegion (List.mem_map.mpr ⟨c, List.mem_filter.mpr ⟨List.mem_range.mpr ?_, ?_⟩, rfl⟩)
    · omega
    · rw [hkind]; rfl
  cases hsample : bufferSample (s.ch c) (sourceTime (s.ch c) t) with
  | none => exact ⟨0, bufferLevel_of_none s hsample⟩
  | some a =>
    obtain ⟨hbase, hend⟩ := bufferSample_inside hsample
    exact ⟨_, bufferLevel_of_answer hsample fun y h1 h2 => hbuffer y (by omega) (by omega)⟩

/-! ### Which way the stream ends (R200) -/

theorem FirstSilent.not_allAnswer {p : Platform} {a n b m x : Nat} (h : FirstSilent p a n x) (hb : b ≤ a)
    (hend : a + n ≤ b + m) : ¬AllAnswer p b m := by
  obtain ⟨h1, h2, hsilent, -⟩ := h
  intro hall
  rw [hall x (by omega) (by omega)] at hsilent
  cases hsilent

section
variable {s : State} {p : EncodeParams} {bytes : Nat} {e : Option Raise}

theorem encodeTotal_eq (p : EncodeParams) : p.total = 44 + p.samples * p.channels * p.width := rfl

/-- Where the output answers and every sample has its level, the stream is written whole. -/
theorem StreamEnd.whole (h : StreamEnd p s bytes e) (hout : AllAnswer s.platform p.outBase p.total)
    (hlevel : ∀ j, j < p.samples * p.channels →
      ∃ v, chanLevel s (j % p.channels) ((j / p.channels * p.period : Nat) : Int) = .ok v) :
    e = none ∧ bytes = p.total := by
  have htotal := encodeTotal_eq p
  cases h with
  | headerFault x hb hx => exact absurd hout (hx.not_allAnswer le_rfl (by omega))
  | samples e hh h =>
    cases h with
    | done hb => exact ⟨rfl, by rw [hb, Nat.zero_add, htotal]⟩
    | readFault j x h1 h2 hb hx =>
      obtain ⟨v, hv⟩ := hlevel j (by omega)
      rw [hx] at hv; cases hv
    | writeFault j x h1 h2 hb hv hx =>
      have := sampleEnd_le p.width (j := j) (j' := p.samples * p.channels) (by omega)
      exact absurd hout (hx.not_allAnswer (by omega) (by omega))

/-- A silent output byte before which, and at which, every sample has its level ends the stream there, the bytes
before it being the first that answer. -/
theorem StreamEnd.at_output {x : Nat} (h : StreamEnd p s bytes e) (hx : FirstSilent s.platform p.outBase p.total x)
    (hanswer : ∀ y, p.outBase ≤ y → y < p.outBase + bytes → s.platform.memOK y = true)
    (hlevel : ∀ j, 44 + j * p.width ≤ x - p.outBase →
      ∃ v, chanLevel s (j % p.channels) ((j / p.channels * p.period : Nat) : Int) = .ok v) :
    bytes = x - p.outBase ∧ e = some (busError x bytes) := by
  have htotal := encodeTotal_eq p
  obtain ⟨h1, h2, hsilent, hbefore⟩ := hx
  have hle : bytes ≤ x - p.outBase := by
    by_contra hgt
    rw [hanswer x h1 (by omega)] at hsilent
    cases hsilent
  have hfirst {y : Nat} (hy1 : p.outBase ≤ y) (hyx : y - p.outBase ≤ x - p.outBase)
      (hy : s.platform.memOK y = false) : y = x := by
    rcases Nat.eq_or_lt_of_le (show y ≤ x by omega) with heq | hlt
    · exact heq
    · rw [hbefore y hy1 hlt] at hy; cases hy
  cases h with
  | headerFault y hb hy =>
    obtain ⟨hy1, -, hysilent, -⟩ := hy
    have hyx : y = x := hfirst hy1 (by omega) hysilent
    exact ⟨by rw [hb, hyx], by rw [hyx]⟩
  | samples e hh h =>
    cases h with
    | done hb => rw [Nat.zero_add] at hb; omega
    | readFault j y hj1 hj2 hb hy =>
      obtain ⟨v, hv⟩ := hlevel j (by omega)
      rw [hy] at hv; cases hv
    | writeFault j y hj1 hj2 hb hv hy =>
      obtain ⟨hy1, -, hysilent, -⟩ := hy
      have hyx : y = x := hfirst (by omega) (by omega) hysilent
      exact ⟨by rw [hb, hyx], by rw [hyx]⟩

/-- A sample whose buffer read meets a silent address ends the stream before it, when the bytes before it answer and
the samples before it have their level. -/
theorem StreamEnd.at_sample {j x : Nat} (h : StreamEnd p s bytes e) (hj : j < p.samples * p.channels)
    (hx : chanLevel s (j % p.channels) ((j / p.channels * p.period : Nat) : Int) = .error x)
    (hout : AllAnswer s.platform p.outBase (44 + j * p.width))
    (hbegun : ∀ i, 44 + i * p.width < bytes →
      ∃ v, chanLevel s (i % p.channels) ((i / p.channels * p.period : Nat) : Int) = .ok v)
    (hlevel : ∀ i, i < j →
      ∃ v, chanLevel s (i % p.channels) ((i / p.channels * p.period : Nat) : Int) = .ok v) (hW : 0 < p.width) :
    bytes = 44 + j * p.width ∧ e = some (busError x bytes) := by
  have hnotBegun : ¬44 + j * p.width < bytes := by
    intro hlt
    obtain ⟨v, hv⟩ := hbegun j hlt
    rw [hx] at hv; cases hv
  cases h with
  | headerFault y hb hy => exact absurd hout (hy.not_allAnswer le_rfl (by omega))
  | samples e hh h =>
    cases h with
    | done hb =>
      have := sampleEnd_le p.width hj
      rw [Nat.zero_add] at hb; omega
    | readFault i y hi1 hi2 hb hy =>
      rcases lt_trichotomy i j with hlt | rfl | hgt
      · obtain ⟨v, hv⟩ := hlevel i hlt
        rw [hy] at hv; cases hv
      · rw [hx] at hy; cases hy
        exact ⟨hb, rfl⟩
      · have := sampleEnd_le p.width hgt; omega
    | writeFault i y hi1 hi2 hb hv hy =>
      rcases lt_trichotomy i j with hlt | rfl | hgt
      · have := sampleEnd_le p.width hlt
        exact absurd hout (hy.not_allAnswer (by omega) (by omega))
      · obtain ⟨v, hv⟩ := hv
        rw [hx] at hv; cases hv
      · have := sampleEnd_le p.width hgt
        have := hy.1
        omega

end

/-! ### ENCODE whole and stopped -/

theorem encode_width_pos {s : State} (hcheck : checkEncode s = none) : 0 < (encodeParams s).width :=
  width_pos (encodeOk_of_check hcheck).width

/-- Where the accesses are defined, ENCODE changes memory and its results and completes. -/
theorem encodeRun_unmarked {s : State} {m : Memory} {r : EncResults} {e : Option Raise} {rs : List Region}
    (hdefined : s.defined rs)
    (hrun : encodeRun s = complete e ((({ s with mem := m } : State).setEnc r).markRegions rs)) :
    encodeRun s = complete e (({ s with mem := m } : State).setEnc r) :=
  hrun.trans (congrArg (complete e) (markRegions_of_defined hdefined _ rfl))

/-- Settles O16. Nothing stops the stream, so that it is written whole; a level is that of its sample's number. -/
theorem encodeWritesStream : Obligations.EncodeWritesStream := by
  unfold Obligations.EncodeWritesStream
  intro s hcheck hdefined hregions
  have ok := encodeOk_of_check hcheck
  obtain ⟨m, bytes, e, hrun, hend, houtside, hstream, -, -, -⟩ := encodeRun_spec hcheck
  set p := encodeParams s with hp
  have hbuffers : RegionsAnswer s.platform (bufferRegions s p.channels) :=
    fun r hr => hregions r (List.mem_cons_of_mem _ hr)
  have hlevel (c : Nat) (hc : c < p.channels) (t : Int) : ∃ v, chanLevel s c t = .ok v :=
    chanLevel_ok hc ok.channels_le hbuffers t
  obtain ⟨rfl, rfl⟩ := hend.whole (hregions p.output List.mem_cons_self)
    (fun j _ => hlevel _ (Nat.mod_lt j ok.channels_pos) _)
  replace hrun := encodeRun_unmarked hdefined hrun
  have htotal := encodeTotal_eq p
  refine ⟨_, congrArg Host.Outcome.next hrun, completesWith_none rfl, rfl, fun k hk => ?_, fun i c hi hc => ?_,
    houtside, keepsSetup_refl s, ⟨rfl, rfl⟩, rfl, rfl, rfl⟩
  · exact (hstream k (by omega)).trans (if_pos hk)
  · obtain ⟨v, hv⟩ := hlevel c hc ((i * p.period : Nat) : Int)
    refine ⟨v, hv, fun k hk => ?_⟩
    have hnumber := sampleNumber_lt hi hc
    have hfits := sampleEnd_le p.width hnumber
    have hbyte := hstream (44 + (i * p.channels + c) * p.width + k) (by omega)
    rw [streamByte_sample hk (v := v) (by rw [sampleNumber_mod hc, sampleNumber_div hc]; exact hv),
      ← Nat.add_assoc] at hbyte
    exact hbyte

/-- Settles O17. The stream ends at the first silent output byte. -/
theorem encodeStopsAtSilentOutput : Obligations.EncodeStopsAtSilentOutput := by
  unfold Obligations.EncodeStopsAtSilentOutput
  intro s x hcheck hdefined hsilent hlevel
  have ok := encodeOk_of_check hcheck
  obtain ⟨m, bytes, e, hrun, hend, houtside, hstream, hanswer, -, -⟩ := encodeRun_spec hcheck
  obtain ⟨rfl, rfl⟩ := hend.at_output hsilent hanswer (fun j hj => hlevel _ _ (Nat.mod_lt j ok.channels_pos) (by
    rw [sampleNumber_of_div_mod]; exact hj))
  replace hrun := encodeRun_unmarked hdefined hrun
  exact ⟨_, congrArg Host.Outcome.next hrun, completesWith_some (busError x _) rfl, rfl, hstream, houtside,
    keepsSetup_refl s, ⟨rfl, rfl⟩, rfl, rfl, rfl⟩

/-- Settles O18. The stream ends at the sample whose level cannot be read. -/
theorem encodeStopsAtSilentBuffer : Obligations.EncodeStopsAtSilentBuffer := by
  unfold Obligations.EncodeStopsAtSilentBuffer
  intro s i c x hcheck n hdefined hout hi hc hx hlevel
  have ok := encodeOk_of_check hcheck
  obtain ⟨m, bytes, e, hrun, hend, houtside, hstream, -, hbegun, -⟩ := encodeRun_spec hcheck
  obtain ⟨rfl, rfl⟩ := hend.at_sample (j := i * (encodeParams s).channels + c) (sampleNumber_lt hi hc)
    (by rw [sampleNumber_mod hc, sampleNumber_div hc]; exact hx) hout hbegun
    (fun j hj => hlevel _ _ (Nat.mod_lt j ok.channels_pos) (by rw [sampleNumber_of_div_mod]; exact hj))
    (encode_width_pos hcheck)
  replace hrun := encodeRun_unmarked hdefined hrun
  exact ⟨_, congrArg Host.Outcome.next hrun, completesWith_some (busError x _) rfl, rfl, hstream, houtside,
    keepsSetup_refl s, ⟨rfl, rfl⟩, rfl, rfl, rfl⟩

end Sys2Proof.Machine

/-! PROOFS. ENCODE does not look at the channels it does not use (43_encode.md R201 (d)). -/

namespace Sys2Proof.Machine

section
variable (cs : Vector Channel 8)

theorem dmaWrite_withChan (s : State) (a : Nat) (bs : List Byte) :
    dmaWrite { s with chan := cs } a bs = ({ (dmaWrite s a bs).1 with chan := cs }, (dmaWrite s a bs).2) := by
  induction bs generalizing s a with
  | nil => rfl
  | cons b bs ih =>
    have ih' := ih (s.writeByte a b) (a + 1)
    simp only [dmaWrite]
    split
    · exact ih'
    · rfl

theorem chanLevel_withChan {s : State} {c : Nat} (h : ({ s with chan := cs } : State).ch c = s.ch c) (t : Int) :
    chanLevel { s with chan := cs } c t = chanLevel s c t :=
  chanLevel_congr (s := s) (t := { s with chan := cs }) rfl h (fun _ _ _ => rfl) t

/-- The interleaver evaluates the channels below C only. -/
theorem encodeLoop_withChan {p : EncodeParams} (hC : 0 < p.channels) (n j : Nat) {s : State}
    (h : ∀ c, c < p.channels → ({ s with chan := cs } : State).ch c = s.ch c) :
    encodeLoop p n j { s with chan := cs } =
      ({ (encodeLoop p n j s).1 with chan := cs }, (encodeLoop p n j s).2) := by
  induction n generalizing j s with
  | zero => rfl
  | succ n ih =>
    have hlevel := chanLevel_withChan cs (h (j % p.channels) (Nat.mod_lt j hC))
      ((j / p.channels * p.period : Nat) : Int)
    simp only [encodeLoop, hlevel]
    cases chanLevel s (j % p.channels) ((j / p.channels * p.period : Nat) : Int) with
    | error x => rfl
    | ok v =>
      obtain ⟨m, hm⟩ := dmaWrite_frame s (p.outBase + (44 + j * p.width)) (quantise v p.width)
      simp only [dmaWrite_withChan]
      cases hw : dmaWrite s (p.outBase + (44 + j * p.width)) (quantise v p.width) with
      | mk s' x =>
        cases x with
        | some x => rfl
        | none =>
          rw [hw] at hm
          have hm : s' = { s with mem := m } := hm
          subst hm
          exact ih (j + 1) h

theorem encodeStream_withChan {p : EncodeParams} (hC : 0 < p.channels) {s : State}
    (h : ∀ c, c < p.channels → ({ s with chan := cs } : State).ch c = s.ch c) :
    encodeStream p { s with chan := cs } =
      ({ (encodeStream p s).1 with chan := cs }, (encodeStream p s).2) := by
  obtain ⟨m, hm⟩ := dmaWrite_frame s p.outBase (wavHeader p)
  simp only [encodeStream, dmaWrite_withChan]
  cases hw : dmaWrite s p.outBase (wavHeader p) with
  | mk s' x =>
    cases x with
    | some x => rfl
    | none =>
      rw [hw] at hm
      have hm : s' = { s with mem := m } := hm
      subst hm
      exact encodeLoop_withChan cs hC _ 0 h

theorem findSome?_range_congr {α : Type} {f g : Nat → Option α} {n : Nat} (h : ∀ c, c < n → f c = g c) :
    (List.range n).findSome? f = (List.range n).findSome? g := by
  induction n with
  | zero => rfl
  | succ n ih =>
    rw [List.range_succ, List.findSome?_append, List.findSome?_append, ih fun c hc => h c (by omega),
      List.findSome?_singleton, List.findSome?_singleton, h n (Nat.lt_succ_self n)]

theorem checkEncode_withChan {s : State}
    (h : ∀ c, c < (encodeParams s).channels → ({ s with chan := cs } : State).ch c = s.ch c) :
    checkEncode { s with chan := cs } = checkEncode s := by
  have hbad : firstBadChannel { s with chan := cs } (encodeParams s).channels =
      firstBadChannel s (encodeParams s).channels :=
    findSome?_range_congr fun c hc => by rw [h c hc]
  have hover : firstOverlap { s with chan := cs } (encodeParams s).channels (encodeParams s).output =
      firstOverlap s (encodeParams s).channels (encodeParams s).output :=
    findSome?_range_congr fun c hc => by rw [h c hc]
  rw [checkEncode_eq (s := { s with chan := cs }) (p := encodeParams s) rfl, checkEncode_eq rfl, hbad, hover]

theorem encodeTouched_withChan {s : State} (bytes : Nat)
    (h : ∀ c, c < (encodeParams s).channels → ({ s with chan := cs } : State).ch c = s.ch c) :
    encodeTouched { s with chan := cs } bytes = encodeTouched s bytes := by
  have hread (c : Nat) (hc : c ∈ List.range (encodeParams s).channels) :
      (encodeParams s).readBuffer { s with chan := cs } bytes c = (encodeParams s).readBuffer s bytes c := by
    simp only [EncodeParams.readBuffer, h c (List.mem_range.mp hc)]
  have hfilter : (List.range (encodeParams s).channels).filter ((encodeParams s).readBuffer { s with chan := cs } bytes) =
      (List.range (encodeParams s).channels).filter ((encodeParams s).readBuffer s bytes) :=
    List.filter_congr hread
  show outRegion s :: (((List.range (encodeParams s).channels).filter
    ((encodeParams s).readBuffer { s with chan := cs } bytes)).map _) = _
  rw [hfilter]
  refine congrArg _ (List.map_congr_left fun c hc => ?_)
  rw [h c (List.mem_range.mp (List.mem_filter.mp hc).1)]

end

/-- Settles O19. Checks, stream and marks look at the channels below C, and none of them changes a descriptor. -/
theorem encodeIgnoresUnusedChannels : Obligations.EncodeIgnoresUnusedChannels := by
  unfold Obligations.EncodeIgnoresUnusedChannels
  intro s cs h
  refine ⟨encodeRun s, rfl, congrArg Host.Outcome.next ?_⟩
  cases hcheck : checkEncode s with
  | some e => rw [encodeRun_of_error hcheck, encodeRun_of_error ((checkEncode_withChan cs h).trans hcheck)]; rfl
  | none =>
    have hC := (encodeOk_of_check hcheck).channels_pos
    have hstream := encodeStream_withChan cs hC h
    have hparams : encodeParams { s with chan := cs } = encodeParams s := rfl
    obtain ⟨m, bytes, e, heq, -⟩ := encodeStream_spec hcheck
    simp only [encodeRun, checkEncode_withChan cs h, hcheck, hparams, hstream, heq, encodeTouched_withChan cs _ h]
    rfl

end Sys2Proof.Machine

/-! PROOFS. What DECODE leaves (44_decode.md R216, R228 to R230): the copy whole, the copy stopped at the first sample
whose bytes do not all answer, and the input, which is never written. -/

namespace Sys2Proof.Machine

/-! ### Scratch slots (R228) -/

section
variable {p : DecodePlan}

/-- Sample f of channel c stands in slot c·frames + f. -/
theorem slot_of_sample {f c : Nat} (hc : c < p.channels) : p.slot (f * p.channels + c) = c * p.frames + f := by
  rw [DecodePlan.slot, sampleNumber_mod hc, sampleNumber_div hc]

theorem slotAddr_of_sample (scr : Nat) {f c : Nat} (hc : c < p.channels) :
    scr + p.slot (f * p.channels + c) * p.width = scr + c * p.frames * p.width + f * p.width := by
  rw [slot_of_sample hc]; ring

/-- Every slot is some sample's. -/
theorem slot_surjective {k : Nat} (hk : k < p.frames * p.channels) : ∃ i, i < p.frames * p.channels ∧ p.slot i = k := by
  have hF : 0 < p.frames := Nat.pos_of_mul_pos_right (Nat.zero_lt_of_lt hk)
  have hc : k / p.frames < p.channels := (Nat.div_lt_iff_lt_mul hF).mpr (by rwa [Nat.mul_comm] at hk)
  refine ⟨k % p.frames * p.channels + k / p.frames, sampleNumber_lt (Nat.mod_lt k hF) hc, ?_⟩
  rw [slot_of_sample hc, Nat.mul_comm, Nat.div_add_mod]

theorem decodeNeed_eq (p : DecodePlan) : p.need = p.frames * p.channels * p.width := rfl

/-- A byte of `need` bytes lies in one of the samples. -/
theorem sample_of_offset {k : Nat} (hW : 0 < p.width) (hk : k < p.need) :
    k / p.width < p.frames * p.channels ∧ k / p.width * p.width ≤ k ∧ k < k / p.width * p.width + p.width := by
  exact ⟨(Nat.div_lt_iff_lt_mul hW).mpr hk, Nat.div_mul_le_self k p.width, Nat.lt_div_mul_add hW⟩

/-! ### Which samples answer -/

variable {s : State}

/-- Where the data and the scratch bytes answer, every sample's do. -/
theorem copyAnswers_of_whole (hc : 0 < p.channels)
    (hdata : AllAnswer s.platform (s.cfg.inBase.toNat + p.dataOff) p.need)
    (hscr : AllAnswer s.platform s.cfg.scrBase.toNat p.need) {i : Nat} (hi : i < p.frames * p.channels) :
    CopyAnswers p s i := by
  have hend := sampleEnd_le p.width hi
  have hslot := slot_inside hc hi
  have hneed := decodeNeed_eq p
  exact ⟨fun y h1 h2 => hdata y (by omega) (by omega), fun y h1 h2 => hscr y (by omega) (by omega)⟩

/-- Where every sample's bytes answer, the data and the scratch bytes do. -/
theorem whole_of_copyAnswers (hW : 0 < p.width) (h : ∀ i, i < p.frames * p.channels → CopyAnswers p s i) :
    AllAnswer s.platform (s.cfg.inBase.toNat + p.dataOff) p.need ∧
      AllAnswer s.platform s.cfg.scrBase.toNat p.need := by
  refine ⟨fun y h1 h2 => ?_, fun y h1 h2 => ?_⟩
  · obtain ⟨hi, hlo, hhi⟩ :=
      sample_of_offset hW (show y - (s.cfg.inBase.toNat + p.dataOff) < p.need by omega)
    exact (h _ hi).1 y (by omega) (by omega)
  · obtain ⟨hk, hlo, hhi⟩ := sample_of_offset hW (show y - s.cfg.scrBase.toNat < p.need by omega)
    obtain ⟨i, hi, hslot⟩ := slot_surjective hk
    exact (h i hi).2 y (by rw [hslot]; omega) (by rw [hslot]; omega)

theorem CopyFault.not_answers {i : Nat} {r : Raise} (h : CopyFault p s i r) : ¬CopyAnswers p s i := by
  intro hanswers
  cases h with
  | read x hx => exact absurd hanswers.1 (hx.not_allAnswer le_rfl le_rfl)
  | write x _ hx => exact absurd hanswers.2 (hx.not_allAnswer le_rfl le_rfl)

theorem CopyFault.code {i : Nat} {r : Raise} (h : CopyFault p s i r) : r.code = .busError := by
  cases h <;> rfl

/-- A byte outside the scratch bytes is in no slot. -/
theorem outside_slots (hc : 0 < p.channels) {scr x : Nat} (hx : x < scr ∨ scr + p.need ≤ x) (i : Nat)
    (hi : i < p.frames * p.channels) : x < scr + p.slot i * p.width ∨ scr + p.slot i * p.width + p.width ≤ x := by
  have := slot_inside hc hi
  omega

end

/-! ### The copy whole (R228, R229) -/

section
variable {s : State} {p : DecodePlan}

/-- A copy that ends without error: every sample stands in its slot, and nothing else changed. -/
theorem decode_copied (hcheck : checkDecode s = none) (hparse : parseStream s = .ok p)
    (hdefined : s.defined (decodeTouched s p))
    (hdata : AllAnswer s.platform (s.cfg.inBase.toNat + p.dataOff) p.need)
    (hscr : AllAnswer s.platform s.cfg.scrBase.toNat p.need) :
    ∃ m, decodeRun s = complete none (({ s with mem := m } : State).setDec p.results) ∧
      (∀ f c k, f < p.frames → c < p.channels → k < p.width →
        ({ s with mem := m } : State).readByte (s.cfg.scrBase.toNat + c * p.frames * p.width + f * p.width + k) =
          s.readByte (s.cfg.inBase.toNat + p.dataOff + (f * p.channels + c) * p.width + k)) ∧
      (∀ x, x < s.cfg.scrBase.toNat ∨ s.cfg.scrBase.toNat + p.need ≤ x →
        ({ s with mem := m } : State).readByte x = s.readByte x) := by
  have hplan := planOk_of_parse hparse
  obtain ⟨m, e, hrun, -, houtside, hcopied, hfault, -, -⟩ := decodeRun_spec hcheck hparse
  have he : e = none := by
    rw [Option.eq_none_iff_forall_ne_some]
    intro r hr
    obtain ⟨i, hi, hf, -⟩ := hfault r hr
    exact hf.not_answers (copyAnswers_of_whole hplan.channels_pos hdata hscr hi)
  rw [markRegions_of_defined hdefined s rfl] at hrun
  refine ⟨m, hrun he, fun f c k hf hc hk => ?_, fun x hx => houtside x (outside_slots hplan.channels_pos hx)⟩
  have hsample := hcopied he (f * p.channels + c) (sampleNumber_lt hf hc) k hk
  rwa [slotAddr_of_sample _ hc, ← Nat.add_assoc] at hsample

end

/-- Settles O21. -/
theorem decodeCopiesChannels : Obligations.DecodeCopiesChannels := by
  unfold Obligations.DecodeCopiesChannels
  intro s p hcheck hparse hdefined hdata hscr
  obtain ⟨m, hrun, hcopied, houtside⟩ := decode_copied hcheck hparse hdefined hdata hscr
  exact ⟨_, congrArg Host.Outcome.next hrun, completesWith_none rfl, rfl, hcopied, houtside, keepsSetup_refl s,
    ⟨rfl, rfl⟩, rfl, rfl, rfl⟩

/-! ### The input is never written (R230) -/

/-- A passed region check keeps the input region and the scratch bytes of the decode apart. -/
theorem input_not_scratch {s : State} {p : DecodePlan} (hcheck : checkDecode s = none) (hplan : PlanOk s p) {x : Nat}
    (hx : (inRegion s).has x = true) : x < s.cfg.scrBase.toNat ∨ s.cfg.scrBase.toNat + p.need ≤ x := by
  have hscr := Region.not_has_of_not_overlaps (decodeOk_of_check hcheck).2.2 hx
  rw [← Bool.not_eq_true, Region.has_iff] at hscr
  have hroom := hplan.room
  simp only [scrRegion] at hscr
  omega

theorem not_mem_scratch {s : State} {p : DecodePlan} {x : Nat}
    (h : x < s.cfg.scrBase.toNat ∨ s.cfg.scrBase.toNat + p.need ≤ x) : (p.scratch s).has x = false := by
  rw [← Bool.not_eq_true, Region.has_iff]
  simp only [DecodePlan.scratch]
  omega

/-- Settles O24. A byte of the input is none of the scratch bytes, which are all that is written or freed. -/
theorem decodeKeepsInput : Obligations.DecodeKeepsInput := by
  unfold Obligations.DecodeKeepsInput
  intro s t x hexec hx
  cases hexec
  cases hcheck : checkDecode s with
  | some e => rw [decodeRun_of_check_error hcheck]; rfl
  | none =>
    cases hparse : parseStream s with
    | error e => rw [decodeRun_of_parse_error hcheck hparse]; rfl
    | ok p =>
      have hplan := planOk_of_parse hparse
      have hapart := input_not_scratch hcheck hplan hx
      obtain ⟨m, e, hdone, hstopped, houtside, -⟩ := decodeRun_spec hcheck hparse
      have hmem := houtside x (outside_slots hplan.channels_pos hapart)
      cases e with
      | none => rw [hdone rfl]; exact hmem
      | some r =>
        rw [hstopped r rfl, complete_readByte, readByte_forget, not_mem_scratch hapart]
        exact hmem

/-! ### Failures (R230, 60_exceptions.md R272, R275) -/

/-- Before the copy, a failing DECODE changes the record, the status, the phase and perhaps the mark. -/
theorem decode_failed_before_copy {s : State} {e : Raise}
    (h : checkDecode s = some e ∨ (checkDecode s = none ∧ parseStream s = .error e)) :
    ∃ t, exec .decode s = .next t ∧ completesWith s t e.code.toWord e.info0 e.info1 ∧ t.mem = s.mem ∧
      t.dec = s.dec ∧ t.enc = s.enc ∧ t.eval = s.eval ∧ keepsSetup s t ∧ keepsDraws s t := by
  rcases h with hcheck | ⟨hcheck, hparse⟩
  · exact ⟨_, congrArg Host.Outcome.next (decodeRun_of_check_error hcheck), completesWith_some e rfl, rfl, rfl, rfl,
      rfl, keepsSetup_refl s, rfl, rfl⟩
  · exact ⟨_, congrArg Host.Outcome.next (decodeRun_of_parse_error hcheck hparse), completesWith_some e rfl, rfl, rfl,
      rfl, rfl, keepsSetup_refl s, rfl, rfl⟩

/-- What a DECODE stopped in the copy leaves: the scratch bytes free, and all else but the completion as it was. -/
def StoppedInCopy (s : State) (p : DecodePlan) (t : State) : Prop :=
  exec .decode s = .next t ∧ t.phase = .idle ∧ t.status = ⟨true, true, s.status.ovr⟩ ∧
    t.error.code = 5 ∧ t.dec = s.dec ∧
    (∀ x, s.cfg.scrBase.toNat ≤ x → x < s.cfg.scrBase.toNat + p.need → t.readByte x = Config.freeByte s.draws x) ∧
    keepsBytesOutside s t s.cfg.scrBase.toNat p.need ∧ keepsSetup s t ∧ t.enc = s.enc ∧
    t.eval = s.eval ∧ t.hazard = s.hazard

section
variable {s : State} {p : DecodePlan}

/-- Where not every sample's bytes answer, the copy stops at the first such sample. -/
theorem decode_stopped (hcheck : checkDecode s = none) (hparse : parseStream s = .ok p)
    (hdefined : s.defined (decodeTouched s p)) {j : Nat} (hj : j < p.frames * p.channels)
    (hfails : ¬CopyAnswers p s j) :
    ∃ t i r, StoppedInCopy s p t ∧ t.error = ErrorRecord.of (some r) ∧ i < p.frames * p.channels ∧
      CopyFault p s i r ∧ ∀ i', i' < i → CopyAnswers p s i' := by
  have hplan := planOk_of_parse hparse
  obtain ⟨m, e, -, hrun, houtside, -, hfault, hdone, -⟩ := decodeRun_spec hcheck hparse
  cases e with
  | none => exact absurd (hdone rfl j hj) hfails
  | some r =>
    obtain ⟨i, hi, hf, hbefore⟩ := hfault r rfl
    replace hrun := hrun r rfl
    rw [markRegions_of_defined hdefined s rfl] at hrun
    have hread (x : Nat) : (({ s with mem := m } : State).forget (p.scratch s)).readByte x =
        if (p.scratch s).has x then Config.freeByte s.draws x else ({ s with mem := m } : State).readByte x :=
      readByte_forget { s with mem := m } (p.scratch s) x
    refine ⟨_, i, r, ⟨congrArg Host.Outcome.next hrun, rfl, rfl, ?_, rfl, fun x h1 h2 => ?_, fun x hx => ?_,
      keepsSetup_refl s, rfl, rfl, rfl⟩, rfl, hi, hf, hbefore⟩
    · show r.code.toWord = 5
      rw [hf.code]; rfl
    · refine (hread x).trans (if_pos ?_)
      rw [Region.has_iff]; exact ⟨h1, h2⟩
    · refine (hread x).trans ?_
      rw [not_mem_scratch hx]
      exact houtside x (outside_slots hplan.channels_pos hx)

/-- Where the samples before number j answer and number j does not, the copy's error is number j's. -/
theorem decode_stopped_at (hcheck : checkDecode s = none) (hparse : parseStream s = .ok p)
    (hdefined : s.defined (decodeTouched s p)) {j : Nat} (hj : j < p.frames * p.channels)
    (hfails : ¬CopyAnswers p s j) (hbefore : ∀ i, i < j → CopyAnswers p s i) :
    ∃ t r, StoppedInCopy s p t ∧ t.error = ErrorRecord.of (some r) ∧ CopyFault p s j r := by
  obtain ⟨t, i, r, hstopped, herror, hi, hf, hbefore'⟩ := decode_stopped hcheck hparse hdefined hj hfails
  rcases lt_trichotomy i j with hlt | rfl | hgt
  · exact absurd (hbefore i hlt) hf.not_answers
  · exact ⟨t, r, hstopped, herror, hf⟩
  · exact absurd (hbefore' j hgt) hfails

end

/-- Settles O23. The first sample that does not answer is where the copy stops, and `CopyFault` says with what. -/
theorem decodeFailureFrames : Obligations.DecodeFailureFrames := by
  unfold Obligations.DecodeFailureFrames
  refine ⟨fun s e h => decode_failed_before_copy h, ?_⟩
  intro s p hcheck hparse hdefined source target fails
  have hplan := planOk_of_parse hparse
  refine ⟨fun hsilent => ?_, fun f c hf hc hbefore => ?_⟩
  · have hnot : ∃ j, j < p.frames * p.channels ∧ ¬CopyAnswers p s j := by
      by_contra hall
      simp only [not_exists, not_and, not_not] at hall
      obtain ⟨hdata, hscr⟩ := whole_of_copyAnswers (width_pos hplan.width) hall
      rcases hsilent with ⟨x, hx⟩ | ⟨x, hx⟩
      · exact absurd hdata (hx.not_allAnswer le_rfl le_rfl)
      · exact absurd hscr (hx.not_allAnswer le_rfl le_rfl)
    obtain ⟨j, hj, hfails⟩ := hnot
    obtain ⟨t, i, r, hstopped, -⟩ := decode_stopped hcheck hparse hdefined hj hfails
    exact ⟨t, hstopped⟩
  · have hj := sampleNumber_lt hf hc
    have htarget (f c : Nat) (hc : c < p.channels) :
        s.cfg.scrBase.toNat + p.slot (f * p.channels + c) * p.width = target f c := slotAddr_of_sample _ hc
    have hbefore' (i : Nat) (hi : i < f * p.channels + c) : CopyAnswers p s i := by
      have hmod := Nat.mod_lt i hplan.channels_pos
      have hnumber := sampleNumber_of_div_mod i p.channels
      have := hbefore (i / p.channels) (i % p.channels) hmod (by rwa [hnumber])
      simp only [source, ← htarget _ _ hmod, hnumber] at this
      exact this
    refine ⟨fun x hx => ?_, fun j hread hx => ?_⟩
    · obtain ⟨t, r, hstopped, herror, hfault⟩ := decode_stopped_at hcheck hparse hdefined hj
        (fun h => hx.not_allAnswer le_rfl le_rfl h.1) hbefore'
      refine ⟨t, hstopped, herror.trans ?_⟩
      cases hfault with
      | read y hy => rw [hy.unique hx]; rfl
      | write y hr hy => exact absurd hr (hx.not_allAnswer le_rfl le_rfl)
    · rw [← htarget f c hc] at hx ⊢
      obtain ⟨t, r, hstopped, herror, hfault⟩ := decode_stopped_at hcheck hparse hdefined hj
        (fun h => hx.not_allAnswer le_rfl le_rfl h.2) hbefore'
      refine ⟨t, hstopped, herror.trans ?_⟩
      cases hfault with
      | read y hy => exact absurd hread (hy.not_allAnswer le_rfl le_rfl)
      | write y hr hy => rw [hy.unique hx, Nat.add_sub_cancel_left]; rfl

end Sys2Proof.Machine

/-! PROOFS. The parser of DECODE (44_decode.md R217 to R231): what each step reads, and what it makes of the bytes. -/

namespace Sys2Proof.Machine

/-! ### The bytes of the stream (R217) -/

/-- The l bytes of the input at stream offset k. -/
def streamBytes (s : State) (k l : Nat) : List Byte :=
  (List.range l).map fun i => s.readByte (s.cfg.inBase.toNat + k + i)

theorem inRead_of_answer {s : State} {k l : Nat} (h : AllAnswer s.platform (s.cfg.inBase.toNat + k) l) :
    inRead s k l = .ok (streamBytes s k l) := by
  simp only [inRead, dmaRead_ok h, streamBytes]

theorem inRead_of_silent {s : State} {k l x : Nat} (h : FirstSilent s.platform (s.cfg.inBase.toNat + k) l x) :
    inRead s k l = .error (busError x (x - s.cfg.inBase.toNat)) := by
  simp only [inRead, dmaRead_silent h]

/-- Part of the bytes read at k, as the bytes at its own offset. -/
theorem streamBytes_slice (s : State) (k : Nat) {l i n : Nat} (h : i + n ≤ l) :
    ((streamBytes s k l).drop i).take n = streamBytes s (k + i) n := by
  apply List.ext_getElem
  · simp only [streamBytes, List.length_take, List.length_drop, List.length_map, List.length_range]; omega
  · intro j h1 h2
    simp only [streamBytes, List.getElem_take, List.getElem_drop, List.getElem_map, List.getElem_range]
    congr 1
    omega

theorem field_streamBytes (s : State) (k : Nat) {l i n : Nat} (h : i + n ≤ l) :
    field (streamBytes s k l) i n = uLE (streamBytes s (k + i) n) := by
  rw [field, streamBytes_slice s k h]

theorem streamBytes_take (s : State) (k : Nat) {l n : Nat} (h : n ≤ l) :
    (streamBytes s k l).take n = streamBytes s k n :=
  streamBytes_slice s k (i := 0) (by omega)

theorem streamBytes_congr {s t : State} {k l : Nat}
    (h : ∀ i, i < l → t.readByte (t.cfg.inBase.toNat + k + i) = s.readByte (s.cfg.inBase.toNat + k + i)) :
    streamBytes t k l = streamBytes s k l :=
  List.map_congr_left fun i hi => h i (List.mem_range.mp hi)

/-! ### The chunk search (R219) -/

/-- Settles O25. One round of the loop, and for the rest of the stream the fuel is as good as the whole. -/
theorem chunkSearchSkips : Obligations.ChunkSearchSkips := by
  unfold Obligations.ChunkSearchSkips
  intro s id pos _
  have hfuel (pos' : Nat) (h : 8 ≤ pos') : findChunk s id (inLen s / 8) pos' = findChunk s id (chunkFuel s) pos' :=
    findChunk_fuel (by omega) (by unfold chunkFuel; omega)
  rw [chunkFuel, findChunk]
  cases inRead s pos 8 with
  | error e => rfl
  | ok h => simp only [hfuel (pos + 8 + field h 4 4) (by omega), chunkFuel]

/-! ### The steps in order (R218 to R227) -/

section
variable {s : State}

theorem readRiff_of_bytes (hlen : 12 ≤ inLen s) (hanswer : AllAnswer s.platform (s.cfg.inBase.toNat + 0) 12) :
    readRiff s =
      if ¬streamBytes s 0 4 = asciiRIFF then .error (streamError .malformedHeader 0 (uLE (streamBytes s 0 4)))
      else if ¬streamBytes s 8 4 = asciiWAVE then .error (streamError .malformedHeader 8 (uLE (streamBytes s 8 4)))
      else .ok () := by
  have hread := inRead_of_answer hanswer
  simp only [readRiff, if_neg hlen.not_gt, hread, streamBytes_take s 0 (l := 12) (n := 4) (by decide),
    streamBytes_slice s 0 (l := 12) (i := 8) (n := 4) (by decide), field_streamBytes s 0 (l := 12) (n := 4) (by decide : 0 + 4 ≤ 12),
    field_streamBytes s 0 (l := 12) (n := 4) (by decide : 8 + 4 ≤ 12), Nat.zero_add]

theorem readRiff_of_silent {x : Nat} (hlen : 12 ≤ inLen s)
    (hsilent : FirstSilent s.platform (s.cfg.inBase.toNat + 0) 12 x) :
    readRiff s = .error (busError x (x - s.cfg.inBase.toNat)) := by
  simp only [readRiff, if_neg hlen.not_gt, inRead_of_silent hsilent]

/-- The fmt chunk as its bytes have it. -/
def fmtOf (s : State) (p flen : Nat) : Fmt :=
  ⟨p, flen, uLE (streamBytes s p 2), uLE (streamBytes s (p + 2) 2), uLE (streamBytes s (p + 4) 4),
    uLE (streamBytes s (p + 14) 2)⟩

theorem readFmt_of_chunk {p flen : Nat} (hfind : findChunk s asciiFmt (chunkFuel s) 12 = .ok (p, flen)) :
    (flen < 16 → readFmt s = .error (streamError .malformedHeader (p - 8) flen)) ∧
    (16 ≤ flen → inLen s - p < 16 → readFmt s = .error (streamError .shortRead p 16)) ∧
    (16 ≤ flen → 16 ≤ inLen s - p →
      (∀ x, FirstSilent s.platform (s.cfg.inBase.toNat + p) 16 x →
        readFmt s = .error (busError x (x - s.cfg.inBase.toNat))) ∧
      (AllAnswer s.platform (s.cfg.inBase.toNat + p) 16 → readFmt s = .ok (fmtOf s p flen))) := by
  refine ⟨fun hshort => ?_, fun hlen hshort => ?_, fun hlen hbody => ⟨fun x hx => ?_, fun hanswer => ?_⟩⟩
  · simp only [readFmt, hfind, if_pos hshort]
  · simp only [readFmt, hfind, if_neg hlen.not_gt, if_pos hshort]
  · simp only [readFmt, hfind, if_neg hlen.not_gt, if_neg hbody.not_gt, inRead_of_silent hx]
  · simp only [readFmt, hfind, if_neg hlen.not_gt, if_neg hbody.not_gt, inRead_of_answer hanswer, fmtOf,
      field_streamBytes s p (by decide : 0 + 2 ≤ 16), field_streamBytes s p (by decide : 2 + 2 ≤ 16),
      field_streamBytes s p (by decide : 4 + 4 ≤ 16), field_streamBytes s p (by decide : 14 + 2 ≤ 16), Nat.add_zero]

/-- The supported widths in bits (R221). -/
theorem bits_supported_iff (b : Nat) : (b % 8 = 0 ∧ b / 8 ∈ Config.widths) ↔ b ∈ [8, 16, 24, 32, 48, 64] := by
  simp only [mem_widths, List.mem_cons, List.not_mem_nil, or_false]
  omega

/-- The validation in order, with each condition as the rule has it (R221, R222). -/
theorem checkFmt_eq (f : Fmt) : checkFmt s f =
    if ¬f.code = 1 then some (streamError .unsupportedFormat f.body f.code)
    else if ¬(1 ≤ f.channels ∧ f.channels ≤ 8) then some (streamError .unsupportedFormat (f.body + 2) f.channels)
    else if ¬f.bits ∈ [8, 16, 24, 32, 48, 64] then some (streamError .unsupportedFormat (f.body + 14) f.bits)
    else if ¬(1 ≤ f.rate ∧ f.rate ≤ 1000000000) then some (streamError .unsupportedFormat (f.body + 4) f.rate)
    else if inLen s - (f.body + 16) < f.len - 16 then some (streamError .shortRead (f.body + 16) (f.len - 16))
    else none := by
  have hrate : (f.rate = 0 ∨ Config.unitTime < f.rate) ↔ ¬(1 ≤ f.rate ∧ f.rate ≤ 1000000000) := by
    simp only [Config.unitTime]; omega
  have merge {c d : Prop} [Decidable c] [Decidable d] {e : Raise} {rest : Option Raise} :
      (if c then some e else if d then some e else rest) = if c ∨ d then some e else rest := by
    by_cases hc : c <;> simp [hc]
  have hchannels : (f.channels = 0 ∨ Config.nCh < f.channels) ↔ ¬(1 ≤ f.channels ∧ f.channels ≤ 8) := by
    simp only [Config.nCh]; omega
  have hbits : (f.bits % 8 ≠ 0 ∨ f.bits / 8 ∉ Config.widths) ↔ ¬f.bits ∈ [8, 16, 24, 32, 48, 64] := by
    rw [← bits_supported_iff, not_and_or]
  simp only [checkFmt, merge, hrate, hchannels, hbits, ne_eq]

/-- The validation clause by clause. -/
theorem checkFmt_clauses (f : Fmt) :
    let v1 := f.code = 1
    let v2 := 1 ≤ f.channels ∧ f.channels ≤ 8
    let v3 := f.bits ∈ [8, 16, 24, 32, 48, 64]
    let v4 := 1 ≤ f.rate ∧ f.rate ≤ 1000000000
    (¬v1 → checkFmt s f = some (streamError .unsupportedFormat f.body f.code)) ∧
    (v1 → ¬v2 → checkFmt s f = some (streamError .unsupportedFormat (f.body + 2) f.channels)) ∧
    (v1 → v2 → ¬v3 → checkFmt s f = some (streamError .unsupportedFormat (f.body + 14) f.bits)) ∧
    (v1 → v2 → v3 → ¬v4 → checkFmt s f = some (streamError .unsupportedFormat (f.body + 4) f.rate)) ∧
    (v1 → v2 → v3 → v4 → inLen s - (f.body + 16) < f.len - 16 →
      checkFmt s f = some (streamError .shortRead (f.body + 16) (f.len - 16))) ∧
    (v1 → v2 → v3 → v4 → f.len - 16 ≤ inLen s - (f.body + 16) → checkFmt s f = none) := by
  intro v1 v2 v3 v4
  rw [checkFmt_eq]
  refine ⟨fun h1 => if_pos h1, fun h1 h2 => ?_, fun h1 h2 h3 => ?_, fun h1 h2 h3 h4 => ?_, fun h1 h2 h3 h4 h5 => ?_,
    fun h1 h2 h3 h4 h5 => ?_⟩ <;> rw [if_neg (not_not.mpr h1)]
  · exact if_pos h2
  · rw [if_neg (not_not.mpr h2), if_pos h3]
  · rw [if_neg (not_not.mpr h2), if_neg (not_not.mpr h3), if_pos h4]
  · rw [if_neg (not_not.mpr h2), if_neg (not_not.mpr h3), if_neg (not_not.mpr h4), if_pos h5]
  · rw [if_neg (not_not.mpr h2), if_neg (not_not.mpr h3), if_neg (not_not.mpr h4), if_neg h5.not_gt]

theorem readData_of_chunk {f : Fmt} {d dlen : Nat}
    (hfind : findChunk s asciiData (chunkFuel s) (f.body + f.len) = .ok (d, dlen)) :
    readData s f =
      let p : DecodePlan := ⟨f.channels, f.bits / 8, f.rate, d, dlen⟩
      if dlen % f.channels ≠ 0 then .error (streamError .unsupportedFormat (d - 4) dlen)
      else if s.cfg.scrLen.toNat < p.need then
        .error ⟨.badParameter, Reg.scrLen.offWord, BitVec.ofNat 64 p.need⟩
      else if inLen s - d < p.need then
        .error (streamError .shortRead (d + (inLen s - d) / p.width * p.width) p.need)
      else .ok p := by
  simp only [readData, hfind]

theorem parseStream_of_riff_error {e : Raise} (h : readRiff s = .error e) : parseStream s = .error e := by
  simp only [parseStream, h]

theorem parseStream_of_fmt_error {e : Raise} (hriff : readRiff s = .ok ()) (h : readFmt s = .error e) :
    parseStream s = .error e := by
  simp only [parseStream, hriff, h]

theorem parseStream_of_check_error {f : Fmt} {e : Raise} (hriff : readRiff s = .ok ()) (hfmt : readFmt s = .ok f)
    (h : checkFmt s f = some e) : parseStream s = .error e := by
  simp only [parseStream, hriff, hfmt, h]

theorem parseStream_of_fmt {f : Fmt} (hriff : readRiff s = .ok ()) (hfmt : readFmt s = .ok f)
    (h : checkFmt s f = none) : parseStream s = readData s f := by
  simp only [parseStream, hriff, hfmt, h]

end

/-- The region checks in order, with each condition as the rule has it (R216). -/
theorem checkDecode_eq (s : State) :
    checkDecode s =
      if ¬s.cfg.inBase.toNat + s.cfg.inLen.toNat ≤ 2 ^ 64 then some ⟨.badParameter, 0x098, s.cfg.inLen⟩
      else if ¬s.cfg.scrBase.toNat + s.cfg.scrLen.toNat ≤ 2 ^ 64 then some ⟨.badParameter, 0x0A8, s.cfg.scrLen⟩
      else if 0 < s.cfg.inLen.toNat ∧ 0 < s.cfg.scrLen.toNat ∧
          s.cfg.inBase.toNat < s.cfg.scrBase.toNat + s.cfg.scrLen.toNat ∧
          s.cfg.scrBase.toNat < s.cfg.inBase.toNat + s.cfg.inLen.toNat then
        some ⟨.badParameter, 0x0A0, s.cfg.scrBase⟩
      else none := by
  have hin : (!(inRegion s).fits) = true ↔ ¬s.cfg.inBase.toNat + s.cfg.inLen.toNat ≤ 2 ^ 64 := by
    rw [Bool.not_eq_true', ← Bool.not_eq_true, Region.fits_iff]; rfl
  have hscr : (!(scrRegion s).fits) = true ↔ ¬s.cfg.scrBase.toNat + s.cfg.scrLen.toNat ≤ 2 ^ 64 := by
    rw [Bool.not_eq_true', ← Bool.not_eq_true, Region.fits_iff]; rfl
  simp only [checkDecode, hin, hscr, Region.overlaps_iff]
  rfl

/-- Settles O26. At each clause the steps before it pass and its own step fails, with the error its equation gives. -/
theorem decodeErrorsInOrder : Obligations.DecodeErrorsInOrder := by
  unfold Obligations.DecodeErrorsInOrder
  refine ⟨?_, fun s f => ?_⟩
  · intro s inB n scB m stops reports raises answers bytes num faults c1 c2 c3
    have hcheckEq := checkDecode_eq s
    have hregion (e : Raise) (h : checkDecode s = some e) : stops e.code.toWord e.info0 e.info1 :=
      decode_failed_before_copy (.inl h)
    refine ⟨fun h1 => ?_, fun h1 h2 => ?_, fun h1 h2 h3 => ?_, fun h1 h2 h3 => ?_⟩
    · exact hregion ⟨.badParameter, 0x098, _⟩ (hcheckEq.trans (if_pos h1))
    · rw [if_neg (not_not.mpr h1)] at hcheckEq
      exact hregion ⟨.badParameter, 0x0A8, _⟩ (hcheckEq.trans (if_pos h2))
    · rw [if_neg (not_not.mpr h1), if_neg (not_not.mpr h2)] at hcheckEq
      exact hregion ⟨.badParameter, 0x0A0, _⟩ (hcheckEq.trans (if_pos (not_not.mp h3)))
    have hcheck : checkDecode s = none := by
      rw [hcheckEq, if_neg (not_not.mpr h1), if_neg (not_not.mpr h2), if_neg h3]
    have hparse (e : Raise) (h : parseStream s = .error e) : stops e.code.toWord e.info0 e.info1 :=
      decode_failed_before_copy (.inr ⟨hcheck, h⟩)
    refine ⟨fun hn => ?_, fun hn x hx => ?_, fun hn ha hr => ?_, fun hn ha hr hw => ?_, fun hn ha hr hw => ?_⟩
    · exact hparse _ (parseStream_of_short hn)
    · exact hparse _ (parseStream_of_riff_error (readRiff_of_silent hn hx))
    · exact hparse _ (parseStream_of_riff_error ((readRiff_of_bytes hn ha).trans (if_pos hr)))
    · exact hparse _ (parseStream_of_riff_error
        ((readRiff_of_bytes hn ha).trans ((if_neg (not_not.mpr hr)).trans (if_pos hw))))
    have hriff : readRiff s = .ok () :=
      (readRiff_of_bytes hn ha).trans ((if_neg (not_not.mpr hr)).trans (if_neg (not_not.mpr hw)))
    refine ⟨fun e he => ?_, fun p flen hfind => ?_⟩
    · exact hparse e (parseStream_of_fmt_error hriff (by simp only [readFmt, asciiFmt, he]))
    obtain ⟨hshort, hbody, hread⟩ := readFmt_of_chunk hfind
    refine ⟨fun hf => ?_, fun hf hb => ?_, fun hf hb x hx => ?_, fun hf hb hans => ?_⟩
    · exact hparse _ (parseStream_of_fmt_error hriff (hshort hf))
    · exact hparse _ (parseStream_of_fmt_error hriff (hbody hf hb))
    · exact hparse _ (parseStream_of_fmt_error hriff ((hread hf hb).1 x hx))
    intro code ch rate bits W v1 v2 v3 v4
    have hfmt := (hread hf hb).2 hans
    have hinvalid (e : Raise) (h : checkFmt s (fmtOf s p flen) = some e) : stops e.code.toWord e.info0 e.info1 :=
      hparse e (parseStream_of_check_error hriff hfmt h)
    obtain ⟨hcode, hch, hbits, hrate, hrest, hvalid⟩ := checkFmt_clauses (s := s) (fmtOf s p flen)
    refine ⟨fun k1 => hinvalid _ (hcode k1), fun k1 k2 => hinvalid _ (hch k1 k2),
      fun k1 k2 k3 => hinvalid _ (hbits k1 k2 k3), fun k1 k2 k3 k4 => hinvalid _ (hrate k1 k2 k3 k4),
      fun k1 k2 k3 k4 k5 => hinvalid _ (hrest k1 k2 k3 k4 k5), fun k1 k2 k3 k4 k5 => ?_⟩
    replace hvalid := hvalid k1 k2 k3 k4 k5
    have hdata := parseStream_of_fmt hriff hfmt hvalid
    refine ⟨fun e he => ?_, fun d dlen hfindData => ?_⟩
    · exact hparse e (hdata.trans (by simp only [readData, asciiData, fmtOf, he]))
    intro need
    rw [readData_of_chunk (f := fmtOf s p flen) hfindData] at hdata
    refine ⟨fun j1 => ?_, fun j1 j2 => ?_, fun j1 j2 j3 => ?_, fun j1 j2 j3 => ⟨hcheck, ?_⟩⟩
    · exact hparse _ (hdata.trans (if_pos j1))
    · exact hparse ⟨.badParameter, 0x0A8, BitVec.ofNat 64 need⟩
        (hdata.trans ((if_neg (not_not.mpr j1)).trans (if_pos j2)))
    · exact hparse _ (hdata.trans ((if_neg (not_not.mpr j1)).trans ((if_neg (by exact j2.not_gt)).trans (if_pos j3))))
    · exact hdata.trans ((if_neg (not_not.mpr j1)).trans ((if_neg (by exact j2.not_gt)).trans
        (if_neg (by exact j3.not_gt))))
  · simp only [checkFmt_eq, check_eq_none_iff, not_not, not_lt, and_true, and_assoc]

end Sys2Proof.Machine

/-! PROOFS. The bytes the parser does not look at (44_decode.md R231), and the codec's round trip (43_encode.md R192,
R196, 44_decode.md R228, R229). -/

namespace Sys2Proof.Machine

/-! ### Reads of a stream some of whose bytes changed -/

/-- A read gives the same where its bytes are the same. -/
theorem inRead_congr {s t : State} {k l : Nat} (hp : t.platform = s.platform) (hcfg : t.cfg = s.cfg)
    (h : ∀ i, i < l → t.readByte (s.cfg.inBase.toNat + k + i) = s.readByte (s.cfg.inBase.toNat + k + i)) :
    inRead t k l = inRead s k l := by
  have hread : dmaRead t (s.cfg.inBase.toNat + k) l = dmaRead s (s.cfg.inBase.toNat + k) l :=
    dmaRead_congr hp fun x h1 h2 => by
      have := h (x - (s.cfg.inBase.toNat + k)) (by omega)
      rwa [Nat.add_sub_cancel' h1] at this
  simp only [inRead, hcfg, hread]

section
variable {s t : State} (hp : t.platform = s.platform) (hcfg : t.cfg = s.cfg)
include hp hcfg

/-- A chunk search that succeeds reads only from pos up to the body it finds. -/
theorem findChunk_congr_of_ok {id : List Byte} {fuel pos b len : Nat} (hpos : pos ≤ inLen s)
    (h : findChunk s id fuel pos = .ok (b, len))
    (hsame : ∀ k, pos ≤ k → k < b →
      t.readByte (s.cfg.inBase.toNat + k) = s.readByte (s.cfg.inBase.toNat + k)) :
    findChunk t id fuel pos = .ok (b, len) := by
  have hlen : inLen t = inLen s := by rw [inLen, hcfg, inLen]
  induction fuel generalizing pos with
  | zero => simp [findChunk] at h
  | succ fuel ih =>
    obtain ⟨hb, -⟩ := findChunk_ok hpos h
    have hread : inRead t pos 8 = inRead s pos 8 :=
      inRead_congr hp hcfg fun i hi => by rw [Nat.add_assoc]; exact hsame (pos + i) (by omega) (by omega)
    simp only [findChunk, hlen, hread] at h ⊢
    split_ifs at h ⊢
    split at h <;> try cases h
    split_ifs at h ⊢ with hid hshort
    · exact h
    · exact ih (by omega) h fun k hk hkb => hsame k (by omega) hkb

/-- A chunk search reads from pos on. -/
theorem findChunk_congr (id : List Byte) (fuel pos : Nat)
    (hsame : ∀ k, pos ≤ k → t.readByte (s.cfg.inBase.toNat + k) = s.readByte (s.cfg.inBase.toNat + k)) :
    findChunk t id fuel pos = findChunk s id fuel pos := by
  have hlen : inLen t = inLen s := by rw [inLen, hcfg, inLen]
  induction fuel generalizing pos with
  | zero => simp only [findChunk, hlen]
  | succ fuel ih =>
    have hread : inRead t pos 8 = inRead s pos 8 :=
      inRead_congr hp hcfg fun i hi => by rw [Nat.add_assoc]; exact hsame (pos + i) (by omega)
    have hrest (len : Nat) : findChunk t id fuel (pos + 8 + len) = findChunk s id fuel (pos + 8 + len) :=
      ih _ fun k hk => hsame k (by omega)
    simp only [findChunk, hlen, hread, hrest]

/-- The RIFF header's id and form, not its size, decide (R218). -/
theorem readRiff_congr (hsame : ∀ k, k < 12 → ¬(4 ≤ k ∧ k < 8) →
      t.readByte (s.cfg.inBase.toNat + k) = s.readByte (s.cfg.inBase.toNat + k)) : readRiff t = readRiff s := by
  have hlen : inLen t = inLen s := by rw [inLen, hcfg, inLen]
  have hbytes (k : Nat) (hk : k = 0 ∨ k = 8) : streamBytes t k 4 = streamBytes s k 4 :=
    streamBytes_congr fun i hi => by
      rw [hcfg, Nat.add_assoc]; exact hsame (k + i) (by omega) (by omega)
  by_cases hshort : inLen s < 12
  · simp only [readRiff, hlen, if_pos hshort]
  have hshort' : 12 ≤ inLen t := by omega
  rcases answer_or_silent s.platform (s.cfg.inBase.toNat + 0) 12 with hanswer | ⟨x, hx⟩
  · rw [readRiff_of_bytes (by omega) hanswer, readRiff_of_bytes hshort' (by rw [hp, hcfg]; exact hanswer),
      hbytes 0 (.inl rfl), hbytes 8 (.inr rfl)]
  · rw [readRiff_of_silent (by omega) hx, readRiff_of_silent (x := x) hshort' (by rw [hp, hcfg]; exact hx), hcfg]

end

/-- What a fmt chunk that was read is: where it stands, and its fields as its bytes. -/
theorem readFmt_ok {s : State} {f : Fmt} (h : readFmt s = .ok f) :
    findChunk s asciiFmt (chunkFuel s) 12 = .ok (f.body, f.len) ∧ 16 ≤ f.len ∧ 16 ≤ inLen s - f.body ∧
      AllAnswer s.platform (s.cfg.inBase.toNat + f.body) 16 ∧ f = fmtOf s f.body f.len := by
  cases hfind : findChunk s asciiFmt (chunkFuel s) 12 with
  | error e => simp [readFmt, hfind] at h
  | ok r =>
    obtain ⟨p, flen⟩ := r
    obtain ⟨hshort, hbody, hread⟩ := readFmt_of_chunk hfind
    rcases Nat.lt_or_ge flen 16 with hf | hf
    · rw [hshort hf] at h; cases h
    rcases Nat.lt_or_ge (inLen s - p) 16 with hb | hb
    · rw [hbody hf hb] at h; cases h
    rcases answer_or_silent s.platform (s.cfg.inBase.toNat + p) 16 with hanswer | ⟨x, hx⟩
    · rw [(hread hf hb).2 hanswer] at h; cases h
      exact ⟨rfl, hf, hb, hanswer, rfl⟩
    · rw [(hread hf hb).1 x hx] at h; cases h

/-- Settles O27. The search for the header stops before the fmt body, the fields DECODE uses lie beside the changed
bytes, and the search for the data begins after them. -/
theorem uncheckedFieldsIgnored : Obligations.UncheckedFieldsIgnored := by
  unfold Obligations.UncheckedFieldsIgnored
  intro s f m hfmt _ hsame
  obtain ⟨hfind, hflen, hroom, hanswer, hfields⟩ := readFmt_ok hfmt
  have hlen : 12 ≤ inLen s := by omega
  obtain ⟨hbody, -⟩ := findChunk_ok hlen hfind
  set t : State := { s with mem := m } with ht
  have hriff : readRiff t = readRiff s :=
    readRiff_congr rfl rfl fun k hk hsize => hsame k hsize (by omega)
  have hfindt : findChunk t asciiFmt (chunkFuel t) 12 = .ok (f.body, f.len) :=
    findChunk_congr_of_ok (s := s) (t := t) rfl rfl hlen hfind fun k hk hkb => hsame k (by omega) (by omega)
  have hbytes (i n : Nat) (hin : i + n ≤ 8 ∨ 14 ≤ i) : streamBytes t (f.body + i) n = streamBytes s (f.body + i) n :=
    streamBytes_congr fun j hj => by
      have := hsame (f.body + i + j) (by omega) (by omega)
      rwa [← Nat.add_assoc] at this
  have hfmtt : readFmt t = .ok f := by
    obtain ⟨-, -, hread⟩ := readFmt_of_chunk hfindt
    rw [(hread hflen hroom).2 hanswer, hfields]
    simp only [fmtOf, hbytes 2 2 (.inl (by decide)), hbytes 4 4 (.inl (by decide)), hbytes 14 2 (.inr le_rfl)]
    rw [← Nat.add_zero f.body, hbytes 0 2 (.inl (by decide))]
  have hdata : readData t f = readData s f := by
    have hfindData := findChunk_congr (s := s) (t := t) rfl rfl asciiData (chunkFuel s) (f.body + f.len)
      fun k hk => hsame k (by omega) (by omega)
    have hfuel : chunkFuel t = chunkFuel s := rfl
    simp only [readData, hfuel, hfindData]
    rfl
  have hcheck : checkFmt t f = checkFmt s f := rfl
  simp only [parseStream, hriff, hfmtt, hfmt, hcheck, hdata]

/-! ### Parsing what ENCODE writes -/

/-- A search that begins at its chunk. -/
theorem findChunk_here {s : State} {id : List Byte} {pos : Nat} (hroom : pos + 8 ≤ inLen s)
    (hanswer : AllAnswer s.platform (s.cfg.inBase.toNat + pos) 8) (hid : streamBytes s pos 4 = id) :
    findChunk s id (chunkFuel s) pos = .ok (pos + 8, uLE (streamBytes s (pos + 4) 4)) := by
  simp only [chunkFuel, findChunk, if_neg (show ¬inLen s - pos < 8 by omega), inRead_of_answer hanswer,
    streamBytes_take s pos (by decide : 4 ≤ 8), hid, if_true, field_streamBytes s pos (by decide : 4 + 4 ≤ 8)]

/-- What the parser makes of a configuration's stream: its data stands behind the 44 bytes of the header. -/
def EncodeParams.plan (p : EncodeParams) : DecodePlan := ⟨p.channels, p.width, p.rate, 44, p.dataLen⟩

section
variable {p : EncodeParams} (hC : 1 ≤ p.channels) (hW : 0 < p.width)
include hC hW

theorem EncodeParams.plan_frames : p.plan.frames = p.samples := by
  show p.samples * p.channels * p.width / (p.channels * p.width) = p.samples
  rw [Nat.mul_assoc, Nat.mul_div_cancel _ (Nat.mul_pos hC hW)]

theorem EncodeParams.plan_need : p.plan.need = p.dataLen := by
  rw [DecodePlan.need, plan_frames hC hW]; rfl

end

/-- A stream that is a legal configuration's header and data parses to that configuration. -/
theorem parseStream_of_encoded {u : State} {p : EncodeParams} (hW : p.width ∈ Config.widths) (hC : 1 ≤ p.channels)
    (hC8 : p.channels ≤ 8) (hrate : 1 ≤ p.rate) (hrate' : p.rate ≤ 1000000000)
    (hbyteRate : p.rate * p.channels * p.width ≤ 4294967295)
    (hriffSize : 36 + p.samples * p.channels * p.width ≤ 4294967295) (hlen : inLen u = p.total)
    (hscr : p.dataLen ≤ u.cfg.scrLen.toNat) (hanswer : AllAnswer u.platform u.cfg.inBase.toNat p.total)
    (hheader : streamBytes u 0 44 = wavHeader p) :
    parseStream u = .ok p.plan := by
  obtain ⟨-, hriffId, -, hwave, hfmtId, hfmtLen, hcode, hchannels, hrateField, -, -, hbits, hdataId, hdataLen⟩ :=
    headerFields p hW hC hC8 hbyteRate hriffSize
  have htotal := encodeTotal_eq p
  have hpart (i n : Nat) (hin : i + n ≤ 44) : streamBytes u i n = ((wavHeader p).drop i).take n := by
    rw [← hheader, streamBytes_slice u 0 hin, Nat.zero_add]
  have hnum (i n : Nat) (hin : i + n ≤ 44) : uLE (streamBytes u i n) = field (wavHeader p) i n := by
    rw [hpart i n hin, field]
  have hans (k l : Nat) (hkl : k + l ≤ 44) : AllAnswer u.platform (u.cfg.inBase.toNat + k) l :=
    fun y h1 h2 => hanswer y (by omega) (by omega)
  have hriff : readRiff u = .ok () := by
    exact (readRiff_of_bytes (by omega) (hans 0 12 (by decide))).trans
      ((if_neg (not_not.mpr ((hpart 0 4 (by decide)).trans hriffId))).trans
        (if_neg (not_not.mpr ((hpart 8 4 (by decide)).trans hwave))))
  have hfindFmt := findChunk_here (s := u) (pos := 12) (by omega) (hans 12 8 (by decide)) ((hpart 12 4 (by decide)).trans hfmtId)
  rw [hnum 16 4 (by decide), hfmtLen] at hfindFmt
  have hfmt : readFmt u = .ok ⟨20, 16, 1, p.channels, p.rate, 8 * p.width⟩ := by
    obtain ⟨-, -, hread⟩ := readFmt_of_chunk hfindFmt
    rw [(hread le_rfl (by omega)).2 (hans 20 16 (by decide)), fmtOf, hnum 20 2 (by decide), hnum 22 2 (by decide),
      hnum 24 4 (by decide), hnum 34 2 (by decide), hcode, hchannels, hrateField, hbits]
  have hwidthBits : 8 * p.width ∈ [8, 16, 24, 32, 48, 64] := by
    rw [← bits_supported_iff, Nat.mul_mod_right, Nat.mul_div_cancel_left _ (by decide)]
    exact ⟨rfl, hW⟩
  have hvalid : checkFmt u ⟨20, 16, 1, p.channels, p.rate, 8 * p.width⟩ = none := by
    obtain ⟨-, -, -, -, -, hnone⟩ := checkFmt_clauses (s := u) ⟨20, 16, 1, p.channels, p.rate, 8 * p.width⟩
    exact hnone rfl ⟨hC, hC8⟩ hwidthBits ⟨hrate, hrate'⟩ (Nat.zero_le _)
  have hfindData := findChunk_here (s := u) (pos := 36) (by omega) (hans 36 8 (by decide)) ((hpart 36 4 (by decide)).trans hdataId)
  rw [hnum 40 4 (by decide), hdataLen] at hfindData
  have hneed := EncodeParams.plan_need hC (width_pos hW)
  have hwhole : p.samples * p.channels * p.width % p.channels = 0 := by
    rw [Nat.mul_right_comm, Nat.mul_mod_left]
  have hplan : (⟨p.channels, 8 * p.width / 8, p.rate, 36 + 8, p.samples * p.channels * p.width⟩ : DecodePlan) = p.plan := by
    rw [Nat.mul_div_cancel_left _ (by decide : 0 < 8)]; rfl
  rw [parseStream_of_fmt hriff hfmt hvalid, readData_of_chunk hfindData]
  simp only [hplan, hneed, hwhole]
  rw [if_neg (by simp), if_neg (by omega), if_neg (by simp only [EncodeParams.dataLen]; omega)]

/-- Settles O22. DECODE reads the header ENCODE wrote, copies sample i of channel c to its place, and what it copies
is what ENCODE wrote there. -/
theorem encodeDecodeRoundTrip : Obligations.EncodeDecodeRoundTrip := by
  unfold Obligations.EncodeDecodeRoundTrip
  intro s t b l hcheck hdefined hregions hexec p u hcheckU hdefinedU hroom hscr
  have ok := encodeOk_of_check hcheck
  obtain ⟨t', hexec', -, -, hheader, hlevels, -, hsetup, -⟩ := encodeWritesStream s hcheck hdefined hregions
  obtain rfl : t' = t := by rw [hexec'] at hexec; exact Host.Outcome.next.inj hexec
  obtain ⟨hcfg, -, -, hplatform, -, -⟩ := hsetup
  have htotal := encodeTotal_eq p
  have hdataLen : 36 + p.samples * p.channels * p.width < 2 ^ 32 := ok.dataLen
  have hbase : u.cfg.inBase = s.cfg.outBase := congrArg ConfigRegs.outBase hcfg
  have hlen : inLen u = p.total := by
    show (BitVec.ofNat 64 p.total).toNat = p.total
    rw [BitVec.toNat_ofNat, Nat.mod_eq_of_lt (by omega)]
  have hanswer : AllAnswer u.platform u.cfg.inBase.toNat p.total := by
    rw [hbase, show u.platform = s.platform from hplatform]
    exact hregions p.output List.mem_cons_self
  have hparse := parseStream_of_encoded (u := u) ok.width ok.channels_pos ok.channels_le ok.rate_pos ok.rate_le
    (Nat.le_of_lt_succ ok.byteRate) (Nat.le_of_lt_succ hdataLen) hlen hroom hanswer (by
      refine List.ext_getElem (by simp [streamBytes]) fun k hk hk' => ?_
      rw [wavHeader_length] at hk'
      have := hheader k hk'
      rw [List.getD_eq_getElem _ _ (by rwa [wavHeader_length])] at this
      simp only [streamBytes, List.getElem_map, List.getElem_range, hbase, Nat.add_zero]
      exact this)
  have hneed := EncodeParams.plan_need ok.channels_pos (width_pos ok.width)
  have hframes := EncodeParams.plan_frames ok.channels_pos (width_pos ok.width)
  obtain ⟨m, hrun, hcopied, -⟩ := decode_copied hcheckU hparse
    (State.defined_mono hdefinedU (decodeTouched_subset u _)) (by
      rw [hneed]
      exact fun y (h1 : _ + 44 ≤ y) (h2 : y < _ + 44 + p.samples * p.channels * p.width) =>
        hanswer y (by omega) (by omega))
    (by rw [hneed]; exact hscr)
  refine ⟨_, congrArg Host.Outcome.next hrun, completesWith_none rfl, ?_, fun i c hi hc => ?_⟩
  · show DecodePlan.results _ = _
    rw [DecodePlan.results, hframes]; rfl
  · obtain ⟨lv, hlv, hbytes⟩ := hlevels i c hi hc
    refine ⟨lv, hlv, fun k hk => ?_⟩
    have := hcopied i c k (by rw [hframes]; exact hi) hc hk
    rw [hframes] at this
    refine this.trans (Eq.trans ?_ (hbytes k hk))
    rw [hbase, ← Nat.add_assoc]
    rfl

end Sys2Proof.Machine

/-! PROOFS. Which errors a command can report (60_exceptions.md R273), and when a command sets HAZARD
(70_reset_and_hazards.md R312, 10_state.md R60). -/

namespace Sys2Proof.Machine

/-! ### The error codes of the commands (R273) -/

section
variable {codes : List ErrorCode} {code : ErrorCode} {info0 info1 : Word} (hcode : code ∈ codes)
include hcode

theorem forall_mem_some : ∀ r ∈ some (⟨code, info0, info1⟩ : Raise), r.code ∈ codes := by
  intro r hr
  cases hr; exact hcode

variable {c : Prop} [Decidable c]

/-- A check in front of others adds its own code to theirs. -/
theorem forall_mem_check {rest : Option Raise} (hrest : ∀ r ∈ rest, r.code ∈ codes) :
    ∀ r ∈ (if c then some ⟨code, info0, info1⟩ else rest), r.code ∈ codes := by
  split_ifs
  · exact forall_mem_some hcode
  · exact hrest

/-- The same in front of the other steps of a reader. -/
theorem forall_error_check {α : Type} {rest : Except Raise α} (hrest : ∀ r, rest = .error r → r.code ∈ codes) :
    ∀ r, (if c then .error ⟨code, info0, info1⟩ else rest) = .error r → r.code ∈ codes := by
  split_ifs
  · intro r hr
    cases hr; exact hcode
  · exact hrest

end

/-- The code of a record is 0 or the number of one of the codes its error can have. -/
theorem code_of_error {codes : List ErrorCode} {e : Option Raise} (h : ∀ r ∈ e, r.code ∈ codes) :
    (ErrorRecord.of e).code = 0 ∨ ∃ c ∈ codes, (ErrorRecord.of e).code = c.toWord := by
  cases e with
  | none => exact .inl rfl
  | some r => exact .inr ⟨r.code, h r rfl, rfl⟩

/-- What a search over the channels finds is what some channel has. -/
theorem firstBadChannel_code {s : State} {C : Nat} : ∀ r ∈ firstBadChannel s C, r.code = .badParameter := by
  intro r hr
  obtain ⟨c, -, hc⟩ := List.exists_of_findSome?_eq_some hr
  exact checkChannel_code hc

theorem firstOverlap_code {s : State} {C : Nat} {out : Region} :
    ∀ r ∈ firstOverlap s C out, r.code = .badParameter := by
  intro r hr
  obtain ⟨c, -, hc⟩ := List.exists_of_findSome?_eq_some hr
  split_ifs at hc
  cases hc; rfl

/-- UNSUPPORTED_FORMAT, UNSUPPORTED_SAMPLE_WIDTH, BUS_ERROR and BAD_PARAMETER. -/
def encodeCodes : List ErrorCode := [.unsupportedFormat, .unsupportedSampleWidth, .busError, .badParameter]

/-- MALFORMED_HEADER, UNSUPPORTED_FORMAT, SHORT_READ, BUS_ERROR and BAD_PARAMETER. -/
def decodeCodes : List ErrorCode := [.malformedHeader, .unsupportedFormat, .shortRead, .busError, .badParameter]

/-- UNSUPPORTED_SAMPLE_WIDTH, BUS_ERROR, ILLEGAL_COMMAND and BAD_PARAMETER. -/
def genEvalCodes : List ErrorCode := [.unsupportedSampleWidth, .busError, .illegalCommand, .badParameter]

theorem checkEncode_code (s : State) : ∀ r ∈ checkEncode s, r.code ∈ encodeCodes := by
  have hbad {r : Raise} (h : r.code = .badParameter) : r.code ∈ encodeCodes := by rw [h]; decide
  rw [checkEncode_eq rfl]
  refine forall_mem_check (by decide) (forall_mem_check (by decide) (forall_mem_check (by decide)
    (forall_mem_check (by decide) (forall_mem_check (by decide) (forall_mem_check (by decide) fun r hr => ?_)))))
  rcases Option.or_eq_some_iff.mp hr with hchannel | ⟨-, hregion⟩
  · exact hbad (firstBadChannel_code r hchannel)
  · exact forall_mem_check (by decide) (forall_mem_check (by decide) fun r hr => hbad (firstOverlap_code r hr)) r hregion

/-- A stream ends early only at a silent byte. -/
theorem StreamEnd.code {p : EncodeParams} {s : State} {bytes : Nat} {e : Option Raise} (h : StreamEnd p s bytes e) :
    ∀ r ∈ e, r.code = .busError := by
  intro r hr
  cases h with
  | headerFault => cases hr; rfl
  | samples e _ h => cases h <;> cases hr <;> rfl

theorem encodeRun_error (s : State) :
    ∃ e, (encodeRun s).error = ErrorRecord.of e ∧ ∀ r ∈ e, r.code ∈ encodeCodes := by
  cases hcheck : checkEncode s with
  | some e => exact ⟨some e, by rw [encodeRun_of_error hcheck]; rfl, hcheck ▸ checkEncode_code s⟩
  | none =>
    obtain ⟨m, bytes, e, hrun, hend, -⟩ := encodeRun_spec hcheck
    exact ⟨e, by rw [hrun]; rfl, fun r hr => by rw [hend.code r hr]; decide⟩

section
variable (s : State)

theorem inRead_code {k l : Nat} (e : Raise) (h : inRead s k l = .error e) : e.code = .busError := by
  obtain ⟨x, -, rfl⟩ := inRead_error h
  rfl

theorem findChunk_code {id : List Byte} {fuel pos : Nat} (e : Raise) (h : findChunk s id fuel pos = .error e) :
    e.code ∈ decodeCodes := by
  rcases findChunk_error h with h | h | h <;> rw [h] <;> decide

theorem readRiff_code : ∀ e, readRiff s = .error e → e.code ∈ decodeCodes := by
  refine forall_error_check (by decide) fun e he => ?_
  split at he
  case h_1 e' hread => cases he; rw [inRead_code s e hread]; decide
  case h_2 => exact forall_error_check (by decide) (forall_error_check (by decide) (fun _ h => by cases h)) e he

theorem readFmt_code (e : Raise) (h : readFmt s = .error e) : e.code ∈ decodeCodes := by
  unfold readFmt at h
  split at h
  case h_1 e' hfind => cases h; exact findChunk_code s e hfind
  case h_2 p flen hfind =>
    refine forall_error_check (by decide) (forall_error_check (by decide) fun e he => ?_) e h
    split at he
    case h_1 e' hread => cases he; rw [inRead_code s e hread]; decide
    case h_2 => cases he

theorem checkFmt_code (f : Fmt) : ∀ r ∈ checkFmt s f, r.code ∈ decodeCodes := by
  rw [checkFmt_eq]
  exact forall_mem_check (by decide) (forall_mem_check (by decide) (forall_mem_check (by decide)
    (forall_mem_check (by decide) (forall_mem_check (by decide) nofun))))

theorem readData_code (f : Fmt) (e : Raise) (h : readData s f = .error e) : e.code ∈ decodeCodes := by
  cases hfind : findChunk s asciiData (chunkFuel s) (f.body + f.len) with
  | error e' =>
    simp only [readData, hfind] at h
    cases h; exact findChunk_code s e hfind
  | ok r =>
    rw [readData_of_chunk hfind] at h
    exact forall_error_check (by decide) (forall_error_check (by decide)
      (forall_error_check (by decide) (fun _ h => by cases h))) e h

theorem parseStream_code (e : Raise) (h : parseStream s = .error e) : e.code ∈ decodeCodes := by
  cases hriff : readRiff s with
  | error e' =>
    rw [parseStream_of_riff_error hriff] at h
    cases h; exact readRiff_code s e hriff
  | ok _ =>
    cases hfmt : readFmt s with
    | error e' =>
      rw [parseStream_of_fmt_error hriff hfmt] at h
      cases h; exact readFmt_code s e hfmt
    | ok f =>
      cases hcheck : checkFmt s f with
      | some e' =>
        rw [parseStream_of_check_error hriff hfmt hcheck] at h
        cases h; exact checkFmt_code s f e hcheck
      | none =>
        rw [parseStream_of_fmt hriff hfmt hcheck] at h
        exact readData_code s f e h

theorem checkDecode_code : ∀ r ∈ checkDecode s, r.code ∈ decodeCodes := by
  rw [checkDecode_eq]
  exact forall_mem_check (by decide) (forall_mem_check (by decide) (forall_mem_check (by decide) nofun))

theorem decodeRun_error : ∃ e, (decodeRun s).error = ErrorRecord.of e ∧ ∀ r ∈ e, r.code ∈ decodeCodes := by
  cases hcheck : checkDecode s with
  | some e => exact ⟨some e, by rw [decodeRun_of_check_error hcheck]; rfl, hcheck ▸ checkDecode_code s⟩
  | none =>
    cases hparse : parseStream s with
    | error e =>
      refine ⟨some e, by rw [decodeRun_of_parse_error hcheck hparse]; rfl, fun r hr => ?_⟩
      cases hr; exact parseStream_code s e hparse
    | ok p =>
      obtain ⟨m, e, hdone, hstop, -, -, hfault, -⟩ := decodeRun_spec hcheck hparse
      cases e with
      | none => exact ⟨none, by rw [hdone rfl]; rfl, nofun⟩
      | some r =>
        obtain ⟨i, -, hf, -⟩ := hfault r rfl
        refine ⟨some r, by rw [hstop r rfl]; rfl, fun r' hr => ?_⟩
        cases hr; rw [hf.code]; decide

theorem genEvalRun_error (ch : BitVec 8) (w : BitVec 4) :
    ∃ e, (genEvalRun ch w s).error = ErrorRecord.of e ∧ ∀ r ∈ e, r.code ∈ genEvalCodes := by
  by_cases hch : ch.toNat < 8
  case neg =>
    exact ⟨some _, by rw [genEvalRun_of_bad_channel w hch]; rfl, forall_mem_some (by decide)⟩
  by_cases hw : w.toNat ∈ [1, 2, 3, 4, 6, 8]
  case neg =>
    exact ⟨some _, by rw [genEvalRun_of_bad_width hch hw]; rfl, forall_mem_some (by decide)⟩
  obtain ⟨hbad, hgood⟩ := genEvalRun_of_operands (s := s) hch hw
  cases hcheck : checkChannel ch.toNat (s.ch ch.toNat) with
  | some e =>
    refine ⟨some e, by rw [hbad e hcheck]; rfl, fun r hr => ?_⟩
    cases hr; rw [checkChannel_code hcheck]; decide
  | none =>
    obtain ⟨herror, hok⟩ := hgood hcheck
    cases hlevel : chanLevel s ch.toNat (s64 s.cfg.evalTime) with
    | error x => exact ⟨some _, by rw [herror x hlevel]; rfl, forall_mem_some (by decide)⟩
    | ok v => exact ⟨none, by rw [hok v hlevel]; rfl, nofun⟩

end

/-- Settles O57. -/
theorem errorsOfCommands : Obligations.ErrorsOfCommands := by
  unfold Obligations.ErrorsOfCommands
  intro s t
  refine ⟨fun h => ?_, fun h => ?_, fun h => ?_, fun ch w h => ?_⟩ <;> cases h
  · rfl
  · obtain ⟨e, herror, hcodes⟩ := encodeRun_error s
    simpa [herror, encodeCodes, ErrorCode.toWord] using code_of_error hcodes
  · obtain ⟨e, herror, hcodes⟩ := decodeRun_error s
    simpa [herror, decodeCodes, ErrorCode.toWord] using code_of_error hcodes
  · obtain ⟨e, herror, hcodes⟩ := genEvalRun_error s ch w
    simpa [herror, genEvalCodes, ErrorCode.toWord] using code_of_error hcodes

/-! ### The mark a command leaves (R312) -/

/-- Evaluating a channel reads its buffer when it is a BUFFER channel and the time falls inside. -/
theorem Channel.readsAt_iff (d : Channel) (t : Int) :
    d.readsAt t = true ↔ d.src = 6 ∧ bufferSample d (sourceTime d t) ≠ none := by
  simp only [Channel.readsAt, Bool.and_eq_true, beq_iff_eq, kindOf_eq_buffer_iff, Option.isSome_iff_ne_none]

section
variable {s : State}

/-- A region that is accessed under a condition. -/
theorem exists_mem_accessed {c : Prop} [Decidable c] {r : Region} {P : Region → Prop} :
    (∃ x ∈ (if c then [r] else []), P x) ↔ c ∧ P r := by
  split_ifs with h <;> simp [h]

/-- What an ENCODE that ended after this many bytes accessed and a device lies in. -/
theorem encodeTouched_covers_iff (bytes : Nat) :
    (∃ r ∈ encodeTouched s bytes, s.platform.CoversDevice r) ↔
      s.platform.CoversDevice (outRegion s) ∨
        ∃ i c, i < (encodeParams s).samples ∧ c < (encodeParams s).channels ∧ (s.ch c).src = 6 ∧
          44 + (i * (encodeParams s).channels + c) * (encodeParams s).width ≤ bytes ∧
          bufferSample (s.ch c) (sourceTime (s.ch c) ((i * (encodeParams s).period : Nat) : Int)) ≠ none ∧
          s.platform.CoversDevice (s.ch c).bufRegion := by
  simp only [encodeTouched, List.mem_cons, or_and_right, exists_or, exists_eq_left, List.mem_map, List.mem_filter, List.mem_range,
    EncodeParams.readBuffer, List.any_eq_true, Bool.and_eq_true, decide_eq_true_eq, Channel.readsAt_iff]
  refine or_congr_right ⟨?_, ?_⟩
  · rintro ⟨_, ⟨c, ⟨hc, i, hi, hreached, hsrc, hinside⟩, rfl⟩, hcovers⟩
    exact ⟨i, c, hi, hc, hsrc, hreached, hinside, hcovers⟩
  · rintro ⟨i, c, hi, hc, hsrc, hreached, hinside, hcovers⟩
    exact ⟨_, ⟨c, ⟨hc, i, hi, hreached, hsrc, hinside⟩, rfl⟩, hcovers⟩

/-- An ENCODE whose checks pass marks what it accessed up to ENC_BYTES, the byte its stream ended at. -/
theorem encodeRun_hazard_iff (hcheck : checkEncode s = none) :
    (encodeRun s).hazard = true ↔ s.hazard = true ∨
      ∃ r ∈ encodeTouched s (encodeRun s).enc.bytes.toNat, s.platform.CoversDevice r := by
  obtain ⟨m, bytes, e, hrun, hend, -⟩ := encodeRun_spec hcheck
  have hbytes : (encodeRun s).enc.bytes.toNat = bytes := by
    have hle := hend.bounds
    have hroom := (encodeOk_of_check hcheck).room
    have hlt := s.cfg.outLen.isLt
    rw [hrun]
    exact (BitVec.toNat_ofNat _ _).trans (Nat.mod_eq_of_lt (by omega))
  rw [hbytes, hrun]
  exact markRegions_hazard_iff _ _

/-- The input is accessed when it holds a RIFF header's bytes. -/
theorem inputTouched_covers_iff : (∃ r ∈ inputTouched s, s.platform.CoversDevice r) ↔
    12 ≤ inLen s ∧ s.platform.CoversDevice (inRegion s) :=
  exists_mem_accessed

/-- The scratch is accessed when there is a frame and its first sample is read. -/
theorem scratchTouched_covers_iff {p : DecodePlan} (hplan : PlanOk s p) :
    (∃ r ∈ scratchTouched s p, s.platform.CoversDevice r) ↔
      0 < p.frames ∧ AllAnswer s.platform (s.cfg.inBase.toNat + p.dataOff) p.width ∧
        s.platform.CoversDevice (scrRegion s) := by
  have hneed : 0 < p.need ↔ 0 < p.frames := by
    simp only [DecodePlan.need, Nat.mul_pos_iff_of_pos_right (width_pos hplan.width),
      Nat.mul_pos_iff_of_pos_right hplan.channels_pos]
  have hread : (inRead s p.dataOff p.width).isOk = true ↔
      AllAnswer s.platform (s.cfg.inBase.toNat + p.dataOff) p.width := by
    refine ⟨fun h => ?_, fun h => by rw [inRead_of_answer h]; rfl⟩
    cases hin : inRead s p.dataOff p.width with
    | ok bs => exact inRead_answers hin
    | error e => rw [hin] at h; cases h
  rw [scratchTouched, exists_mem_accessed, hneed, hread, and_assoc]

/-- A DECODE whose regions pass marks the input, and the scratch when the stream parses. -/
theorem decodeRun_hazard_iff (hcheck : checkDecode s = none) :
    (decodeRun s).hazard = true ↔ s.hazard = true ∨ (∃ r ∈ inputTouched s, s.platform.CoversDevice r) ∨
      ∃ p, parseStream s = .ok p ∧ ∃ r ∈ scratchTouched s p, s.platform.CoversDevice r := by
  cases hparse : parseStream s with
  | error e =>
    rw [decodeRun_of_parse_error hcheck hparse]
    simpa using markRegions_hazard_iff s (inputTouched s)
  | ok p =>
    have hmark : (decodeRun s).hazard = (s.markRegions (decodeTouched s p)).hazard := by
      obtain ⟨m, e, hdone, hstop, -⟩ := decodeRun_spec hcheck hparse
      cases e with
      | none => rw [hdone rfl]; rfl
      | some r => rw [hstop r rfl]; rfl
    rw [hmark, markRegions_hazard_iff]
    simp only [decodeTouched, List.mem_append, or_and_right, exists_or, Except.ok.injEq, exists_eq_left']

/-- A GEN_EVAL marks the buffer it reads once its checks pass. -/
theorem genEvalRun_hazard_iff (ch : BitVec 8) (w : BitVec 4) :
    (genEvalRun ch w s).hazard = true ↔ s.hazard = true ∨ (ch.toNat < 8 ∧ w.toNat ∈ [1, 2, 3, 4, 6, 8] ∧
      checkChannel ch.toNat (s.ch ch.toNat) = none ∧ ∃ r ∈ evalTouched s ch.toNat, s.platform.CoversDevice r) := by
  by_cases hch : ch.toNat < 8
  case neg => rw [genEvalRun_of_bad_channel w hch]; simp [hch, illegalRun]
  by_cases hw : w.toNat ∈ [1, 2, 3, 4, 6, 8]
  case neg => rw [genEvalRun_of_bad_width hch hw]; simp only [hw, false_and, and_false, or_false]; rfl
  obtain ⟨hbad, hgood⟩ := genEvalRun_of_operands (s := s) hch hw
  cases hcheck : checkChannel ch.toNat (s.ch ch.toNat) with
  | some e => rw [hbad e hcheck]; simp only [reduceCtorEq, false_and, and_false, or_false]; rfl
  | none =>
    obtain ⟨herror, hok⟩ := hgood hcheck
    have hmark : (genEvalRun ch w s).hazard = (s.markRegions (evalTouched s ch.toNat)).hazard := by
      cases hlevel : chanLevel s ch.toNat (s64 s.cfg.evalTime) with
      | error x => rw [herror x hlevel]; rfl
      | ok v => rw [hok v hlevel]; rfl
    simp only [hmark, markRegions_hazard_iff, hch, hw, true_and]

theorem evalTouched_covers_iff (c : Nat) : (∃ r ∈ evalTouched s c, s.platform.CoversDevice r) ↔
    (s.ch c).src = 6 ∧ bufferSample (s.ch c) (sourceTime (s.ch c) s.cfg.evalTime.toInt) ≠ none ∧
      s.platform.CoversDevice (s.ch c).bufRegion := by
  rw [evalTouched, exists_mem_accessed, Channel.readsAt_iff, and_assoc]
  rfl

/-- Only the three commands that access memory mark. -/
theorem exec_hazard {i : Instr} {t : State} (hencode : i ≠ .encode) (hdecode : i ≠ .decode)
    (hgenEval : ∀ ch w, i ≠ .genEval ch w) (h : exec i s = .next t) : t.hazard = s.hazard := by
  have hselect (c : Nat) (k : SourceKind) : (selectSource c k s).hazard = s.hazard := by
    by_cases hc : c < Config.nCh
    · cases hbusy : s.busy with
      | true => rw [selectSource_of_busy hbusy hc]; rfl
      | false => rw [selectSource_of_idle ((not_busy_iff s).mp hbusy) hc]; rfl
    · rw [selectSource, if_neg hc]
  cases i with
  | encode => exact absurd rfl hencode
  | decode => exact absurd rfl hdecode
  | genEval ch w => exact absurd rfl (hgenEval ch w)
  | nop => cases h; rfl
  | srst =>
    cases h
    exact (abandonDest_frame s).1
  | srcNone c => cases h; exact hselect c .none
  | srcSine c => cases h; exact hselect c .sine
  | srcPulse c => cases h; exact hselect c .pulse
  | srcSquare c => cases h; exact hselect c .square
  | srcRampUp c => cases h; exact hselect c .rampUp
  | srcRampDown c => cases h; exact hselect c .rampDown
  | srcBuffer c => cases h; exact hselect c .buffer

end

/-! ### HAZARD stays (R60) -/

theorem csrWrite_hazard {s t : State} {off : BitVec 12} {w : Word} (h : csrWrite off w s = .next t) :
    t.hazard = s.hazard := by
  rcases csrWrite_cases off w s with ⟨-, heq⟩ | ⟨-, -, heq⟩ | ⟨st, ie, cf, cs, heq, -, -⟩ <;>
    rw [heq] at h <;> cases h
  · cases hbusy : s.busy with
    | true => rw [writeCmd_of_busy w (s := { s with resp := .written }) hbusy]; rfl
    | false =>
      rw [writeCmd_of_idle w (s := { s with resp := .written }) ((not_busy_iff s).mp hbusy), accept_hazard]
  · exact (abandonDest_frame { s with resp := .written }).1
  · rfl

/-- No access but the hard reset clears the mark. -/
theorem hostAccess_hazard {s t : State} {a : Access} (ha : a ≠ .hardReset) (hs : s.hazard = true)
    (h : hostAccess a s = .next t) : t.hazard = true := by
  have hwrite (rs : List Region) (a : Nat) (bs : List Byte) : (outsideWrite rs a bs s).hazard = true :=
    (outsideWrite_hazard_iff rs a bs s).mpr (.inl hs)
  cases a with
  | csr dir size off data =>
    simp only [hostAccess] at h
    split at h
    · cases h; exact hs
    · cases dir with
      | read =>
        obtain ⟨r, d, -, heq⟩ := csrRead_spec off s
        cases h; rw [heq]; exact hs
      | write => exact (csrWrite_hazard h).trans hs
  | memWrite a bs =>
    simp only [hostAccess] at h
    split at h <;> cases h
    exact hwrite s.guarded _ _
  | masterWrite a bs =>
    simp only [hostAccess] at h
    split at h <;> cases h
    exact hwrite _ _ _
  | memRead a n =>
    simp only [hostAccess] at h
    split at h <;> cases h
    exact hs
  | hardReset => exact absurd rfl ha
  | platformChange p =>
    cases h
    exact Bool.or_eq_true_iff.mpr (.inl hs)

theorem engineTurn_hazard {s t : State} (hs : s.hazard = true) (h : engineTurn s = .next t) : t.hazard = true := by
  cases hphase : s.phase with
  | idle => simp only [engineTurn, hphase] at h; cases h; exact hs
  | running w =>
    obtain ⟨t', e, heq, hran⟩ := engineTurn_ran hphase
    rw [heq] at h; cases h
    exact hran.hazard hs

/-- Settles O60. What each command accessed is the list it marks; each turn of the machine but a hard reset keeps the
mark. -/
theorem deviceAccessSetsHazard : Obligations.DeviceAccessSetsHazard := by
  unfold Obligations.DeviceAccessSetsHazard
  refine ⟨fun s t h => ?_, fun s t h => ?_, fun s t ch w h => ?_, fun s t i => exec_hazard, fun s t hs h hreset => ?_⟩
  · cases h
    cases hcheck : checkEncode s with
    | some e => rw [encodeRun_of_error hcheck]; simp only [reduceCtorEq, false_and, or_false]; rfl
    | none =>
      refine (encodeRun_hazard_iff hcheck).trans (or_congr_right ?_)
      rw [encodeTouched_covers_iff, eq_self, true_and]
      rfl
  · cases h
    cases hcheck : checkDecode s with
    | some e => rw [decodeRun_of_check_error hcheck]; simp only [reduceCtorEq, false_and, or_false]; rfl
    | none =>
      refine (decodeRun_hazard_iff hcheck).trans (or_congr_right ?_)
      rw [inputTouched_covers_iff, eq_self, true_and]
      refine or_congr_right (exists_congr fun p => and_congr_right fun hparse => ?_)
      exact scratchTouched_covers_iff (planOk_of_parse hparse)
  · cases h
    refine (genEvalRun_hazard_iff ch w).trans ?_
    rw [evalTouched_covers_iff]
    rfl
  · rcases step_cases h with ⟨es, -, hturn⟩ | ⟨a, es, hin, haccess⟩ | ⟨a, es, u, hin, haccess, -, -, hturn⟩
    · exact engineTurn_hazard (s := { s with inputs := es }) hs hturn
    · refine hostAccess_hazard (s := { s with inputs := es }) ?_ hs haccess
      rintro rfl
      exact hin.elim (hreset es).1 (hreset es).2
    · refine engineTurn_hazard (hostAccess_hazard (s := { s with inputs := es }) ?_ hs haccess) hturn
      rintro rfl
      exact (hreset es).2 hin

end Sys2Proof.Machine
